-- ==== Sys2Proof/Word.lean ====
section
/-! DEFINITION. The two word types of the block: the 32-bit host word and the byte
(spec/00_scope.md R10 to R12, spec/20_memory.md R101, R108). -/

namespace Sys2Proof

/-- A host word, an operation word or an operand word: 32 bits (R42, R140). -/
abbrev Word := BitVec 32

/-- A RAM byte, a byte on the wire, a payload byte or a glyph row byte: 8 bits (R12, R108). -/
abbrev Byte := BitVec 8

end Sys2Proof
end

