-- ==== Sys2Proof/Syntax.lean ====
section
/-! DEFINITION. The syntax of the block's instructions: one constructor per row of
spec/opcode_table.json. The first 24 are the operations that a host writes to OP
(spec/30_encoding.md R145); the last 5 are the panel command bytes that the sequencer puts on the
wire while it carries an operation out (R155 to R160). -/

namespace Sys2Proof

/-- One of the two halves of the panel, with its own chip-select (R16). -/
inductive Half
  | master | slave
  deriving DecidableEq, Repr, Inhabited

/-- The TGT field of an operation word as R141 decodes it. -/
inductive Tgt
  | none | master | slave | both
  deriving DecidableEq, Repr, Inhabited

/-- An instruction. `t` and `h` are the TGT field, `c` the command byte, `k` the color code and
`ch` the character held by IMM (R142). Operands in ARG0 and ARG1 are state, not syntax (R143). -/
inductive Instr
  | nop
  | select (t : Tgt)
  | deselect (t : Tgt)
  | sendCmd (t : Tgt) (c : Byte)
  | sendData (t : Tgt)
  | sendFramed (t : Tgt) (c : Byte)
  | waitReady
  | reset
  | configure
  | init
  | powerOn
  | refresh
  | powerOff
  | sleep
  | displayUpdate
  | beginFrame (h : Tgt)
  | writeLine (h : Tgt)
  | endFrame (h : Tgt)
  | fillLine (k : Byte)
  | glyphIndex (ch : Byte)
  | glyphRow
  | stampGlyph
  | clear (k : Byte)
  | splash
  | wireLineWrite
  | wirePowerOn
  | wireDataRefresh
  | wirePowerOff
  | wireDeepSleep
  deriving DecidableEq, Repr, Inhabited

end Sys2Proof
end

