-- ==== Sys2Proof/Decode.lean ====
section
/-! DEFINITION. The two encodings of spec/30_encoding.md: the operation word OPW (R140 to R148) and
the panel command byte (R155 to R160). A decoder and an encoder for each, both written from the
tables of the spec. -/

namespace Sys2Proof

/-- Why a word or a byte stands for no instruction. -/
inductive DecodeError
  /-- OPC is not in the operation map (R146). -/
  | unlistedOpcode (opc : Byte)
  /-- OPC is listed and a bit that its mask requires to be zero is set (R144, R146). -/
  | reservedField (w : Word)
  /-- The byte is none of the five panel commands of R156 to R160 (R162). -/
  | unlistedPanelCommand (b : Byte)
  deriving DecidableEq, Repr

/-! ### Fields of the operation word (R140) -/

/-- OPC, bits 7:0. -/
def opcField (w : Word) : Byte := w.extractLsb' 0 8

/-- TGT, bits 9:8. -/
def tgtField (w : Word) : BitVec 2 := w.extractLsb' 8 2

/-- IMM, bits 23:16. -/
def immField (w : Word) : Byte := w.extractLsb' 16 8

/-- TGT: 0b00 = none, 0b01 = Master, 0b10 = Slave, 0b11 = Both (R141). -/
def Tgt.ofBits (b : BitVec 2) : Tgt :=
  match b.toNat with
  | 0 => .none
  | 1 => .master
  | 2 => .slave
  | _ => .both

/-- The TGT bits of a target (R141). -/
def Tgt.bits : Tgt → BitVec 2
  | .none => 0
  | .master => 1
  | .slave => 2
  | .both => 3

/-! ### The operation map (R145) -/

/-- A row of the operation map: the match word (its low byte is OPC), the mask of bits that must
equal it, and the instruction that the TGT and IMM fields give. -/
structure OpRow where
  code : Word
  mask : Word
  build : Tgt → Byte → Instr

/-- The framer operations and NOP (R145). -/
def framerRows : List OpRow :=
  [ ⟨0x00000000, 0xFFFFFFFF, fun _ _ => .nop⟩,
    ⟨0x00000001, 0xFFFFFCFF, fun t _ => .select t⟩,
    ⟨0x00000002, 0xFFFFFCFF, fun t _ => .deselect t⟩,
    ⟨0x00000003, 0xFF00FCFF, fun t c => .sendCmd t c⟩,
    ⟨0x00000004, 0xFFFFFCFF, fun t _ => .sendData t⟩,
    ⟨0x00000005, 0xFF00FCFF, fun t c => .sendFramed t c⟩ ]

/-- The busy-line handshake (R145). -/
def handshakeRows : List OpRow :=
  [ ⟨0x00000008, 0xFFFFFFFF, fun _ _ => .waitReady⟩ ]

/-- The init/power sequencer operations (R145). -/
def sequencerRows : List OpRow :=
  [ ⟨0x00000010, 0xFFFFFFFF, fun _ _ => .reset⟩,
    ⟨0x00000011, 0xFFFFFFFF, fun _ _ => .configure⟩,
    ⟨0x00000012, 0xFFFFFFFF, fun _ _ => .init⟩,
    ⟨0x00000013, 0xFFFFFFFF, fun _ _ => .powerOn⟩,
    ⟨0x00000014, 0xFFFFFFFF, fun _ _ => .refresh⟩,
    ⟨0x00000015, 0xFFFFFFFF, fun _ _ => .powerOff⟩,
    ⟨0x00000016, 0xFFFFFFFF, fun _ _ => .sleep⟩,
    ⟨0x00000017, 0xFFFFFFFF, fun _ _ => .displayUpdate⟩ ]

/-- The line streamer operations (R145). -/
def streamerRows : List OpRow :=
  [ ⟨0x00000020, 0xFFFFFCFF, fun h _ => .beginFrame h⟩,
    ⟨0x00000021, 0xFFFFFCFF, fun h _ => .writeLine h⟩,
    ⟨0x00000022, 0xFFFFFCFF, fun h _ => .endFrame h⟩ ]

/-- The rasterizer operations (R145). -/
def rasterRows : List OpRow :=
  [ ⟨0x00000030, 0xFF00FFFF, fun _ k => .fillLine k⟩,
    ⟨0x00000031, 0xFF00FFFF, fun _ ch => .glyphIndex ch⟩,
    ⟨0x00000032, 0xFFFFFFFF, fun _ _ => .glyphRow⟩,
    ⟨0x00000033, 0xFFFFFFFF, fun _ _ => .stampGlyph⟩ ]

/-- The composer operations (R145). -/
def composerRows : List OpRow :=
  [ ⟨0x00000040, 0xFF00FFFF, fun _ k => .clear k⟩,
    ⟨0x00000041, 0xFFFFFFFF, fun _ _ => .splash⟩ ]

/-- The whole operation map of R145. -/
def opTable : List OpRow :=
  framerRows ++ handshakeRows ++ sequencerRows ++ streamerRows ++ rasterRows ++ composerRows

/-- The row of the map whose OPC is `opc`. -/
def opRow? (opc : Byte) : Option OpRow :=
  opTable.find? (fun r => opcField r.code == opc)

/-- R144: decoding an operation word. Every word either gives an instruction or is illegal; an
unlisted OPC is illegal, and so is a listed one with a masked bit that differs from its match. -/
def decode (w : Word) : Except DecodeError Instr :=
  match opRow? (opcField w) with
  | none => .error (.unlistedOpcode (opcField w))
  | some r =>
    if w &&& r.mask = r.code then .ok (r.build (Tgt.ofBits (tgtField w)) (immField w))
    else .error (.reservedField w)

/-- R156 to R160: the panel command that a command byte stands for. -/
def decodePanel (b : Byte) : Except DecodeError Instr :=
  match b.toNat with
  | 0x10 => .ok .wireLineWrite
  | 0x04 => .ok .wirePowerOn
  | 0x12 => .ok .wireDataRefresh
  | 0x02 => .ok .wirePowerOff
  | 0x07 => .ok .wireDeepSleep
  | _ => .error (.unlistedPanelCommand b)

/-! ### The encoder -/

/-- What an instruction is encoded as: an operation word or a panel command byte. -/
inductive Code
  | opw (w : Word)
  | panel (b : Byte)
  deriving DecidableEq, Repr

/-- OPW = OPC | TGT << 8 | IMM << 16, the reserved fields zero (R140, R150). -/
def opwOf (opc : Byte) (t : Tgt) (imm : Byte) : Word :=
  0#8 ++ imm ++ 0#6 ++ t.bits ++ opc

/-- The encoding of an instruction (R145; R156 to R160 for the panel commands). -/
def encode : Instr → Code
  | .nop => .opw (opwOf 0x00 .none 0)
  | .select t => .opw (opwOf 0x01 t 0)
  | .deselect t => .opw (opwOf 0x02 t 0)
  | .sendCmd t c => .opw (opwOf 0x03 t c)
  | .sendData t => .opw (opwOf 0x04 t 0)
  | .sendFramed t c => .opw (opwOf 0x05 t c)
  | .waitReady => .opw (opwOf 0x08 .none 0)
  | .reset => .opw (opwOf 0x10 .none 0)
  | .configure => .opw (opwOf 0x11 .none 0)
  | .init => .opw (opwOf 0x12 .none 0)
  | .powerOn => .opw (opwOf 0x13 .none 0)
  | .refresh => .opw (opwOf 0x14 .none 0)
  | .powerOff => .opw (opwOf 0x15 .none 0)
  | .sleep => .opw (opwOf 0x16 .none 0)
  | .displayUpdate => .opw (opwOf 0x17 .none 0)
  | .beginFrame h => .opw (opwOf 0x20 h 0)
  | .writeLine h => .opw (opwOf 0x21 h 0)
  | .endFrame h => .opw (opwOf 0x22 h 0)
  | .fillLine k => .opw (opwOf 0x30 .none k)
  | .glyphIndex ch => .opw (opwOf 0x31 .none ch)
  | .glyphRow => .opw (opwOf 0x32 .none 0)
  | .stampGlyph => .opw (opwOf 0x33 .none 0)
  | .clear k => .opw (opwOf 0x40 .none k)
  | .splash => .opw (opwOf 0x41 .none 0)
  | .wireLineWrite => .panel 0x10
  | .wirePowerOn => .panel 0x04
  | .wireDataRefresh => .panel 0x12
  | .wirePowerOff => .panel 0x02
  | .wireDeepSleep => .panel 0x07

/-- The decoder of either encoding. -/
def decodeCode : Code → Except DecodeError Instr
  | .opw w => decode w
  | .panel b => decodePanel b

/-- The code that `nbits` bits of a row of spec/opcode_table.json stand for: a row of 8 bits is a
panel command byte, a longer one an operation word whose bits above `nbits` are 0. -/
def tableCode (nbits w : Nat) : Code :=
  if nbits ≤ 8 then .panel (BitVec.ofNat 8 w) else .opw (BitVec.ofNat 32 (w % 2 ^ nbits))

/-- The instruction read from an instruction whose bits are `w`, numbered as
spec/opcode_table.json numbers them. -/
def decodeTableWord (nbits w : Nat) : Option Instr :=
  match decodeCode (tableCode nbits w) with
  | .ok i => some i
  | .error _ => none

end Sys2Proof
end

