-- ==== Sys2Proof/Config.lean ====
section
/-! DEFINITION. What one instance of the block fixes (the OPEN parameters of
spec/00_scope.md R8) and the free values that the spec calls "any value"
(spec/93_implementation_defined.md U1, U2, U11). Nothing here has a value that a proof could use:
every OPEN parameter is a field of `Params`, carried by the state, and every free value is an
opaque constant. -/

namespace Sys2Proof

/-- A color code of VALID_COLORS = {0, 1, 2, 3, 5, 6} (R8). The constructor's number is the code;
codes 4 and 7 to 15 have no constructor. -/
inductive Color
  | c0 | c1 | c2 | c3 | c5 | c6
  deriving DecidableEq, Repr, Inhabited

/-- One entry of CONFIG_TABLE: a command byte, 0 to 255 payload bytes and the mark of the
master-only group (R59). -/
structure ConfigEntry where
  cmd : Byte
  payload : List Byte
  grp : Bool
  payload_short : payload.length ≤ 255
  deriving DecidableEq, Repr

/-- A non-negative rational `num / den`, the form of DELAY_TOL (R8). -/
structure Ratio where
  num : Nat
  den : ℕ+
  deriving DecidableEq, Repr, Inhabited

/-- The OPEN parameters of R8. Each constraint of the table stands in the type of its field. -/
structure Params where
  /-- TEXT_X0: absolute column of the first character, 0 ≤ TEXT_X0 < 1200. -/
  textX0 : Fin 1200
  /-- CHAR_PITCH: distance between consecutive character origins, at least 1. -/
  charPitch : ℕ+
  /-- BAND_COLOR[0..5]: each in VALID_COLORS. -/
  bandColor : Vector Color 6
  /-- GLYPH_ROM: 41 glyphs of 8 row bytes, any contents (R58). -/
  glyphRom : Vector (Vector Byte 8) 41
  /-- CONFIG_TABLE: the ordered configuration list, any contents (R59). -/
  configTable : List ConfigEntry
  /-- HAS_PWR: whether the panel power-enable output exists (R54, R270). -/
  hasPwr : Bool
  /-- BUSY_POLL_LIMIT: a positive integer, or `none` for ∞ (R234). -/
  busyPollLimit : Option ℕ+
  /-- DELAY_TOL: the allowed relative overrun of a delay (R114). -/
  delayTol : Ratio
  deriving DecidableEq, Repr, Inhabited

/-- The parameters of the machine after reset. OPEN in the spec (R8), so this constant has no body
(log entry 1). -/
opaque Config.params : Params

/-- U11: the level the panel answers at the n-th busy sample that no scripted sample covers
(R115; log entry 3). -/
opaque Config.busyLevel : Nat → Bool

/-- U1: the byte that a RAM cell holds from power-up number `boot` until it is first written, by
host offset (R60; log entry 2). -/
opaque Config.powerOnByte : (boot : Nat) → (offset : Nat) → Byte

/-- U2: the word returned by the n-th host read of LINEBUF, RESULT or LINECNT made while
STATUS.RUN = 1 (R120; log entry 4). -/
opaque Config.unstableRead : Nat → Word

end Sys2Proof
end

