-- ==== Sys2Proof/Machine/Constants.lean ====
section
/-! DEFINITION. The fixed parameters of spec/00_scope.md R8 and the timing literals of
spec/70_reset_and_hazards.md R464. -/

namespace Sys2Proof.Machine

/-- HALF_W: pixels of one half's scanline (R8). -/
def halfWidth : Nat := 600
/-- PANEL_H: scanlines (R8). -/
def panelHeight : Nat := 1600
/-- LINE_BYTES: bytes of one packed line (R8, R61). -/
def lineBytes : Nat := 300
/-- BAND_H = PANEL_H div 6 (R8, R373). -/
def bandHeight : Nat := 266
/-- TEXT_WIN_H (R8, R374). -/
def textWindowHeight : Nat := 64
/-- GLYPH_VSCALE (R8, R375; 90_conflicts.md C4; log entry 18). -/
def glyphVScale : Nat := 4
/-- GLYPH_HSCALE (R8, R339). -/
def glyphHScale : Nat := 4
/-- GLYPH_ROWS (R8). -/
def glyphRows : Nat := 8
/-- PAYLOAD_SIZE (R8): the longest payload of SEND_DATA and SEND_FRAMED. -/
def payloadSize : Nat := 256
/-- TEXT_MAX (R8): the longest text of a band. -/
def textMax : Nat := 64

/-- T_RST_PHASE, 30 ms: each phase of the reset train; empirically required, not tunable (R464). -/
def tRstPhase : Nat := 30
/-- T_POLL, 10 ms: after each busy sample that reads 0; not tunable (R464). -/
def tPoll : Nat := 10
/-- T_SETTLE, 20 ms: once after the ready sample; not tunable (R464). -/
def tSettle : Nat := 20
/-- T_PRE_REFRESH, 50 ms: the first event of refresh; not tunable (R464). -/
def tPreRefresh : Nat := 50
/-- T_SLEEP, 100 ms: after the sleep frame; not tunable (R464). -/
def tSleep : Nat := 100

/-- Host offset of PAYLOAD[0] (R42). -/
def payloadBase : Nat := 0x100
/-- Host offset of LINEBUF[0] (R42). -/
def linebufBase : Nat := 0x200
/-- Host offset of TEXT[0][0] (R42, R102). -/
def textBase : Nat := 0x400

/-- The value of the ID register, the ASCII codes of "S6FR" (R43). -/
def idValue : Word := 0x53364652

/-- The 4-bit code of a color (R8). -/
def colorNibble : Color → BitVec 4
  | .c0 => 0
  | .c1 => 1
  | .c2 => 2
  | .c3 => 3
  | .c5 => 5
  | .c6 => 6

/-- COLOR_BLACK = 0 (R8; general knowledge by the spec's own mark G1). -/
def colorBlack : Color := .c0
/-- COLOR_WHITE = 1 (R8; general knowledge by the spec's own mark G1). -/
def colorWhite : Color := .c1
/-- COLOR_YELLOW = 2 (R8; general knowledge by the spec's own mark G1). -/
def colorYellow : Color := .c2

/-- The other half (R15). -/
def otherHalf : Half → Half
  | .master => .slave
  | .slave => .master

/-- HALF_OFFSET (R8). -/
def halfOffset : Half → Nat
  | .master => 0
  | .slave => 600

end Sys2Proof.Machine
end

