-- ==== Sys2Proof/Machine/State.lean ====
section
/-! DEFINITION. The state of the machine as plain data (spec/10_state.md, spec/20_memory.md R100
and R110), the reasons a step can stop, and the state after a hardware reset (R62, R450). -/

namespace Sys2Proof.Machine

/-- A set of chip-select lines: M, S or MS (R13, R15). -/
inductive Lines
  | m | s | ms
  deriving DecidableEq, Repr

/-- The kind of a transmitted byte (R110). -/
inductive TxKind
  | cmd | data
  deriving DecidableEq, Repr

/-- An event of the wire trace (R110). A level is `true` for 1; a chip-select at 0 is asserted. -/
inductive Event
  | setCS (l : Lines) (lvl : Bool)
  | tx (kind : TxKind) (b : Byte) (csm css : Bool)
  | setRST (lvl : Bool)
  | setPWR (lvl : Bool)
  | delay (ms : Nat)
  | pollBusy (lvl : Bool)
  | wdtKick
  deriving DecidableEq, Repr

/-- LIFE, the panel lifecycle (R55). -/
inductive Life
  | unpowered | resetting | initialized | displaying | sleeping
  deriving DecidableEq, Repr

/-- The error codes 1 to 10 of R410. -/
inductive ErrCode
  | illegalOp | badOperand | sessionOpen | noSession | wrongHalf
  | wrongLength | badPixel | csConflict | handshakeTimeout | transportFailure
  deriving DecidableEq, Repr

/-- What a composer operation streams: LINEBUF as it stands (CLEAR, R370) or a rendered scanline
(SPLASH, R384). -/
inductive Picture
  | flat | splash
  deriving DecidableEq, Repr

/-- An assignment that an operation makes between two events. It belongs to the event before it,
since nothing can act within an event step (R432; log entry 6). -/
inductive Act
  /-- SESSION <- h; LINECNT <- 0 (R301). -/
  | openSession (h : Half)
  /-- SESSION <- None (R308). -/
  | closeSession
  /-- LINECNT <- (LINECNT + 1) mod 65536 (R306). -/
  | countLine
  /-- LIFE <- l (R55). -/
  | setLife (l : Life)
  deriving DecidableEq, Repr

/-- One item of the sequencer's remaining work. The list of them is the sequencer's position inside
the running operation (R48, R57). -/
inductive Micro
  /-- Decode OP and begin the operation (R49, R144). -/
  | start
  /-- emit SetCS(l, lvl). -/
  | setCS (l : Lines) (lvl : Bool)
  /-- emit Tx(kind, b, CS_M, CS_S). -/
  | tx (kind : TxKind) (b : Byte)
  /-- emit SetRST(lvl). -/
  | setRST (lvl : Bool)
  /-- emit SetPWR(lvl). -/
  | setPWR (lvl : Bool)
  /-- emit Delay(ms). -/
  | delay (ms : Nat)
  /-- Carry out the panel command whose command byte is b (R155 to R160). -/
  | wire (b : Byte)
  /-- wait_ready(): HCOUNT <- 0, then the loop (R231). -/
  | waitReady
  /-- The kick that begins an iteration of the loop (R233). -/
  | kick
  /-- The busy sample of an iteration and what follows from it (R231). -/
  | poll
  /-- Stream scanlines y .. 1599 of half h (R370, R384). -/
  | rows (pic : Picture) (h : Half) (y : Nat)
  /-- An assignment between two events. -/
  | act (a : Act)
  deriving DecidableEq, Repr

/-- An action of the host on its port, with the access width in bytes and the byte offset (R101,
R103), or the host pseudo-instruction WAITIDLE (R149). -/
inductive HostAction
  | read (width off : Nat)
  | write (width off : Nat) (w : Word)
  | waitIdle
  deriving DecidableEq, Repr

/-- Which agent moves next (R4, R432): the host, the sequencer, or the RESET_N input. -/
inductive Turn
  | host (a : HostAction)
  | sequencer
  | hardwareReset
  deriving DecidableEq, Repr

/-- The RAM bytes written since power-up, by host offset. Canonical form: offsets strictly rising
(`Memory.wf`); an offset that is not listed has not been written and reads as the free value
Config.powerOnByte (R60). -/
abbrev Memory := List Host.Cell

/-- The machine's state. -/
structure State where
  /-- The OPEN parameters of this instance; no step changes them (R8; log entry 1). -/
  cfg : Params
  /-- OP, offset 0x028: the last latched operation word (R49). -/
  op : Word
  /-- ARG0, offset 0x020 (R48). -/
  arg0 : Word
  /-- ARG1, offset 0x024 (R48). -/
  arg1 : Word
  /-- RESULT, offset 0x014 (R47). -/
  result : Word
  /-- LINECNT.COUNT, offset 0x018 bits 15:0 (R47, R306). -/
  linecnt : BitVec 16
  /-- ERRCODE.CODE, offset 0x00C bits 7:0; `none` is code 0 (R46, R410). -/
  errcode : Option ErrCode
  /-- ERROP, offset 0x010 (R46). -/
  errop : Word
  /-- TEXTLEN[b].LEN, offset 0x040 + 4b bits 7:0 (R51). -/
  textlen : Vector Byte 6
  /-- STATUS.RUN (R45). -/
  run : Bool
  /-- STATUS.ERR (R45). -/
  err : Bool
  /-- STATUS.OVR (R45, R50). -/
  ovr : Bool
  /-- SESSION: the open frame session (R52). -/
  session : Option Half
  /-- LIFE (R55). -/
  life : Life
  /-- CS_M: the driven level of CS_M_N, true = deasserted (R53). -/
  csM : Bool
  /-- CS_S: the driven level of CS_S_N, true = deasserted (R53). -/
  csS : Bool
  /-- RSTL: the driven level of RST_N (R54). -/
  rstl : Bool
  /-- PWRL: the driven level of PWR (R54). -/
  pwrl : Bool
  /-- BUSYS: the level of the most recent busy sample (R56). -/
  busys : Bool
  /-- The level last driven on DC: 0 for a command byte, 1 for a data byte (R40, R112; log entry
  11). -/
  dc : Bool
  /-- HCOUNT: busy samples that read 0 in the current wait (R56; outside one, log entry 10). -/
  hcount : Nat
  /-- PAYLOAD, LINEBUF and TEXT (R60, R102). -/
  mem : Memory
  /-- The sequencer's position: what is left of the running operation (R48, R57). -/
  seq : List Micro
  /-- The wire trace since the last hardware reset, oldest event first (R110, R450). -/
  trace : List Event
  /-- The model's own input: the moves that are still to come; when it is empty the sequencer moves
  (log entry 5). -/
  turns : List Turn
  /-- The model's own input: the panel's next busy levels; when it is empty a level is a free value
  (R115; log entry 3). -/
  busyIn : List Bool
  /-- The model's own output: the host's reads, offset and word, oldest first (log entry 5). -/
  hostReads : List (Nat × Word)
  /-- The model's own counter of free values drawn (log entries 3 and 4). -/
  draws : Nat
  /-- The model's own counter of power-ups, which selects the RAM contents (R60; log entry 2). -/
  boot : Nat
  deriving DecidableEq, Repr

/-- Why the machine stops with a fault. There is no such reason: every error of the block is a
state the host can read and clear (R423), and no behaviour of the spec stops it (log entry 16). -/
inductive Fault
  deriving DecidableEq, Repr

/-- Why a step has no meaning. -/
inductive Refusal
  /-- An instruction that exec does not model yet; raised by exec only. Safe. -/
  | notModelled (mnemonic : String)
  /-- A host access that is not 32 bits wide; raised by the host port. Safe: R103 gives it no
  meaning and has the model refuse it (log entry 13). -/
  | hostAccessWidth
  /-- A host access whose offset is not a multiple of 4; raised by the host port. Safe, as above. -/
  | hostAccessUnaligned
  /-- A host access outside 0x000..0xFFF; raised by the host port. Safe, as above. -/
  | hostAccessOutsideWindow
  deriving DecidableEq, Repr

/-- The outcome of a step of this machine. -/
abbrev Result := Host.Outcome State Fault Refusal

/-- The state right after a hardware reset: the values of R62, RAM contents any value (R60), an
empty trace (R450), the sequencer idle, and no input waiting. -/
def State.reset : State where
  cfg := Config.params
  op := 0
  arg0 := 0
  arg1 := 0
  result := 0
  linecnt := 0
  errcode := none
  errop := 0
  textlen := Vector.replicate 6 0
  run := false
  err := false
  ovr := false
  session := none
  life := .unpowered
  csM := true
  csS := true
  rstl := true
  pwrl := false
  busys := false
  dc := true
  hcount := 0
  mem := []
  seq := []
  trace := []
  turns := []
  busyIn := []
  hostReads := []
  draws := 0
  boot := 0

end Sys2Proof.Machine
end

