-- ==== Sys2Proof/Machine/Ops.lean ====
section
/-! DEFINITION. The named operations over the RAMs, the wire, the sequencer's position and the
error registers, which every meaning goes through. -/

namespace Sys2Proof.Machine

/-! ### RAM bytes (R60, R102) -/

/-- The host offsets that are RAM: PAYLOAD, LINEBUF and TEXT (R42). -/
def isRam (a : Nat) : Bool :=
  (0x100 ≤ a && a < 0x200) || (0x200 ≤ a && a < 0x32C) || (0x400 ≤ a && a < 0x580)

/-- The canonical form of a memory: offsets strictly rising, and only RAM offsets. -/
abbrev Memory.wf (m : Memory) : Prop :=
  m.Pairwise (fun x y => x.1 < y.1) ∧ ∀ c ∈ m, isRam c.1 = true

/-- The byte written at an offset, if one was. -/
def Memory.byte? (m : Memory) (a : Nat) : Option Byte :=
  (m.find? (fun c => c.1 == a)).map (fun c => c.2)

/-- The cells of a run of bytes that begins at an offset. -/
def cellsFrom : Nat → List Byte → Memory
  | _, [] => []
  | a, b :: bs => (a, b) :: cellsFrom (a + 1) bs

/-- Write a run of bytes, keeping the canonical form. -/
def Memory.writeBytes (m : Memory) (a : Nat) (bs : List Byte) : Memory :=
  m.filter (fun c => decide (c.1 < a)) ++ cellsFrom a bs ++
    m.filter (fun c => decide (a + bs.length ≤ c.1))

namespace State

/-- The byte a RAM cell holds: the byte last written, or the free value it came up with (R60). -/
def ram (s : State) (a : Nat) : Byte :=
  (s.mem.byte? a).getD (Config.powerOnByte s.boot a)

/-- MemRead(A, i, n) at host offset `a`: n bytes in index order (R12). -/
def ramBytes (s : State) : (a n : Nat) → List Byte
  | _, 0 => []
  | a, n + 1 => s.ram a :: s.ramBytes (a + 1) n

/-- MemWrite at host offset `a` (R12). -/
def writeRam (s : State) (a : Nat) (bs : List Byte) : State :=
  { s with mem := s.mem.writeBytes a bs }

/-- The 300 bytes of LINEBUF, byte 0 first (R61). -/
def linebuf (s : State) : List Byte := s.ramBytes linebufBase lineBytes

/-- The first n bytes of PAYLOAD (R207). -/
def payload (s : State) (n : Nat) : List Byte := s.ramBytes payloadBase n

/-- TEXT[b][0 .. TEXTLEN[b] - 1] (R102, R380). -/
def text (s : State) (b : Fin 6) : List Byte :=
  s.ramBytes (textBase + 64 * b.val) (s.textlen[b.val]).toNat

/-- CS(h): the level of the chip-select line of half h (R15). -/
def cs (s : State) : Half → Bool
  | .master => s.csM
  | .slave => s.csS

/-- CS_M = 0 or CS_S = 0 (R250, R420, R451). -/
def anySelected (s : State) : Bool := !s.csM || !s.csS

/-! ### The wire (R110 to R116) -/

/-- Append one event to the trace and make the state change of its row in R110. Only these rows
change the driven levels (R53, R54). -/
def emit (e : Event) (s : State) : State :=
  match e with
  | .setCS .m v => { s with csM := v, trace := s.trace ++ [e] }
  | .setCS .s v => { s with csS := v, trace := s.trace ++ [e] }
  | .setCS .ms v => { s with csM := v, csS := v, trace := s.trace ++ [e] }
  | .tx .cmd _ _ _ => { s with dc := false, trace := s.trace ++ [e] }
  | .tx .data _ _ _ => { s with dc := true, trace := s.trace ++ [e] }
  | .setRST v => { s with rstl := v, trace := s.trace ++ [e] }
  | .setPWR v => { s with pwrl := v, trace := s.trace ++ [e] }
  | .delay _ => { s with trace := s.trace ++ [e] }
  | .pollBusy v => { s with busys := v, trace := s.trace ++ [e] }
  | .wdtKick => { s with trace := s.trace ++ [e] }

/-- emit SetCS(MS, 1), made only when a chip-select is asserted (R420, R451). -/
def deselectAll (s : State) : State :=
  if s.anySelected then s.emit (.setCS .ms true) else s

/-- The level the panel answers to the next sample, and the state in which it has been drawn: the
next scripted level, or a free value (R115, R13). -/
def sampleBusy (s : State) : Bool × State :=
  match s.busyIn with
  | l :: r => (l, { s with busyIn := r })
  | [] => (Config.busyLevel s.draws, { s with draws := s.draws + 1 })

/-! ### The sequencer's position (R57) -/

/-- The state with another position. -/
def withSeq (s : State) (q : List Micro) : State := { s with seq := q }

/-- The state with other turns to come. -/
def withTurns (s : State) (ts : List Turn) : State := { s with turns := ts }

/-- An assignment between two events. -/
def applyAct (a : Act) (s : State) : State :=
  match a with
  | .openSession h => { s with session := some h, linecnt := 0 }
  | .closeSession => { s with session := none }
  | .countLine => { s with linecnt := s.linecnt + 1 }
  | .setLife l => { s with life := l }

/-- Make the assignments that stand before the next event and leave the rest as the position. -/
def settle : List Micro → State → State
  | .act a :: rest, s => settle rest (applyAct a s)
  | rest, s => s.withSeq rest

/-- Begin the event list of an operation: nothing is left of an earlier position (R57). -/
def load (prog : List Micro) (s : State) : State := s.settle prog

/-- `complete`: the operation ends normally, STATUS.RUN <- 0, and the position is discarded
(R14, R57). -/
def complete (s : State) : State := { s with run := false, seq := [] }

/-! ### Errors (R420, R425, R426) -/

/-- Taking an error: the error entry of R420. -/
def errorEntry (code : ErrCode) (s : State) : State :=
  { s.deselectAll with
    session := none, errcode := some code, errop := s.op, err := true, run := false, seq := [] }

/-- Return from an error: ERR_CLR (R425). -/
def errClear (s : State) : State := { s with err := false, errcode := none, errop := 0 }

/-- OVR_CLR (R426). -/
def ovrClear (s : State) : State := { s with ovr := false }

end State

/-- `raise E(code)` (R14, R420). -/
def raiseError (code : ErrCode) (s : State) : Result := .next (s.errorEntry code)

/-- `frame_both(c, p)` (R271). -/
def frameBoth (c : Byte) (p : List Byte) : List Micro :=
  .setCS .ms false :: .tx .cmd c :: p.map (.tx .data) ++ [.setCS .ms true]

end Sys2Proof.Machine
end

