-- ==== Sys2Proof/Machine/Operands.lean ====
section
/-! DEFINITION. Every operand form of an operation: the target field (R141), the fields of ARG0 and
ARG1 (R143, R151) and the color operand (R152). -/

namespace Sys2Proof.Machine

/-- A target as the chip-select lines it addresses; none is not a target (R15, R141). -/
def linesOf? : Tgt → Option Lines
  | .none => none
  | .master => some .m
  | .slave => some .s
  | .both => some .ms

/-- A target as a half; none and Both are not halves (R141). -/
def halfOf? : Tgt → Option Half
  | .none => none
  | .master => some .master
  | .slave => some .slave
  | .both => none

/-- lines(h) (R15). -/
def halfLines : Half → Lines
  | .master => .m
  | .slave => .s

/-- The color whose code a byte is, if it is in VALID_COLORS (R8, R152). -/
def colorOf? (k : Byte) : Option Color :=
  match k.toNat with
  | 0 => some .c0
  | 1 => some .c1
  | 2 => some .c2
  | 3 => some .c3
  | 5 => some .c5
  | 6 => some .c6
  | _ => none

/-- LEN of SEND_DATA and SEND_FRAMED: ARG0[8:0] at most 256 and ARG0[31:9] zero; `none` otherwise
(R143, R152). -/
def payloadLen? (arg0 : Word) : Option Nat :=
  if (arg0.extractLsb' 9 23) = 0 ∧ (arg0.extractLsb' 0 9).toNat ≤ payloadSize then
    some (arg0.extractLsb' 0 9).toNat
  else none

/-- LEN of WRITE_LINE: ARG0[15:0], with ARG0[31:16] zero; `none` otherwise (R143). -/
def lineLen? (arg0 : Word) : Option Nat :=
  if arg0.extractLsb' 16 16 = 0 then some (arg0.extractLsb' 0 16).toNat else none

/-- INDEX and ROW of GLYPH_ROW: ARG1[7:0] at most 40, ARG1[15:8] at most 7, ARG1[31:16] zero;
`none` otherwise (R143, R338). -/
def glyphRowOperands? (arg1 : Word) : Option (Fin 41 × Fin 8) :=
  if arg1.extractLsb' 16 16 = 0 then
    if hg : (arg1.extractLsb' 0 8).toNat < 41 then
      if hr : (arg1.extractLsb' 8 8).toNat < 8 then
        some (⟨(arg1.extractLsb' 0 8).toNat, hg⟩, ⟨(arg1.extractLsb' 8 8).toNat, hr⟩)
      else none
    else none
  else none

/-- The operands of STAMP_GLYPH (R143, R151). -/
structure StampOperands where
  /-- OX, sign-extended. -/
  ox : Int
  /-- WL, at most 600. -/
  wl : Nat
  /-- BITS, the glyph row byte. -/
  bits : Byte
  /-- COLOR, a code of VALID_COLORS. -/
  color : Color
  deriving DecidableEq, Repr

/-- The operands of STAMP_GLYPH; `none` when WL > 600, COLOR ∉ VALID_COLORS or ARG1[31:16] is not
zero (R152, R340). -/
def stampOperands? (arg0 arg1 : Word) : Option StampOperands :=
  if (arg0.extractLsb' 16 16).toNat ≤ halfWidth ∧ arg1.extractLsb' 16 16 = 0 then
    match colorOf? (arg1.extractLsb' 8 8) with
    | none => none
    | some k =>
      some { ox := (arg0.extractLsb' 0 16).toInt, wl := (arg0.extractLsb' 16 16).toNat,
             bits := arg1.extractLsb' 0 8, color := k }
  else none

/-- Every TEXTLEN[b] is at most 64 (R51, R152). -/
def textlensOk (s : State) : Bool := s.textlen.toList.all (fun n => decide (n.toNat ≤ textMax))

end Sys2Proof.Machine
end

