-- ==== Sys2Proof/Machine/Raster.lean ====
section
/-! DEFINITION. The glyph rasterizer and line-buffer operations (spec/44_raster.md). None of them
emits an event. -/

namespace Sys2Proof.Machine

/-- The packed fill byte of a color (R331). -/
def fillByte (k : Color) : Byte := colorNibble k ++ colorNibble k

/-- Fill LINEBUF with one color (R332, R386). -/
def fillLinebuf (k : Color) (s : State) : State :=
  s.writeRam linebufBase (List.replicate lineBytes (fillByte k))

/-- The byte with its high nibble (even pixel) or its low nibble (odd pixel) replaced (R330). -/
def withNibble (x : Nat) (k : BitVec 4) (b : Byte) : Byte :=
  if x % 2 = 0 then k ++ b.extractLsb' 0 4 else b.extractLsb' 4 4 ++ k

/-- `set_nibble(x, k)`: read-modify-write of one LINEBUF byte (R330). -/
def setNibble (k : Color) (s : State) (x : Nat) : State :=
  s.writeRam (linebufBase + x / 2)
    [withNibble x (colorNibble k) (s.ram (linebufBase + x / 2))]

/-- The four pixels of glyph column c of a stamp at origin ox that lie in [0, wl) (R339, R344). -/
def columnPixels (ox : Int) (wl : Nat) (c : Nat) : List Nat :=
  (List.range glyphHScale).filterMap fun i =>
    let x : Int := ox + (glyphHScale * c + i : Nat)
    if 0 ≤ x ∧ x < wl then some x.toNat else none

/-- The pixels that a stamp paints, in the order it paints them: the columns whose bit is set, bit
0 leftmost (R339, R341, R343). -/
def stampPixels (ox : Int) (wl : Nat) (bits : Byte) : List Nat :=
  (List.range 8).flatMap fun c => if bits.getLsbD c then columnPixels ox wl c else []

/-- `stamp(ox, wl, bits, k)` (R339). -/
def stamp (ox : Int) (wl : Nat) (bits : Byte) (k : Color) (s : State) : State :=
  (stampPixels ox wl bits).foldl (setNibble k) s

/-- `glyph_index(ch)` (R333). -/
def glyphIndexOf (ch : Byte) : Fin 41 :=
  let n := ch.toNat
  if h : 0x30 ≤ n ∧ n ≤ 0x39 then ⟨n - 0x30, by omega⟩
  else if h : 0x41 ≤ n ∧ n ≤ 0x5A then ⟨n - 0x41 + 10, by omega⟩
  else if h : 0x61 ≤ n ∧ n ≤ 0x7A then ⟨n - 0x61 + 10, by omega⟩
  else if n = 0x2E then 37
  else if n = 0x3A then 38
  else if n = 0x2D then 39
  else if n = 0x25 then 40
  else 36

/-- GLYPH_ROM[g][r] (R58). -/
def glyphByte (s : State) (g : Fin 41) (r : Fin 8) : Byte := (s.cfg.glyphRom[g.val])[r.val]

/-- FILL_LINE k (R332). -/
def execFillLine (k : Byte) (s : State) : Result :=
  match colorOf? k with
  | none => raiseError .badOperand s
  | some c => .next (fillLinebuf c s).complete

/-- GLYPH_INDEX ch (R336). -/
def execGlyphIndex (ch : Byte) (s : State) : Result :=
  .next { s with result := BitVec.ofNat 32 (glyphIndexOf ch).val }.complete

/-- GLYPH_ROW g, r (R338). -/
def execGlyphRow (s : State) : Result :=
  match glyphRowOperands? s.arg1 with
  | none => raiseError .badOperand s
  | some (g, r) => .next { s with result := (glyphByte s g r).setWidth 32 }.complete

/-- STAMP_GLYPH ox, wl, bits, k (R340). -/
def execStampGlyph (s : State) : Result :=
  match stampOperands? s.arg0 s.arg1 with
  | none => raiseError .badOperand s
  | some o => .next (stamp o.ox o.wl o.bits o.color s).complete

end Sys2Proof.Machine
end

