-- ==== Sys2Proof/Machine/Sequencer.lean ====
section
/-! DEFINITION. The init/power sequencer operations (spec/42_sequencer.md). -/

namespace Sys2Proof.Machine

/-- `seq_checks()` (R250), then `ok`. -/
def seqChecked (s : State) (ok : Result) : Result :=
  if s.session.isSome then raiseError .sessionOpen s
  else if s.anySelected then raiseError .csConflict s
  else ok

/-- An operation of spec/42_sequencer.md: the checks, then its event list. -/
def seqOp (prog : List Micro) (s : State) : Result := seqChecked s (.next (s.load prog))

/-- `reset_train()` (R251, R253). -/
def resetTrain : List Micro :=
  [.setRST true, .delay tRstPhase, .setRST false, .delay tRstPhase, .setRST true, .delay tRstPhase,
   .setRST false, .delay tRstPhase, .setRST true, .delay tRstPhase]

/-- The bytes of one configuration entry, sent under an assertion that already stands (R254). -/
def entryBytes (e : ConfigEntry) : List Micro := .tx .cmd e.cmd :: e.payload.map (.tx .data)

/-- `configure()` from a point of CONFIG_TABLE that is inside a master-only group or not (R254). -/
def configureFrom : (inGroup : Bool) → List ConfigEntry → List Micro
  | false, [] => []
  | true, [] => [.setCS .m true]
  | false, e :: es =>
    if e.grp then .setCS .m false :: (entryBytes e ++ configureFrom true es)
    else frameBoth e.cmd e.payload ++ configureFrom false es
  | true, e :: es =>
    if e.grp then entryBytes e ++ configureFrom true es
    else .setCS .m true :: (frameBoth e.cmd e.payload ++ configureFrom false es)

/-- `configure()` (R254). -/
def configureProg (s : State) : List Micro := configureFrom false s.cfg.configTable

/-- `power_on()`: the power-on command and its wait (R258, R157). -/
def powerOnProg : List Micro := [.wire 0x04]

/-- `refresh()`: the pre-refresh delay, the data-refresh command with its wait, and the power-off
command without one (R260, R261). -/
def refreshProg : List Micro := [.delay tPreRefresh, .wire 0x12, .wire 0x02]

/-- RESET (R251, R252). -/
def execReset (s : State) : Result := seqOp (.act (.setLife .resetting) :: resetTrain) s

/-- CONFIGURE (R254, R255). -/
def execConfigure (s : State) : Result :=
  seqOp (configureProg s ++ [.act (.setLife .initialized)]) s

/-- INIT (R256, R257, R270). -/
def execInit (s : State) : Result :=
  seqOp ((if s.cfg.hasPwr then [.setPWR true] else []) ++ .act (.setLife .resetting) :: resetTrain ++
    configureProg s ++ [.act (.setLife .initialized)]) s

/-- POWER_ON (R258, R259). -/
def execPowerOn (s : State) : Result := seqOp powerOnProg s

/-- REFRESH (R260, R262). -/
def execRefresh (s : State) : Result := seqOp (refreshProg ++ [.act (.setLife .displaying)]) s

/-- POWER_OFF (R264). -/
def execPowerOff (s : State) : Result := seqOp [.wire 0x02] s

/-- SLEEP (R266, R267). -/
def execSleep (s : State) : Result := seqOp [.wire 0x07, .act (.setLife .sleeping)] s

/-- DISPLAY_UPDATE (R268). -/
def execDisplayUpdate (s : State) : Result :=
  seqOp (powerOnProg ++ refreshProg ++ [.act (.setLife .displaying)]) s

end Sys2Proof.Machine
end

