-- ==== Sys2Proof/Machine/Streamer.lean ====
section
/-! DEFINITION. The dual-half line streamer operations (spec/43_streamer.md). -/

namespace Sys2Proof.Machine

/-- A 4-bit value that is a color code of VALID_COLORS (R8). -/
def isColorNibble (k : BitVec 4) : Bool :=
  k == 0 || k == 1 || k == 2 || k == 3 || k == 5 || k == 6

/-- Both nibbles of a line byte are color codes (R305). -/
def validPixelPair (b : Byte) : Bool :=
  isColorNibble (b.extractLsb' 4 4) && isColorNibble (b.extractLsb' 0 4)

/-- Every nibble of LINEBUF is a color code (R305). -/
def linebufValid (s : State) : Bool := s.linebuf.all validPixelPair

/-- The opening of a frame session of half h: the other half deselected first, then the half
selected, the line-write command, and the session opened (R301). -/
def openFrameProg (h : Half) : List Micro :=
  [.setCS (halfLines (otherHalf h)) true, .setCS (halfLines h) false, .wire 0x10,
   .act (.openSession h)]

/-- The closing of a frame session of half h (R308). -/
def closeFrameProg (h : Half) : List Micro := [.setCS (halfLines h) true, .act .closeSession]

/-- The bytes of LINEBUF, byte 0 first, and the line counted (R304, R306). -/
def lineProg (s : State) : List Micro := s.linebuf.map (.tx .data) ++ [.act .countLine]

/-- BEGIN_FRAME h (R301). -/
def execBeginFrame (t : Tgt) (s : State) : Result :=
  match halfOf? t with
  | none => raiseError .badOperand s
  | some h =>
    if s.session.isSome then raiseError .sessionOpen s
    else .next (s.load (openFrameProg h))

/-- WRITE_LINE h, n (R304): the checks in their order; n = 0 completes before the session is looked
at; a line is sent whole or not at all. -/
def execWriteLine (t : Tgt) (s : State) : Result :=
  match halfOf? t, lineLen? s.arg0 with
  | none, _ => raiseError .badOperand s
  | some _, none => raiseError .badOperand s
  | some h, some n =>
    if n = 0 then .next s.complete
    else if s.session = none then raiseError .noSession s
    else if s.session ≠ some h then raiseError .wrongHalf s
    else if n ≠ lineBytes then raiseError .wrongLength s
    else if !linebufValid s then raiseError .badPixel s
    else .next (s.load (lineProg s))

/-- END_FRAME h (R308). -/
def execEndFrame (t : Tgt) (s : State) : Result :=
  match halfOf? t with
  | none => raiseError .badOperand s
  | some h =>
    if s.session = none then raiseError .noSession s
    else if s.session ≠ some h then raiseError .wrongHalf s
    else .next (s.load (closeFrameProg h))

end Sys2Proof.Machine
end

