-- ==== Sys2Proof/Machine/Composer.lean ====
section
/-! DEFINITION. The clear and boot-splash composer operations (spec/45_composer.md). -/

namespace Sys2Proof.Machine

/-- band(y) = min(y div 266, 5) (R373). -/
def bandOf (y : Nat) : Fin 6 := ⟨min (y / bandHeight) 5, by omega⟩

/-- start(b) (R373). -/
def bandStart (b : Fin 6) : Nat := bandHeight * b.val

/-- height(b): 266, and 270 for band 5 (R373). -/
def bandRows (b : Fin 6) : Nat :=
  if b.val = 5 then panelHeight - 5 * bandHeight else bandHeight

/-- top(b): the first scanline of the band's text window (R374). -/
def windowTop (b : Fin 6) : Nat := bandStart b + (bandRows b - textWindowHeight) / 2

/-- The glyph row that scanline y shows: the row inside the text window of its band, if it is one
of the 8 rows of a glyph (R374, R375). -/
def textRowOf (y : Nat) : Option (Fin 8) :=
  let top := windowTop (bandOf y)
  if top ≤ y ∧ y < top + textWindowHeight then
    let r := (y - top) / glyphVScale
    if h : r < 8 then some ⟨r, h⟩ else none
  else none

/-- BAND_COLOR[b] (R376). -/
def bandColorOf (s : State) (b : Fin 6) : Color := s.cfg.bandColor[b.val]

/-- text_color(bg): black on white and yellow, white on every other background (R376). -/
def textColor (bg : Color) : Color :=
  if bg = colorWhite ∨ bg = colorYellow then colorBlack else colorWhite

/-- X(k): the absolute origin of character k (R377). -/
def charOrigin (s : State) (k : Nat) : Nat := s.cfg.textX0.val + k * (s.cfg.charPitch : Nat)

/-- Stamp the text of band b on glyph row r of half h: every character at its absolute origin
shifted by the half's offset, with width limit 600 (R378, R386). -/
def stampText (h : Half) (b : Fin 6) (r : Fin 8) (k : Color) (s : State) : State :=
  (s.text b).zipIdx.foldl
    (fun t c => stamp ((charOrigin s c.2 : Int) - halfOffset h) halfWidth
      (glyphByte s (glyphIndexOf c.1) r) k t) s

/-- `render_line(h, y)`: LINEBUF is scanline y of half h (R386). -/
def renderLine (h : Half) (y : Nat) (s : State) : State :=
  let b := bandOf y
  let bg := bandColorOf s b
  let s1 := fillLinebuf bg s
  match textRowOf y with
  | none => s1
  | some r => stampText h b r (textColor bg) s1

/-- One frame session of half h with its 1600 scanlines (R370, R384). -/
def frameProg (pic : Picture) (h : Half) : List Micro :=
  openFrameProg h ++ .rows pic h 0 :: closeFrameProg h

/-- Both halves, Master first, then the display update (R370, R384, R372). -/
def composeProg (pic : Picture) : List Micro :=
  frameProg pic .master ++ frameProg pic .slave ++ powerOnProg ++ refreshProg ++
    [.act (.setLife .displaying)]

/-- Scanlines y .. 1599 of half h: scanline y is rendered if the picture is the splash, its 300
bytes are sent and counted, and the next scanline follows. -/
def rowsStep (pic : Picture) (h : Half) (y : Nat) (s : State) : State :=
  if y < panelHeight then
    let s1 :=
      match pic with
      | .flat => s
      | .splash => renderLine h y s
    s1.withSeq (lineProg s1 ++ .rows pic h (y + 1) :: s.seq)
  else s.settle s.seq

/-- CLEAR k (R370). -/
def execClear (k : Byte) (s : State) : Result :=
  match colorOf? k with
  | none => raiseError .badOperand s
  | some c => seqChecked s (.next ((fillLinebuf c s).load (composeProg .flat)))

/-- SPLASH (R384). -/
def execSplash (s : State) : Result :=
  if textlensOk s then seqChecked s (.next (s.load (composeProg .splash)))
  else raiseError .badOperand s

end Sys2Proof.Machine
end

