-- ==== Sys2Proof/Machine/Framer.lean ====
section
/-! DEFINITION. NOP and the command framer operations (spec/40_framer.md). -/

namespace Sys2Proof.Machine

/-- The other half's chip-select is asserted; never a conflict for Both (R201, R203). -/
def csConflict (l : Lines) (s : State) : Bool :=
  match l with
  | .m => !s.csS
  | .s => !s.csM
  | .ms => false

/-- The checks of R200 in their order, then the event list of the operation for its lines and its
operand. `arg` is `none` where an operand check of R152 fails. -/
def framerOp {α : Type} (t : Tgt) (arg : Option α) (prog : Lines → α → List Micro) (s : State) :
    Result :=
  match linesOf? t, arg with
  | none, _ => raiseError .badOperand s
  | some _, none => raiseError .badOperand s
  | some l, some a =>
    if s.session.isSome then raiseError .sessionOpen s
    else if csConflict l s then raiseError .csConflict s
    else .next (s.load (prog l a))

/-- NOP (R202). -/
def execNop (s : State) : Result := .next s.complete

/-- SELECT t (R204). -/
def execSelect (t : Tgt) (s : State) : Result :=
  framerOp t (some ()) (fun l _ => [.setCS l false]) s

/-- DESELECT t (R205): the checks of R200 without the conflict check. -/
def execDeselect (t : Tgt) (s : State) : Result :=
  match linesOf? t with
  | none => raiseError .badOperand s
  | some l =>
    if s.session.isSome then raiseError .sessionOpen s
    else .next (s.load [.setCS l true])

/-- SEND_CMD t, c (R206). -/
def execSendCmd (t : Tgt) (c : Byte) (s : State) : Result :=
  framerOp t (some ()) (fun l _ => [.setCS l false, .tx .cmd c]) s

/-- SEND_DATA t, n with the first n bytes of PAYLOAD (R207). The payload is read when the operation
starts; it cannot change while it runs (R50, R120). -/
def execSendData (t : Tgt) (s : State) : Result :=
  framerOp t (payloadLen? s.arg0) (fun l n => .setCS l false :: (s.payload n).map (.tx .data)) s

/-- SEND_FRAMED t, c, n (R208). -/
def execSendFramed (t : Tgt) (c : Byte) (s : State) : Result :=
  framerOp t (payloadLen? s.arg0)
    (fun l n => .setCS l false :: .tx .cmd c :: (s.payload n).map (.tx .data)) s

end Sys2Proof.Machine
end

