-- ==== Sys2Proof/Machine/Handshake.lean ====
section
/-! DEFINITION. The busy-line handshake: the procedure wait_ready, one event a step, and the
operation WAIT_READY (spec/41_handshake.md). Each step takes the state whose position is what
follows the item being carried out. -/

namespace Sys2Proof.Machine

/-- HCOUNT has reached BUSY_POLL_LIMIT; never when the limit is ∞ (R231, R234). -/
def pollLimitReached (s : State) : Bool :=
  match s.cfg.busyPollLimit with
  | none => false
  | some n => decide ((n : Nat) ≤ s.hcount)

/-- HCOUNT <- 0 (R231). -/
def State.clearPolls (s : State) : State := { s with hcount := 0 }

/-- The start of a wait: HCOUNT <- 0, then the first iteration (R231). -/
def beginWait (s : State) : State := s.clearPolls.withSeq (.kick :: s.seq)

/-- The kick that begins an iteration (R233). -/
def kickStep (s : State) : State := (s.emit .wdtKick).withSeq (.poll :: s.seq)

/-- HCOUNT <- HCOUNT + 1 (R231). -/
def State.countPoll (s : State) : State := { s with hcount := s.hcount + 1 }

/-- What follows from the level of a busy sample: leave the loop on 1, else count, time out or wait
and go round again (R231, R232, R234). -/
def pollAnswer (lvl : Bool) (s : State) : State :=
  let s1 := s.emit (.pollBusy lvl)
  if lvl then s1.withSeq (.delay tSettle :: s.seq)
  else if pollLimitReached s1.countPoll then s1.countPoll.errorEntry .handshakeTimeout
  else s1.countPoll.withSeq (.delay tPoll :: .kick :: s.seq)

/-- The busy sample of an iteration (R231). -/
def pollStep (s : State) : State := pollAnswer s.sampleBusy.1 s.sampleBusy.2

/-- WAIT_READY (R235). -/
def execWaitReady (s : State) : Result :=
  if s.session.isSome then raiseError .sessionOpen s
  else .next (s.load [.waitReady])

end Sys2Proof.Machine
end

