-- ==== Sys2Proof/Machine/Panel.lean ====
section
/-! DEFINITION. The panel commands (spec/30_encoding.md R155 to R160): what the sequencer puts on
the wire when its event list reaches the command byte (log entry 8). Each meaning puts its events
before what is left of the running operation. -/

namespace Sys2Proof.Machine

/-- Put items before what is left of the running operation. -/
def State.prepend (prog : List Micro) (s : State) : State := s.withSeq (prog ++ s.seq)

/-- WIRE_LINE_WRITE: command byte 0x10, no payload, under the chip-select that its operation has
asserted (R156, R301). -/
def execWireLineWrite (s : State) : Result := .next (s.prepend [.tx .cmd 0x10])

/-- WIRE_POWER_ON: 0x04 framed to both, then a busy wait (R157). -/
def execWirePowerOn (s : State) : Result :=
  .next (s.prepend (frameBoth 0x04 [] ++ [.waitReady]))

/-- WIRE_DATA_REFRESH: 0x12 with payload 0x00 framed to both, then a busy wait (R158). -/
def execWireDataRefresh (s : State) : Result :=
  .next (s.prepend (frameBoth 0x12 [0x00] ++ [.waitReady]))

/-- WIRE_POWER_OFF: 0x02 with payload 0x00 framed to both, and no wait (R159, R261). -/
def execWirePowerOff (s : State) : Result := .next (s.prepend (frameBoth 0x02 [0x00]))

/-- WIRE_DEEP_SLEEP: 0x07 with payload 0xA5 framed to both, then a 100 ms delay (R160). -/
def execWireDeepSleep (s : State) : Result :=
  .next (s.prepend (frameBoth 0x07 [0xA5] ++ [.delay tSleep]))

end Sys2Proof.Machine
end

