-- ==== Sys2Proof/Machine/Dispatch.lean ====
section
/-! DEFINITION. The dispatch: one arm per constructor of Instr. -/

namespace Sys2Proof.Machine

def exec (i : Instr) (s : State) : Host.Outcome State Fault Refusal :=
  match i with
  | .nop => Sys2Proof.Machine.execNop s
  | .select t => Sys2Proof.Machine.execSelect t s
  | .deselect t => Sys2Proof.Machine.execDeselect t s
  | .sendCmd t c => Sys2Proof.Machine.execSendCmd t c s
  | .sendData t => Sys2Proof.Machine.execSendData t s
  | .sendFramed t c => Sys2Proof.Machine.execSendFramed t c s
  | .waitReady => Sys2Proof.Machine.execWaitReady s
  | .reset => Sys2Proof.Machine.execReset s
  | .configure => Sys2Proof.Machine.execConfigure s
  | .init => Sys2Proof.Machine.execInit s
  | .powerOn => Sys2Proof.Machine.execPowerOn s
  | .refresh => Sys2Proof.Machine.execRefresh s
  | .powerOff => Sys2Proof.Machine.execPowerOff s
  | .sleep => Sys2Proof.Machine.execSleep s
  | .displayUpdate => Sys2Proof.Machine.execDisplayUpdate s
  | .beginFrame h => Sys2Proof.Machine.execBeginFrame h s
  | .writeLine h => Sys2Proof.Machine.execWriteLine h s
  | .endFrame h => Sys2Proof.Machine.execEndFrame h s
  | .fillLine k => Sys2Proof.Machine.execFillLine k s
  | .glyphIndex ch => Sys2Proof.Machine.execGlyphIndex ch s
  | .glyphRow => Sys2Proof.Machine.execGlyphRow s
  | .stampGlyph => Sys2Proof.Machine.execStampGlyph s
  | .clear k => Sys2Proof.Machine.execClear k s
  | .splash => Sys2Proof.Machine.execSplash s
  -- the panel commands, run when the sequencer's event list reaches their command byte
  | .wireLineWrite => Sys2Proof.Machine.execWireLineWrite s
  | .wirePowerOn => Sys2Proof.Machine.execWirePowerOn s
  | .wireDataRefresh => Sys2Proof.Machine.execWireDataRefresh s
  | .wirePowerOff => Sys2Proof.Machine.execWirePowerOff s
  | .wireDeepSleep => Sys2Proof.Machine.execWireDeepSleep s

end Sys2Proof.Machine
end

