-- ==== Sys2Proof/Machine/Flags.lean ====
section
/-! DEFINITION. The words of the host-visible status and error registers
(spec/10_state.md R45, R46, R55; spec/60_exceptions.md R410). -/

namespace Sys2Proof.Machine

/-- STATUS.SESSION: 0b00 none, 0b01 Master, 0b10 Slave (R45). -/
def sessionBits : Option Half → BitVec 2
  | none => 0
  | some .master => 1
  | some .slave => 2

/-- STATUS.LIFE (R55). -/
def lifeBits : Life → BitVec 3
  | .unpowered => 0
  | .resetting => 1
  | .initialized => 2
  | .displaying => 3
  | .sleeping => 4

/-- The number of an error code (R410). -/
def errByte : ErrCode → Byte
  | .illegalOp => 1
  | .badOperand => 2
  | .sessionOpen => 3
  | .noSession => 4
  | .wrongHalf => 5
  | .wrongLength => 6
  | .badPixel => 7
  | .csConflict => 8
  | .handshakeTimeout => 9
  | .transportFailure => 10

/-- STATUS as the host reads it: 31:17 zero, BUSYS, PWRL, RSTL, CSS, CSM, 0, LIFE, 00, SESSION, 0,
OVR, ERR, RUN (R45). -/
def statusWord (s : State) : Word :=
  0#15 ++ BitVec.ofBool s.busys ++ BitVec.ofBool s.pwrl ++ BitVec.ofBool s.rstl ++
    BitVec.ofBool s.csS ++ BitVec.ofBool s.csM ++ 0#1 ++ lifeBits s.life ++ 0#2 ++
    sessionBits s.session ++ 0#1 ++ BitVec.ofBool s.ovr ++ BitVec.ofBool s.err ++
    BitVec.ofBool s.run

/-- ERRCODE as the host reads it: CODE in bits 7:0, 0 when no error is recorded (R46). -/
def errcodeWord (s : State) : Word :=
  match s.errcode with
  | none => 0
  | some c => (errByte c).setWidth 32

/-- LINECNT as the host reads it: COUNT in bits 15:0 (R47). -/
def linecntWord (s : State) : Word := s.linecnt.setWidth 32

end Sys2Proof.Machine
end

