-- ==== Sys2Proof/Machine/HostPort.lean ====
section
/-! DEFINITION. The host port: the register map, reads and writes (spec/10_state.md R42 to R51,
spec/20_memory.md R101 to R106), the CTRL actions and the two resets (spec/60_exceptions.md R425,
R426; spec/70_reset_and_hazards.md R450, R451). -/

namespace Sys2Proof.Machine

/-- What a word-aligned offset of the host window holds (R42). -/
inductive HostReg
  | id | ctrl | status | errcode | errop | result | linecnt | arg0 | arg1 | op
  | textlen (b : Fin 6)
  | ram (a : Nat)
  | reserved
  deriving DecidableEq, Repr

/-- The register map (R42). -/
def hostReg (off : Nat) : HostReg :=
  if off = 0x000 then .id
  else if off = 0x004 then .ctrl
  else if off = 0x008 then .status
  else if off = 0x00C then .errcode
  else if off = 0x010 then .errop
  else if off = 0x014 then .result
  else if off = 0x018 then .linecnt
  else if off = 0x020 then .arg0
  else if off = 0x024 then .arg1
  else if off = 0x028 then .op
  else if h : 0x040 ≤ off ∧ off < 0x058 then .textlen ⟨(off - 0x040) / 4, by omega⟩
  else if isRam off then .ram off
  else .reserved

/-- An access that the interface defines: 32 bits, word-aligned, inside the window; otherwise the
refusal of R103. -/
def accessRefusal (width off : Nat) : Option Refusal :=
  if width ≠ 4 then some .hostAccessWidth
  else if off % 4 ≠ 0 then some .hostAccessUnaligned
  else if 0x1000 ≤ off then some .hostAccessOutsideWindow
  else none

/-- The RAM word at an offset, little-endian (R102). -/
def ramWord (s : State) (a : Nat) : Word :=
  s.ram (a + 3) ++ s.ram (a + 2) ++ s.ram (a + 1) ++ s.ram a

/-- The four bytes of a word, least significant first (R102). -/
def wordBytes (w : Word) : List Byte :=
  [w.extractLsb' 0 8, w.extractLsb' 8 8, w.extractLsb' 16 8, w.extractLsb' 24 8]

/-- A register whose value a host read does not get while an operation runs: LINEBUF, RESULT and
LINECNT (R120). -/
def unstableWhileRunning : HostReg → Bool
  | .result => true
  | .linecnt => true
  | .ram a => decide (0x200 ≤ a ∧ a < 0x32C)
  | _ => false

/-- The value of a register or RAM word (R42 to R51, R102, R105). -/
def regValue (r : HostReg) (s : State) : Word :=
  match r with
  | .id => idValue
  | .ctrl => 0
  | .status => statusWord s
  | .errcode => errcodeWord s
  | .errop => s.errop
  | .result => s.result
  | .linecnt => linecntWord s
  | .arg0 => s.arg0
  | .arg1 => s.arg1
  | .op => s.op
  | .textlen b => (s.textlen[b.val]).setWidth 32
  | .ram a => ramWord s a
  | .reserved => 0

/-- A host read: the word it returns is the model's output; nothing else changes but the count of
free values drawn (R106, R120). -/
def hostRead (off : Nat) (s : State) : State :=
  if s.run && unstableWhileRunning (hostReg off) then
    { s with hostReads := s.hostReads ++ [(off, Config.unstableRead s.draws)], draws := s.draws + 1 }
  else { s with hostReads := s.hostReads ++ [(off, regValue (hostReg off) s)] }

/-- SOFT_RESET (R451). It keeps the RAMs, PWRL and LIFE. DC and HCOUNT take their reset values too
(log entries 9 and 10), and its events are one step (log entry 15). -/
def softReset (s : State) : State :=
  let s1 := s.deselectAll
  let s2 := if s1.rstl then s1 else s1.emit (.setRST true)
  { s2 with
    session := none, op := 0, arg0 := 0, arg1 := 0, result := 0, linecnt := 0, errcode := none,
    errop := 0, textlen := Vector.replicate 6 0, run := false, err := false, ovr := false,
    busys := false, dc := true, hcount := 0, seq := [] }

/-- A write to CTRL: SOFT_RESET alone if bit 0 is set, else ERR_CLR and OVR_CLR as bits 1 and 2 say
(R44, R425, R426). -/
def ctrlWrite (w : Word) (s : State) : State :=
  if w.getLsbD 0 then softReset s
  else
    let s1 := if w.getLsbD 1 then s.errClear else s
    if w.getLsbD 2 then s1.ovrClear else s1

/-- A write that is dropped: nothing changes but STATUS.OVR (R50). -/
def dropWrite (s : State) : State := { s with ovr := true }

/-- A write to OP that is accepted: the word is latched and the operation starts (R49). -/
def opWrite (w : Word) (s : State) : State := { s with op := w, run := true, seq := [.start] }

/-- A host write (R42 to R51, R105, R106). -/
def hostWrite (off : Nat) (w : Word) (s : State) : State :=
  match hostReg off with
  | .id => s
  | .ctrl => ctrlWrite w s
  | .status => s
  | .errcode => s
  | .errop => s
  | .result => s
  | .linecnt => s
  | .arg0 => if s.run then dropWrite s else { s with arg0 := w }
  | .arg1 => if s.run then dropWrite s else { s with arg1 := w }
  | .op => if s.run || s.err then dropWrite s else opWrite w s
  | .textlen b =>
    if s.run then dropWrite s
    else { s with textlen := s.textlen.set b.val (w.extractLsb' 0 8) }
  | .ram a => if s.run then dropWrite s else s.writeRam a (wordBytes w)
  | .reserved => s

/-- Hardware reset: the state of R62; the RAMs come up with new free values; the trace restarts
empty; parameters, inputs and the host's own record are not the block's (R450; log entry 12). -/
def hardwareReset (s : State) : State :=
  { State.reset with
    cfg := s.cfg, turns := s.turns, busyIn := s.busyIn, hostReads := s.hostReads,
    draws := s.draws, boot := s.boot + 1 }

/-- An action of the host, in the state in which it has been taken off the turns. WAITIDLE is taken
off only when the block is idle (R149). -/
def hostTurn (a : HostAction) (s : State) : Result :=
  match a with
  | .read width off =>
    match accessRefusal width off with
    | some r => .refused r
    | none => .next (hostRead off s)
  | .write width off w =>
    match accessRefusal width off with
    | some r => .refused r
    | none => .next (hostWrite off w s)
  | .waitIdle => .next s

end Sys2Proof.Machine
end

