-- ==== Sys2Proof/Machine/Micro.lean ====
section
/-! DEFINITION. One item of the sequencer's position carried out: one event of the trace with the
assignments that stand before the next one (spec/20_memory.md R110, spec/60_exceptions.md R432; log
entry 6). -/

namespace Sys2Proof.Machine

/-- Emit an event, then make the assignments before the next event. `s.seq` is what follows the
item that emits. -/
def emitStep (e : Event) (s : State) : State := (s.emit e).settle s.seq

/-- Carry out the item `m` in the state whose position is what follows `m`. The items `start` and
`wire` run an instruction and are carried out by the step function; here they are passed over. -/
def microStep (m : Micro) (s : State) : State :=
  match m with
  | .start => s
  | .setCS l v => emitStep (.setCS l v) s
  | .tx k b => emitStep (.tx k b s.csM s.csS) s
  | .setRST v => emitStep (.setRST v) s
  | .setPWR v => emitStep (.setPWR v) s
  | .delay ms => emitStep (.delay ms) s
  | .wire _ => s
  | .waitReady => beginWait s
  | .kick => kickStep s
  | .poll => pollStep s
  | .rows pic h y => rowsStep pic h y s
  | .act a => (s.applyAct a).settle s.seq

end Sys2Proof.Machine
end

