-- ==== Sys2Proof/Machine/Turns.lean ====
section
/-! DEFINITION. The moves of the three agents (spec/00_scope.md R4, spec/20_memory.md R120,
spec/60_exceptions.md R432), and how the next instruction is taken up. -/

namespace Sys2Proof.Machine

/-- One move of the sequencer. Idle, it does nothing; with nothing left to do it completes the
operation (R14); otherwise it carries out the first item of its position. An operation word is
decoded first, and one that decodes to nothing raises ILLEGAL_OP (R144); a command byte that is no
panel command has no meaning to the block, which just sends it (R162). -/
def sequencerTurn (s : State) : Result :=
  if s.run then
    match s.seq with
    | [] => .next s.complete
    | .start :: rest =>
      match decode s.op with
      | .ok i => exec i (s.withSeq rest)
      | .error _ => raiseError .illegalOp (s.withSeq rest)
    | .wire b :: rest =>
      match decodePanel b with
      | .ok i => exec i (s.withSeq rest)
      | .error _ => .next (microStep (.tx .cmd b) (s.withSeq rest))
    | m :: rest => .next (microStep m (s.withSeq rest))
  else .next s

/-- The first of the coming turns is taken, or, when there is none, the sequencer moves. WAITIDLE
lets the sequencer move until the block is idle (R149). -/
def takeTurn (s : State) : Result :=
  match s.turns with
  | [] => sequencerTurn s
  | .sequencer :: rest => sequencerTurn (s.withTurns rest)
  | .hardwareReset :: rest => .next (hardwareReset (s.withTurns rest))
  | .host .waitIdle :: rest =>
    if s.run then sequencerTurn s else hostTurn .waitIdle (s.withTurns rest)
  | .host a :: rest => hostTurn a (s.withTurns rest)

/-- The state in which the instruction whose code is `c` is the very next thing to run: an operation
word stands latched in OP with the operation started, as after an OP write (R49); a panel command
byte stands first in the sequencer's position (log entry 7). -/
def State.placeCode (s : State) (c : Code) : State :=
  match c with
  | .opw v => { s with op := v, run := true, seq := [.start], turns := .sequencer :: s.turns }
  | .panel b => { s with run := true, seq := [.wire b], turns := .sequencer :: s.turns }

end Sys2Proof.Machine
end

