-- ==== Sys2Proof/Machine/Step.lean ====
section
/-! DEFINITION. One step of the machine, and where the next instruction is placed. -/

namespace Sys2Proof.Machine

/-- One step: one move of one agent (R432). -/
def step (s : State) : Host.Outcome State Fault Refusal := takeTurn s

/-- The state in which the instruction whose table bits are `w` is the very next thing that step
runs (log entry 7). -/
def State.withFetchWord (s : State) (nbits w : Nat) : State := s.placeCode (tableCode nbits w)

end Sys2Proof.Machine
end

