-- ==== Sys2Proof/Machine/Assembler.lean ====
section
/-! DEFINITION. Host programs: the assembler lines of spec/30_encoding.md R149, their expansion to
host actions (R150), and the band texts that the host composes for the boot splash
(spec/45_composer.md R390, R391). -/

namespace Sys2Proof.Machine

/-- `W offset, value` (R149). -/
def hostW (off : Nat) (w : Word) : Turn := .host (.write 4 off w)

/-- `R offset` (R149). -/
def hostR (off : Nat) : Turn := .host (.read 4 off)

/-- A line of a host program (R149, R150). Operand names are those of R149. -/
inductive HostLine
  | wr (off : Nat) (v : Word)
  | rd (off : Nat)
  | waitIdle
  /-- An operation that reads no operand word. -/
  | plain (i : Instr)
  | sendData (t : Tgt) (n : Nat)
  | sendFramed (t : Tgt) (c : Byte) (n : Nat)
  | writeLine (h : Tgt) (n : Nat)
  | glyphRow (g r : Byte)
  | stampGlyph (ox : Int) (wl : Nat) (bits k : Byte)
  | loadPayload (bs : List Byte)
  | loadLine (bs : List Byte)
  | loadText (b : Fin 6) (cs : List Byte)
  | frame (t : Tgt) (c : Byte) (bs : List Byte)
  | clrErr
  | clrOvr
  | sReset
  deriving DecidableEq, Repr

/-- Bytes packed little-endian into words, the unused bytes of the last word 0 (R102, R150). -/
def packWords : List Byte → List Word
  | [] => []
  | [a] => [0#24 ++ a]
  | [a, b] => [0#16 ++ b ++ a]
  | [a, b, c] => [0#8 ++ c ++ b ++ a]
  | a :: b :: c :: d :: rest => (d ++ c ++ b ++ a) :: packWords rest

/-- Writes of consecutive words from an offset. -/
def writeWords : Nat → List Word → List Turn
  | _, [] => []
  | off, w :: ws => hostW off w :: writeWords (off + 4) ws

/-- `W 0x028, OPW; WAITIDLE` (R150). A panel command byte is not issued by a host. -/
def issue (i : Instr) : List Turn :=
  match encode i with
  | .opw w => [hostW 0x028 w, .host .waitIdle]
  | .panel _ => []

/-- The host actions of a line (R150). -/
def HostLine.expand : HostLine → List Turn
  | .wr off v => [hostW off v]
  | .rd off => [hostR off]
  | .waitIdle => [.host .waitIdle]
  | .plain i => issue i
  | .sendData t n => hostW 0x020 (BitVec.ofNat 32 n) :: issue (.sendData t)
  | .sendFramed t c n => hostW 0x020 (BitVec.ofNat 32 n) :: issue (.sendFramed t c)
  | .writeLine h n => hostW 0x020 (BitVec.ofNat 32 n) :: issue (.writeLine h)
  | .glyphRow g r => hostW 0x024 (0#16 ++ r ++ g) :: issue .glyphRow
  | .stampGlyph ox wl bits k =>
    hostW 0x020 (BitVec.ofNat 16 wl ++ BitVec.ofInt 16 ox) ::
      hostW 0x024 (0#16 ++ k ++ bits) :: issue .stampGlyph
  | .loadPayload bs => writeWords 0x100 (packWords bs)
  | .loadLine bs => writeWords 0x200 (packWords bs)
  | .loadText b cs =>
    writeWords (0x400 + 64 * b.val) (packWords cs) ++
      [hostW (0x040 + 4 * b.val) (BitVec.ofNat 32 cs.length)]
  | .frame t c bs =>
    writeWords 0x100 (packWords bs) ++ hostW 0x020 (BitVec.ofNat 32 bs.length) ::
      (issue (.sendFramed t c) ++ issue (.deselect t))
  | .clrErr => [hostW 0x004 0x2]
  | .clrOvr => [hostW 0x004 0x4]
  | .sReset => [hostW 0x004 0x1]

/-- The host actions of a program. -/
def assemble (p : List HostLine) : List Turn := p.flatMap HostLine.expand

/-! ### The host's band texts (R390 to R392) -/

/-- Characters as bytes (ASCII). -/
def asciiOf (cs : List Char) : List Byte := cs.map fun c => BitVec.ofNat 8 c.toNat

/-- Put the decimal digits of n before `acc`, with `fuel` digits at most. -/
def decimalOnto : (fuel n : Nat) → (acc : List Byte) → List Byte
  | 0, _, acc => acc
  | fuel + 1, n, acc =>
    let d := BitVec.ofNat 8 (0x30 + n % 10) :: acc
    if n / 10 = 0 then d else decimalOnto fuel (n / 10) d

/-- decimal(n) (R390). -/
def decimalOf (n : Nat) : List Byte := decimalOnto (n + 1) n []

/-- An ASCII letter in upper case (R390). -/
def upperByte (b : Byte) : Byte := if 0x61 ≤ b.toNat ∧ b.toNat ≤ 0x7A then b - 0x20 else b

/-- TEXT[1]: the connection's address and port, or the offline notice (R390). -/
def bandText1 (net : Option (List Byte × Nat)) : List Byte :=
  match net with
  | some (address, port) =>
    asciiOf ['I', 'P', ':', ' '] ++ address ++ asciiOf [' ', 'P', 'O', 'R', 'T', ':', ' '] ++
      decimalOf port
  | none =>
    asciiOf ['N', 'O', ' ', 'W', 'I', 'F', 'I', ' ', 'C', 'O', 'N', 'N', 'E', 'C', 'T', 'I', 'O',
      'N']

/-- TEXT[2]: the access point, or the offline notice (R390). -/
def bandText2 (connected : Bool) (accessPoint : List Byte) : List Byte :=
  if connected then asciiOf ['W', 'I', 'F', 'I', ':', ' '] ++ accessPoint.map upperByte
  else asciiOf ['O', 'F', 'F', 'L', 'I', 'N', 'E', ' ', 'M', 'O', 'D', 'E']

/-- TEXT[3]: the voltage text and percent, or the USB notice; how the voltage text is computed is
outside the block (R391, R6 (e)). -/
def bandText3 (battery : Option (List Byte × Nat)) : List Byte :=
  match battery with
  | some (volts, pct) =>
    asciiOf ['B', 'A', 'T', 'T', 'E', 'R', 'Y', ':', ' '] ++ volts ++ asciiOf ['V', ' ', '('] ++
      decimalOf pct ++ asciiOf ['%', ')']
  | none => asciiOf ['U', 'S', 'B', ' ', 'P', 'O', 'W', 'E', 'R']

/-- The host program of showBootSplash, with the texts of bands 0, 4 and 5 as host input (R390 to
R392). -/
def showBootSplash (identity band4 band5 : List Byte) (net : Option (List Byte × Nat))
    (accessPoint : List Byte) (battery : Option (List Byte × Nat)) : List HostLine :=
  [ .loadText 0 identity, .loadText 1 (bandText1 net), .loadText 2 (bandText2 net.isSome accessPoint),
    .loadText 3 (bandText3 battery), .loadText 4 band4, .loadText 5 band5, .plain .splash ]

end Sys2Proof.Machine
end

