-- ==== Sys2Proof/Machine/Observation.lean ====
section
/-! DEFINITION. What an observer reads off the wire: the pin levels during a byte (spec/20_memory.md
R112), the duration of a delay (R114) and the image a half has received (R126). -/

namespace Sys2Proof.Machine

/-- The level of DC during a byte of this kind (R112, by the spec's own mark G2). -/
def dcLevel : TxKind → Bool
  | .cmd => false
  | .data => true

/-- The bits of a byte in the order MOSI shifts them, most significant first (R112, by the spec's
own mark G3). -/
def mosiBits (b : Byte) : List Bool := (List.range 8).map fun i => b.getLsbD (7 - i)

/-- A wait of `t` milliseconds is one that Delay(ms) allows: at least ms, at most
ms × (1 + DELAY_TOL) (R114, R465). -/
def delayAllows (p : Params) (ms : Nat) (t : ℚ) : Prop :=
  (ms : ℚ) ≤ t ∧ t ≤ ms * (1 + (p.delayTol.num : ℚ) / ((p.delayTol.den : Nat) : ℚ))

/-- The chip-select of half h during a byte. -/
def csDuring (h : Half) (csm css : Bool) : Bool :=
  match h with
  | .master => csm
  | .slave => css

/-- What half h has collected so far: the bytes since its last line-write command, newest first,
and whether a later data byte still belongs to them. -/
structure Collected where
  bytes : Option (List Byte)
  more : Bool
  deriving DecidableEq, Repr

/-- One event of the trace as half h takes it (R126). -/
def collect (h : Half) (acc : Collected) (e : Event) : Collected :=
  match e with
  | .tx .cmd b csm css =>
    if csDuring h csm css then acc
    else if b = 0x10 ∧ csDuring (otherHalf h) csm css = true then ⟨some [], true⟩
    else { acc with more := false }
  | .tx .data b csm css =>
    if csDuring h csm css then acc
    else if acc.more then { acc with bytes := acc.bytes.map (b :: ·) }
    else acc
  | _ => acc

/-- D: the data bytes after the last line-write command of half h, if there was one (R126). -/
def receivedBytes (h : Half) (tr : List Event) : Option (List Byte) :=
  (tr.foldl (collect h) ⟨none, false⟩).bytes.map List.reverse

/-- Pixel (y, x) of the received image of half h; `none` where the image is undefined (R126). R126
gives pixels for y < 1600 and x < 600 only and says nothing of other coordinates; that they give
`none` is the model's choice (DESIGN CHOICE, log entry 19). -/
def receivedPixel (h : Half) (tr : List Event) (y x : Nat) : Option (BitVec 4) :=
  match receivedBytes h tr with
  | none => none
  | some d =>
    if d.length = panelHeight * lineBytes ∧ y < panelHeight ∧ x < halfWidth then
      (d[lineBytes * y + x / 2]?).map fun b =>
        if x % 2 = 0 then b.extractLsb' 4 4 else b.extractLsb' 0 4
    else none

/-- Absolute pixel (y, X) of the panel (R126). The columns end at 1200 (R104); that X beyond them, and
y beyond 1599, give `none` is the model's choice (DESIGN CHOICE, log entry 19). -/
def panelPixel (tr : List Event) (y X : Nat) : Option (BitVec 4) :=
  if X < halfWidth then receivedPixel .master tr y X
  else receivedPixel .slave tr y (X - halfOffset .slave)

end Sys2Proof.Machine
end

