-- ==== Sys2Proof/Safety.lean ====
section
/-! DEFINITION. The terms in which claims speak: the invariant of the machine, the levels that a
trace leaves on the pins, the event lists of the spec's procedures, and running to an end. -/

namespace Sys2Proof.Machine

/-! ### The invariant -/

/-- R302: in a session of half h, CS(h) = 0 and CS(other(h)) = 1. -/
def sessionExclusive (ses : Option Half) (csM csS : Bool) : Bool :=
  match ses with
  | none => true
  | some .master => !csM && csS
  | some .slave => csM && !csS

/-- The levels that SetCS(l, v) leaves (R111). -/
def levelsAfter (l : Lines) (v : Bool) (csM csS : Bool) : Bool × Bool :=
  match l with
  | .m => (v, csS)
  | .s => (csM, v)
  | .ms => (v, v)

/-- The delays of R464; there is no other. -/
def isTimingLiteral (ms : Nat) : Bool := ms == 30 || ms == 10 || ms == 20 || ms == 50 || ms == 100

/-- The position, begun in a session and at chip-select levels, keeps the rules of the wire: R302
wherever the machine can rest, a chip-select asserted during every byte (R112), no power event
without a power pin (R54), no delay but those of R464. -/
def seqKeepsRules (pwr : Bool) : (ses : Option Half) → (csM csS : Bool) → List Micro → Bool
  | ses, m, c, [] => sessionExclusive ses m c
  | ses, m, c, .start :: rest => sessionExclusive ses m c && rest.isEmpty
  | ses, m, c, .setCS l v :: rest =>
    sessionExclusive ses m c &&
      seqKeepsRules pwr ses (levelsAfter l v m c).1 (levelsAfter l v m c).2 rest
  | ses, m, c, .tx _ _ :: rest =>
    sessionExclusive ses m c && (!m || !c) && seqKeepsRules pwr ses m c rest
  | ses, m, c, .setRST _ :: rest => sessionExclusive ses m c && seqKeepsRules pwr ses m c rest
  | ses, m, c, .setPWR _ :: rest => sessionExclusive ses m c && pwr && seqKeepsRules pwr ses m c rest
  | ses, m, c, .delay ms :: rest =>
    sessionExclusive ses m c && isTimingLiteral ms && seqKeepsRules pwr ses m c rest
  | ses, m, c, .wire b :: rest =>
    if b = 0x04 ∨ b = 0x12 ∨ b = 0x02 ∨ b = 0x07 then
      ses.isNone && seqKeepsRules pwr none true true rest
    else sessionExclusive ses m c && (!m || !c) && seqKeepsRules pwr ses m c rest
  | ses, m, c, .waitReady :: rest => sessionExclusive ses m c && seqKeepsRules pwr ses m c rest
  | ses, m, c, .kick :: rest => sessionExclusive ses m c && seqKeepsRules pwr ses m c rest
  | ses, m, c, .poll :: rest => sessionExclusive ses m c && seqKeepsRules pwr ses m c rest
  | ses, m, c, .rows _ h _ :: rest =>
    sessionExclusive ses m c && (ses == some h) && seqKeepsRules pwr ses m c rest
  | _, m, c, .act (.openSession h) :: rest => seqKeepsRules pwr (some h) m c rest
  | _, m, c, .act .closeSession :: rest => seqKeepsRules pwr none m c rest
  | ses, m, c, .act .countLine :: rest => seqKeepsRules pwr ses m c rest
  | ses, m, c, .act (.setLife _) :: rest => seqKeepsRules pwr ses m c rest

/-- What every event of a trace obeys (R112, R54, R464). -/
def eventKeepsRules (pwr : Bool) : Event → Bool
  | .tx _ _ csm css => !csm || !css
  | .setPWR _ => pwr
  | .delay ms => isTimingLiteral ms
  | _ => true

/-- The invariant of the machine. -/
structure MachineInv (s : State) : Prop where
  /-- The RAMs are in canonical form. -/
  mem_wf : s.mem.wf
  /-- Between operations nothing is left to do (R57). -/
  idle_position : s.run = false → s.seq = []
  /-- The rest of the running operation keeps the rules of the wire; R302 holds now. -/
  position : seqKeepsRules s.cfg.hasPwr s.session s.csM s.csS s.seq = true
  /-- R302 at this very state. -/
  session_exclusive : sessionExclusive s.session s.csM s.csS = true
  /-- No operation runs while an error stands (R423, R427). -/
  err_idle : s.err = true → s.run = false
  /-- An error code is recorded exactly while STATUS.ERR = 1 (R46, R412). -/
  err_code : s.err = s.errcode.isSome
  /-- ERROP is 0 when no error is recorded (R46). -/
  err_op : s.err = false → s.errop = 0
  /-- TRANSPORT_FAILURE is never recorded (R209, R410). -/
  never_transport : s.errcode ≠ some .transportFailure
  /-- PWR stays 0 without a power pin (R54). -/
  power : s.pwrl = true → s.cfg.hasPwr = true
  /-- Every event of the trace keeps the rules of the wire. -/
  events : ∀ e ∈ s.trace, eventKeepsRules s.cfg.hasPwr e = true

/-! ### The pins as the trace leaves them (R53, R54, R110) -/

/-- The driven levels of CS_M_N, CS_S_N, RST_N and PWR. -/
structure Pins where
  csM : Bool
  csS : Bool
  rst : Bool
  pwr : Bool
  deriving DecidableEq, Repr

/-- The levels after an event: only SetCS, SetRST and SetPWR change one (R111, R113). -/
def Pins.after (p : Pins) : Event → Pins
  | .setCS .m v => { p with csM := v }
  | .setCS .s v => { p with csS := v }
  | .setCS .ms v => { p with csM := v, csS := v }
  | .setRST v => { p with rst := v }
  | .setPWR v => { p with pwr := v }
  | _ => p

/-- The levels of a reset (R62), changed by every event of the trace in turn. -/
def Pins.ofTrace (tr : List Event) : Pins := tr.foldl Pins.after ⟨true, true, true, false⟩

/-- The driven levels are those that the trace leaves. -/
def PinsFollowTrace (s : State) : Prop := (⟨s.csM, s.csS, s.rstl, s.pwrl⟩ : Pins) = .ofTrace s.trace

/-! ### Event lists of the spec's procedures -/

/-- Whether the line set l holds the chip-select of half h (R13). -/
def Lines.has : Lines → Half → Bool
  | .m, .master => true
  | .s, .slave => true
  | .ms, _ => true
  | _, _ => false

/-- The events of frame_both(c, p) (R271). -/
def frameBothEvents (c : Byte) (p : List Byte) : List Event :=
  [.setCS .ms false, .tx .cmd c false false] ++ p.map (fun b => .tx .data b false false) ++
    [.setCS .ms true]

/-- The events of wait_ready() when the panel answers 0 k times and then 1 (R231, R232). -/
def waitEvents (k : Nat) : List Event :=
  (List.replicate k [.wdtKick, .pollBusy false, .delay 10]).flatten ++
    [.wdtKick, .pollBusy true, .delay 20]

/-- The events of power_on() with k busy answers (R258). -/
def powerOnEvents (k : Nat) : List Event := frameBothEvents 0x04 [] ++ waitEvents k

/-- The events of refresh() with k busy answers (R260). -/
def refreshEvents (k : Nat) : List Event :=
  .delay 50 :: frameBothEvents 0x12 [0x00] ++ waitEvents k ++ frameBothEvents 0x02 [0x00]

/-- The ten events of reset_train() (R251). -/
def resetTrainEvents : List Event :=
  [.setRST true, .delay 30, .setRST false, .delay 30, .setRST true, .delay 30,
   .setRST false, .delay 30, .setRST true, .delay 30]

/-- The bytes of a configuration entry under a master-only assertion (R254). -/
def groupedEntryEvents (e : ConfigEntry) : List Event :=
  .tx .cmd e.cmd false true :: e.payload.map (fun b => .tx .data b false true)

/-- The events of configure(): the table cut into runs of equal grp; an ungrouped entry is framed
to both, and a run of grouped entries is sent under one master-only assertion (R254). -/
def configureEvents (table : List ConfigEntry) : List Event :=
  (table.splitBy (fun a b => a.grp == b.grp)).flatMap fun run =>
    if run.any (·.grp) then
      [.setCS .m false] ++ run.flatMap groupedEntryEvents ++ [.setCS .m true]
    else run.flatMap fun e => frameBothEvents e.cmd e.payload

/-- The events of one frame session of half h that carries the bytes d (R301, R304, R308). -/
def sessionEvents (h : Half) (d : List Byte) : List Event :=
  match h with
  | .master =>
    [.setCS .s true, .setCS .m false, .tx .cmd 0x10 false true] ++
      d.map (fun b => .tx .data b false true) ++ [.setCS .m true]
  | .slave =>
    [.setCS .m true, .setCS .s false, .tx .cmd 0x10 true false] ++
      d.map (fun b => .tx .data b true false) ++ [.setCS .s true]

/-- The bytes that SPLASH streams to half h: its 1600 rendered scanlines in order, each as LINEBUF
holds it (R384, R386). -/
def splashBytes (s : State) (h : Half) : List Byte :=
  (List.range panelHeight).flatMap fun y => (renderLine h y s).linebuf

/-- The panel answers the next wait with 0 k times and then 1, and the wait does not time out
before (R231, R234). -/
def answersAfter (s : State) (k : Nat) (rest : List Bool) : Prop :=
  s.busyIn = List.replicate k false ++ true :: rest ∧
    ∀ n : ℕ+, s.cfg.busyPollLimit = some n → k < n

/-- The next move is one of the sequencer: no turn is listed, its own turn comes, or the host waits
for it under WAITIDLE (R149). An idle block then stays as it is but for the turn that is taken. -/
def sequencerIsNext (s : State) : Prop :=
  s.turns = [] ∨ (∃ ts, s.turns = .sequencer :: ts) ∨ ∃ ts, s.turns = .host .waitIdle :: ts

/-- A busy sample can read `lvl` and leave the state t: the level is the next of the scripted list,
which loses it, or, when the list is empty, a free value, which is counted (R115; log entry 3). -/
def sampleGives (s : State) (lvl : Bool) (t : State) : Prop :=
  (∃ bs, s.busyIn = lvl :: bs ∧ t = { s with busyIn := bs }) ∨
  (s.busyIn = [] ∧ lvl = Config.busyLevel s.draws ∧ t = { s with draws := s.draws + 1 })

/-- Nothing but the sequencer moves, and an operation is running: the state in which an operation
begun here is carried through to its end. -/
def undisturbed (s : State) : Prop := s.run = true ∧ s.turns = []

/-- The errors that the checks of an operation can raise (R411, less ILLEGAL_OP, which decoding
raises, and HANDSHAKE_TIMEOUT, which a busy wait raises). -/
def checkErrors : Instr → List ErrCode
  | .nop => []
  | .select _ => [.badOperand, .sessionOpen, .csConflict]
  | .deselect _ => [.badOperand, .sessionOpen]
  | .sendCmd _ _ => [.badOperand, .sessionOpen, .csConflict]
  | .sendData _ => [.badOperand, .sessionOpen, .csConflict]
  | .sendFramed _ _ => [.badOperand, .sessionOpen, .csConflict]
  | .waitReady => [.sessionOpen]
  | .reset => [.sessionOpen, .csConflict]
  | .configure => [.sessionOpen, .csConflict]
  | .init => [.sessionOpen, .csConflict]
  | .powerOn => [.sessionOpen, .csConflict]
  | .refresh => [.sessionOpen, .csConflict]
  | .powerOff => [.sessionOpen, .csConflict]
  | .sleep => [.sessionOpen, .csConflict]
  | .displayUpdate => [.sessionOpen, .csConflict]
  | .beginFrame _ => [.badOperand, .sessionOpen]
  | .writeLine _ => [.badOperand, .noSession, .wrongHalf, .wrongLength, .badPixel]
  | .endFrame _ => [.badOperand, .noSession, .wrongHalf]
  | .fillLine _ => [.badOperand]
  | .glyphIndex _ => []
  | .glyphRow => [.badOperand]
  | .stampGlyph => [.badOperand]
  | .clear _ => [.badOperand, .sessionOpen, .csConflict]
  | .splash => [.badOperand, .sessionOpen, .csConflict]
  | .wireLineWrite => []
  | .wirePowerOn => []
  | .wireDataRefresh => []
  | .wirePowerOff => []
  | .wireDeepSleep => []

/-- The operations accepted while a session is open (R300). -/
def sessionAdmits : Instr → Bool
  | .nop => true
  | .writeLine _ => true
  | .endFrame _ => true
  | .fillLine _ => true
  | .glyphIndex _ => true
  | .glyphRow => true
  | .stampGlyph => true
  | _ => false

/-- The operations of a host, as against the panel commands (R2). -/
def isOperation : Instr → Bool
  | .wireLineWrite => false
  | .wirePowerOn => false
  | .wireDataRefresh => false
  | .wirePowerOff => false
  | .wireDeepSleep => false
  | _ => true

/-- Whether a stamp at origin ox, width limit wl and row byte bits paints pixel x: x lies in
[0, wl) and in the four pixels of a column whose bit is set, bit 0 leftmost (R339, R341, R344). -/
def stampCovers (ox : Int) (wl : Nat) (bits : Byte) (x : Nat) : Prop :=
  x < wl ∧ ∃ c : Nat, c < 8 ∧ bits.getLsbD c = true ∧ ox + 4 * c ≤ x ∧ (x : Int) < ox + 4 * c + 4

/-- Whether absolute pixel (y, X) belongs to a character of its band's text: scanline y is in the
first 32 of the window, at glyph row (y - top) div 4, and the row byte of a character whose 32
pixels hold X has the bit of X (R387). -/
def textCovers (s : State) (y X : Nat) : Prop :=
  windowTop (bandOf y) ≤ y ∧
  ∃ r : Fin 8, (y - windowTop (bandOf y)) / 4 = r.val ∧
  ∃ k ch, (s.text (bandOf y))[k]? = some ch ∧ charOrigin s k ≤ X ∧ X < charOrigin s k + 32 ∧
    (glyphByte s (glyphIndexOf ch) r).getLsbD ((X - charOrigin s k) / 4) = true

/-- n steps lead from s to u. -/
def RunsTo (n : Nat) (s u : State) : Prop := Host.Core.run Sys2Proof.core n s = .next u

/-! ### Pixels of LINEBUF -/

/-- The color code of local pixel x of LINEBUF: the high nibble of byte x div 2 when x is even, the
low one when x is odd (R61). -/
def linePixel (s : State) (x : Nat) : BitVec 4 :=
  if x % 2 = 0 then (s.ram (linebufBase + x / 2)).extractLsb' 4 4
  else (s.ram (linebufBase + x / 2)).extractLsb' 0 4

end Sys2Proof.Machine
end

