-- ==== Sys2Proof/WellFormed.lean ====
section
/-! DEFINITION. Which instructions the assembler syntax of spec/30_encoding.md R149 can write: a
target of a framer operation is M, S or BOTH, a half of a streamer operation is M or S (R141), and
a color operand is a code of VALID_COLORS (R8). The decoder also gives the ill-formed ones, since
R152 makes them a BAD_OPERAND of the operation and not an illegal encoding. -/

namespace Sys2Proof

/-- A framer target: Master, Slave or Both (R141). -/
def Tgt.isTarget : Tgt → Bool
  | .none => false
  | .master => true
  | .slave => true
  | .both => true

/-- A streamer target: Master or Slave (R141). -/
def Tgt.isHalf : Tgt → Bool
  | .none => false
  | .master => true
  | .slave => true
  | .both => false

/-- A byte that is a color code of VALID_COLORS (R8). -/
def isColorCode (k : Byte) : Bool :=
  k == 0 || k == 1 || k == 2 || k == 3 || k == 5 || k == 6

/-- The operands an instruction carries are ones that the syntax of R149 admits. -/
def Instr.wellFormed : Instr → Bool
  | .nop => true
  | .select t => t.isTarget
  | .deselect t => t.isTarget
  | .sendCmd t _ => t.isTarget
  | .sendData t => t.isTarget
  | .sendFramed t _ => t.isTarget
  | .waitReady => true
  | .reset => true
  | .configure => true
  | .init => true
  | .powerOn => true
  | .refresh => true
  | .powerOff => true
  | .sleep => true
  | .displayUpdate => true
  | .beginFrame h => h.isHalf
  | .writeLine h => h.isHalf
  | .endFrame h => h.isHalf
  | .fillLine k => isColorCode k
  | .glyphIndex _ => true
  | .glyphRow => true
  | .stampGlyph => true
  | .clear k => isColorCode k
  | .splash => true
  | .wireLineWrite => true
  | .wirePowerOn => true
  | .wireDataRefresh => true
  | .wirePowerOff => true
  | .wireDeepSleep => true

end Sys2Proof
end

