-- ==== Sys2Proof/Certificates/Slice0/Obligations.lean ====
section
/-! DEFINITION. The statements for the provers. Each follows the rules of spec/ that its entry in
OBLIGATIONS.json cites. `RunsTo n t u` says that n steps lead from t to u; a completed operation
ends with `run := false, seq := []`. HCOUNT has no meaning outside a wait (R56), so a statement says
nothing of the value a finished wait leaves in it. -/

open Sys2Proof Sys2Proof.Machine

/-! ### The whole machine -/

/-- R62: the state after a hardware reset. RAM contents are free values. -/
def Obligations.ResetStateIsAsSpecified : Prop :=
  let s := State.reset
  s.op = 0 ∧ s.arg0 = 0 ∧ s.arg1 = 0 ∧ s.result = 0 ∧ s.linecnt = 0 ∧ errcodeWord s = 0 ∧
  s.errop = 0 ∧ (∀ b : Fin 6, s.textlen[b.val] = 0) ∧ statusWord s = 0x00007000 ∧
  s.run = false ∧ s.err = false ∧ s.ovr = false ∧ s.session = none ∧ s.life = .unpowered ∧
  s.csM = true ∧ s.csS = true ∧ s.rstl = true ∧ s.pwrl = false ∧ s.busys = false ∧ s.dc = true ∧
  (∀ a, s.ram a = Config.powerOnByte 0 a) ∧ s.seq = []

/-- The state after reset meets the invariant, and its pins are those of an empty trace. -/
def Obligations.ResetMeetsTheInvariants : Prop :=
  MachineInv State.reset ∧ PinsFollowTrace State.reset

/-- Every step, whichever agent moves, keeps the invariant; R302 is one of its clauses. -/
def Obligations.StepKeepsMachineInv : Prop :=
  ∀ s s' : State, MachineInv s → step s = .next s' → MachineInv s'

/-- Every step keeps the driven levels equal to what the trace leaves: CS_M and CS_S change by
SetCS events only, RSTL and PWRL by SetRST and SetPWR events only (or by a hardware reset, which
restarts the trace). -/
def Obligations.StepKeepsPinsFollowTrace : Prop :=
  ∀ s s' : State, PinsFollowTrace s → step s = .next s' → PinsFollowTrace s'

/-- R110, R432: the trace only grows. A step adds nothing, one event, the sample at which a wait times
out with the deselect of its error entry (log entry 6), or the two events of a soft reset (log entry
15); a hardware reset restarts it empty (R450). -/
def Obligations.TraceIsAppendOnly : Prop :=
  ∀ s s' : State, step s = .next s' →
    ((∃ ts, s.turns = .hardwareReset :: ts) ∧ s'.trace = []) ∨
    ∃ es, s'.trace = s.trace ++ es ∧
      (es = [] ∨ (∃ e, es = [e]) ∨
       (es = [.pollBusy false, .setCS .ms true] ∧ s'.errcode = some .handshakeTimeout) ∨
       (es = [.setCS .ms true, .setRST true] ∧
         ∃ w ts, s.turns = .host (.write 4 0x004 w) :: ts ∧ w.getLsbD 0 = true))

/-- R110 and R112: a byte goes out with the chip-select levels that stand, and leaves DC at the level
of its kind, 0 for a command byte and 1 for a data byte (general knowledge by the spec's own mark
G2). -/
def Obligations.TransmittedBytesCarryTheLevels : Prop :=
  ∀ (s s' : State) (kind : TxKind) (b : Byte) (m c : Bool), step s = .next s' →
    s'.trace = s.trace ++ [.tx kind b m c] →
    m = s.csM ∧ c = s.csS ∧ s'.csM = s.csM ∧ s'.csS = s.csS ∧
    (kind = .cmd → s'.dc = false) ∧ (kind = .data → s'.dc = true)

/-- No step changes a parameter: GLYPH_ROM and CONFIG_TABLE are constants that nothing writes and no
reset affects (R58, R453). -/
def Obligations.StepKeepsParameters : Prop :=
  ∀ s s' : State, step s = .next s' → s'.cfg = s.cfg

/-- When the sequencer moves and its position begins with `start`, the step is exec of the decoded
operation word; when it begins with a panel command byte, exec of that command. Taking a turn and
taking the first item off the position is all the step adds. The word that withFetchWord places
is the one that runs. -/
def Obligations.StepRunsTheDecodedInstruction : Prop :=
  (∀ (s : State) (rest : List Micro) (i : Instr), s.run = true → s.turns = [] →
    s.seq = .start :: rest → decode s.op = .ok i → step s = exec i { s with seq := rest }) ∧
  (∀ (s : State) (ts : List Turn) (rest : List Micro) (i : Instr), s.run = true →
    s.turns = .sequencer :: ts → s.seq = .start :: rest → decode s.op = .ok i →
    step s = exec i { s with turns := ts, seq := rest }) ∧
  (∀ (s : State) (b : Byte) (rest : List Micro) (i : Instr), s.run = true → s.turns = [] →
    s.seq = .wire b :: rest → decodePanel b = .ok i → step s = exec i { s with seq := rest }) ∧
  (∀ (s : State) (w : Nat) (i : Instr), decodeTableWord 32 w = some i →
    step (s.withFetchWord 32 w) =
      exec i { s with op := BitVec.ofNat 32 w, run := true, seq := [] }) ∧
  (∀ (s : State) (w : Nat) (i : Instr), decodeTableWord 8 w = some i →
    step (s.withFetchWord 8 w) = exec i { s with run := true, seq := [] })

/-! ### Encodings -/

/-- R146: an operation word whose OPC is not in the operation map, or whose OPC is listed and which
has a non-zero bit in its mask outside OPC, raises ILLEGAL_OP when the operation starts. -/
def Obligations.ReservedEncodingsRaiseIllegalOp : Prop :=
  ∀ (s : State) (rest : List Micro), s.run = true → s.turns = [] → s.seq = .start :: rest →
    (let n := (opcField s.op).toNat
     n = 0x06 ∨ n = 0x07 ∨ (0x09 ≤ n ∧ n ≤ 0x0F) ∨ (0x18 ≤ n ∧ n ≤ 0x1F) ∨
       (0x23 ≤ n ∧ n ≤ 0x2F) ∨ (0x34 ≤ n ∧ n ≤ 0x3F) ∨ (0x42 ≤ n ∧ n ≤ 0xFF) ∨
       ∃ r ∈ opTable, opcField r.code = opcField s.op ∧ s.op &&& r.mask ≠ r.code) →
    step s = .next (s.errorEntry .illegalOp)

/-- Decoding the encoding of an instruction gives the instruction, with every target, command byte,
color byte and character it can carry. -/
def Obligations.DecodeOfEncodeIsTheInstruction : Prop :=
  ∀ i : Instr, decodeCode (encode i) = .ok i

/-- Only the encoding of an instruction decodes to it: no bit of a word or byte is ignored. -/
def Obligations.OnlyTheEncodingDecodes : Prop :=
  ∀ (c : Code) (i : Instr), decodeCode c = .ok i → encode i = c

/-- Words written out from the spec's fields (30_encoding.md R145, R150, 95_test_vectors.md §2), one
of each family. -/
def Obligations.SpecWordsDecodeAsWritten : Prop :=
  decode 0x00000000 = .ok .nop ∧
  decode 0x00120305 = .ok (.sendFramed .both 0x12) ∧
  decode 0x00000008 = .ok .waitReady ∧
  decode 0x00000017 = .ok .displayUpdate ∧
  decode 0x00000221 = .ok (.writeLine .slave) ∧
  decode 0x00060030 = .ok (.fillLine 6) ∧
  decode 0x00FF0031 = .ok (.glyphIndex 0xFF) ∧
  decode 0x00010040 = .ok (.clear 1) ∧
  decodePanel 0x10 = .ok .wireLineWrite ∧
  decodePanel 0x07 = .ok .wireDeepSleep

/-! ### Errors and recovery -/

/-- R420: the error entry. -/
def Obligations.ErrorEntryDeselectsAndRecords : Prop :=
  ∀ (code : ErrCode) (s : State), raiseError code s = .next
    { s with
      csM := true, csS := true,
      trace := s.trace ++ (if s.csM = false ∨ s.csS = false then [.setCS .ms true] else []),
      session := none, errcode := some code, errop := s.op, err := true, run := false, seq := [] }

/-- Every instruction answers a next state, from every state. Either its checks raise one of the
errors R411 lists for it, and the answer is the error entry on the unchanged state (R422), or it
records no error, emits no event yet, drives no line, and leaves OP, the operand registers and
STATUS.OVR alone. -/
def Obligations.ExecAnswersWithAllowedErrorsOnly : Prop :=
  ∀ (i : Instr) (s : State), ∃ t, exec i s = .next t ∧
    ((∃ c ∈ checkErrors i, t = s.errorEntry c) ∨
     (t.err = s.err ∧ t.errcode = s.errcode ∧ t.errop = s.errop ∧ t.trace = s.trace ∧
      t.csM = s.csM ∧ t.csS = s.csS ∧ t.rstl = s.rstl ∧ t.pwrl = s.pwrl ∧ t.busys = s.busys ∧
      t.op = s.op ∧ t.arg0 = s.arg0 ∧ t.arg1 = s.arg1 ∧ t.textlen = s.textlen ∧ t.ovr = s.ovr))

/-- An error that a step records is ILLEGAL_OP of a word that does not decode, an error that the
checks of the decoded operation can raise, or HANDSHAKE_TIMEOUT at a busy sample; the word in OP is
recorded with it, and the operation has ended with both chip-selects high. -/
def Obligations.StepRecordsOnlyTheOperationsErrors : Prop :=
  ∀ (s s' : State) (c : ErrCode), step s = .next s' → s.errcode = none → s'.errcode = some c →
    s'.errop = s.op ∧ s'.err = true ∧ s'.run = false ∧ s'.csM = true ∧ s'.csS = true ∧
    s'.session = none ∧
    ((c = .illegalOp ∧ s.seq.head? = some .start ∧ ∃ e, decode s.op = .error e) ∨
     (s.seq.head? = some .start ∧ ∃ i, decode s.op = .ok i ∧ c ∈ checkErrors i) ∨
     (c = .handshakeTimeout ∧ s.seq.head? = some .poll ∧ s'.busys = false))

/-- R425 and R426: a CTRL write without SOFT_RESET clears the error record if bit 1 is set and OVR
if bit 2 is set, and changes nothing else. -/
def Obligations.CtrlWriteClearsErrorAndOverrun : Prop :=
  ∀ (s : State) (w : Word) (ts : List Turn), s.turns = .host (.write 4 0x004 w) :: ts →
    w.getLsbD 0 = false →
    step s = .next
      { s with
        turns := ts,
        err := if w.getLsbD 1 then false else s.err,
        errcode := if w.getLsbD 1 then none else s.errcode,
        errop := if w.getLsbD 1 then 0 else s.errop,
        ovr := if w.getLsbD 2 then false else s.ovr }

/-- R451: a CTRL write with bit 0 set, whatever its other bits and whether or not an operation runs.
That DC takes its reset value as well is read from R451's last sentence (log entry 9); HCOUNT is
meaningless after it. -/
def Obligations.SoftResetAbandonsAndClears : Prop :=
  ∀ (s : State) (w : Word) (ts : List Turn), s.turns = .host (.write 4 0x004 w) :: ts →
    w.getLsbD 0 = true →
    ∃ hc, step s = .next
      { s with
        turns := ts, csM := true, csS := true, rstl := true,
        trace := s.trace ++ (if s.csM = false ∨ s.csS = false then [.setCS .ms true] else []) ++
          (if s.rstl = false then [.setRST true] else []),
        session := none, op := 0, arg0 := 0, arg1 := 0, result := 0, linecnt := 0,
        errcode := none, errop := 0, textlen := Vector.replicate 6 0, run := false, err := false,
        ovr := false, busys := false, dc := true, hcount := hc, seq := [] }

/-- R450: a hardware reset. HCOUNT is meaningless after it. What the block does not own (its
parameters, the inputs still to come and the record of host reads, log entries 1, 3 and 5) stays; the
RAMs come up with new free values. -/
def Obligations.HardwareResetRestoresTheResetState : Prop :=
  ∀ (s : State) (ts : List Turn), s.turns = .hardwareReset :: ts →
    ∃ s' hc, step s = .next s' ∧
      s' = { State.reset with
             cfg := s.cfg, turns := ts, busyIn := s.busyIn, hostReads := s.hostReads,
             draws := s.draws, boot := s.boot + 1, hcount := hc } ∧
      s'.trace = [] ∧ s'.seq = [] ∧ statusWord s' = 0x00007000 ∧
      ∀ a, s'.ram a = Config.powerOnByte (s.boot + 1) a

/-! ### The host port -/

/-- R50: a write to OP while RUN = 1 or ERR = 1, or to ARG0, ARG1, TEXTLEN or a RAM byte while
RUN = 1, changes nothing but OVR; OVR falls only by a CTRL write with OVR_CLR or by a reset; a write
to CTRL is never dropped. -/
def Obligations.DroppedWritesSetOverrunOnly : Prop :=
  (∀ (s : State) (off : Nat) (w : Word) (ts : List Turn),
    s.turns = .host (.write 4 off w) :: ts → off % 4 = 0 →
    ((off = 0x028 ∧ (s.run = true ∨ s.err = true)) ∨
     (s.run = true ∧ (off = 0x020 ∨ off = 0x024 ∨ (0x040 ≤ off ∧ off < 0x058) ∨
       (0x100 ≤ off ∧ off < 0x200) ∨ (0x200 ≤ off ∧ off < 0x32C) ∨
       (0x400 ≤ off ∧ off < 0x580)))) →
    step s = .next { s with turns := ts, ovr := true }) ∧
  (∀ s s' : State, s.ovr = true → step s = .next s' → s'.ovr = false →
    (∃ ts, s.turns = .hardwareReset :: ts) ∨
    ∃ w ts, s.turns = .host (.write 4 0x004 w) :: ts ∧
      (w.getLsbD 0 = true ∨ w.getLsbD 2 = true)) ∧
  (∀ (s s' : State) (w : Word) (ts : List Turn), s.turns = .host (.write 4 0x004 w) :: ts →
    step s = .next s' → s'.ovr = true → s.ovr = true)

/-- R49: an accepted write to OP latches the word, sets RUN and starts the operation; a read of OP
returns the word; while the operation runs, OP holds it. -/
def Obligations.OpWriteLatchesAndStarts : Prop :=
  (∀ (s : State) (w : Word) (ts : List Turn), s.turns = .host (.write 4 0x028 w) :: ts →
    s.run = false → s.err = false →
    step s = .next { s with turns := ts, op := w, run := true, seq := [.start] }) ∧
  (∀ (s : State) (ts : List Turn), s.turns = .host (.read 4 0x028) :: ts →
    step s = .next { s with turns := ts, hostReads := s.hostReads ++ [(0x028, s.op)] }) ∧
  (∀ s s' : State, s.run = true → step s = .next s' → s'.run = true → s'.op = s.op)

/-- A host write stores into the one register it names and changes nothing else: ARG0, ARG1 and
TEXTLEN (bits 7:0 only) while no operation runs, whether or not an error stands; a write to a
read-only register or a reserved offset is ignored and sets no flag (R42, R43, R45 to R48, R51, R105,
R423). -/
def Obligations.HostWritesStoreTheirRegister : Prop :=
  ∀ (s : State) (off : Nat) (w : Word) (ts : List Turn), s.turns = .host (.write 4 off w) :: ts →
    off % 4 = 0 → off < 0x1000 →
    (s.run = false →
      (off = 0x020 → step s = .next { s with turns := ts, arg0 := w }) ∧
      (off = 0x024 → step s = .next { s with turns := ts, arg1 := w }) ∧
      (∀ b : Fin 6, off = 0x040 + 4 * b.val →
        step s = .next { s with
          turns := ts, textlen := s.textlen.set b.val (w.extractLsb' 0 8) })) ∧
    ((off = 0x000 ∨ off = 0x008 ∨ off = 0x00C ∨ off = 0x010 ∨ off = 0x014 ∨ off = 0x018 ∨
      off = 0x01C ∨ (0x02C ≤ off ∧ off < 0x040) ∨ (0x058 ≤ off ∧ off < 0x100) ∨
      (0x32C ≤ off ∧ off < 0x400) ∨ 0x580 ≤ off) →
      step s = .next { s with turns := ts })

/-- R103: a host access that is not 32 bits wide, not word-aligned or outside the window is
refused. -/
def Obligations.UndefinedHostAccessIsRefused : Prop :=
  ∀ (s : State) (width off : Nat) (w : Word) (ts : List Turn),
    (s.turns = .host (.read width off) :: ts ∨ s.turns = .host (.write width off w) :: ts) →
    (width ≠ 4 ∨ off % 4 ≠ 0 ∨ 0x1000 ≤ off) →
    ∃ r, step s = .refused r ∧
      (r = .hostAccessWidth ∨ r = .hostAccessUnaligned ∨ r = .hostAccessOutsideWindow)

/-- R102: a RAM word is little-endian, a host write sets its four bytes and no other byte, and a
host read returns all four. -/
def Obligations.RamWordsAreLittleEndian : Prop :=
  ∀ (s : State) (off : Nat) (w : Word) (ts : List Turn),
    s.run = false → off % 4 = 0 →
    ((0x100 ≤ off ∧ off < 0x200) ∨ (0x200 ≤ off ∧ off < 0x32C) ∨ (0x400 ≤ off ∧ off < 0x580)) →
    (s.turns = .host (.write 4 off w) :: ts →
      ∃ m, step s = .next { s with turns := ts, mem := m } ∧
        ∀ a, State.ram { s with turns := ts, mem := m } a =
          if a = off then w.extractLsb' 0 8
          else if a = off + 1 then w.extractLsb' 8 8
          else if a = off + 2 then w.extractLsb' 16 8
          else if a = off + 3 then w.extractLsb' 24 8
          else s.ram a) ∧
    (s.turns = .host (.read 4 off) :: ts →
      step s = .next { s with
        turns := ts,
        hostReads := s.hostReads ++
          [(off, s.ram (off + 3) ++ s.ram (off + 2) ++ s.ram (off + 1) ++ s.ram off)] })

/-- A host read changes nothing but the record of what it returned (and, for LINEBUF, RESULT and
LINECNT while an operation runs, where the word is any value, the count of free values drawn):
R106, R120. It returns the register or RAM word it names, with the bits of STATUS in the places of R45
and the error numbers of R410 (R43 to R49, R51, R102, R105). -/
def Obligations.HostReadsHaveNoSideEffect : Prop :=
  ∀ (s : State) (off : Nat) (ts : List Turn), s.turns = .host (.read 4 off) :: ts →
    off % 4 = 0 → off < 0x1000 →
    (∃ v d, step s = .next { s with
        turns := ts, hostReads := s.hostReads ++ [(off, v)], draws := d } ∧
      (¬ (s.run = true ∧ (off = 0x014 ∨ off = 0x018 ∨ (0x200 ≤ off ∧ off < 0x32C))) →
        d = s.draws) ∧
      (off = 0x000 → v = 0x53364652) ∧ (off = 0x004 → v = 0) ∧
      (off = 0x008 →
        v.getLsbD 0 = s.run ∧ v.getLsbD 1 = s.err ∧ v.getLsbD 2 = s.ovr ∧ v.getLsbD 3 = false ∧
        (s.session = none → v.extractLsb' 4 2 = 0) ∧
        (s.session = some .master → v.extractLsb' 4 2 = 1) ∧
        (s.session = some .slave → v.extractLsb' 4 2 = 2) ∧
        v.extractLsb' 6 2 = 0 ∧
        (∀ p ∈ ([(.unpowered, 0), (.resetting, 1), (.initialized, 2), (.displaying, 3),
            (.sleeping, 4)] : List (Life × BitVec 3)), s.life = p.1 → v.extractLsb' 8 3 = p.2) ∧
        v.getLsbD 11 = false ∧ v.getLsbD 12 = s.csM ∧ v.getLsbD 13 = s.csS ∧
        v.getLsbD 14 = s.rstl ∧ v.getLsbD 15 = s.pwrl ∧ v.getLsbD 16 = s.busys ∧
        v.extractLsb' 17 15 = 0) ∧
      (off = 0x00C →
        (s.errcode = none → v = 0) ∧
        ∀ p ∈ ([(.illegalOp, 1), (.badOperand, 2), (.sessionOpen, 3), (.noSession, 4),
            (.wrongHalf, 5), (.wrongLength, 6), (.badPixel, 7), (.csConflict, 8),
            (.handshakeTimeout, 9), (.transportFailure, 10)] : List (ErrCode × Word)),
          s.errcode = some p.1 → v = p.2) ∧
      (off = 0x010 → v = s.errop) ∧
      (off = 0x020 → v = s.arg0) ∧ (off = 0x024 → v = s.arg1) ∧ (off = 0x028 → v = s.op) ∧
      (∀ b : Fin 6, off = 0x040 + 4 * b.val → v = (s.textlen[b.val]).setWidth 32) ∧
      (s.run = false → off = 0x014 → v = s.result) ∧
      (s.run = false → off = 0x018 → v = s.linecnt.setWidth 32) ∧
      (((0x100 ≤ off ∧ off < 0x200) ∨ (0x400 ≤ off ∧ off < 0x580) ∨
          (s.run = false ∧ 0x200 ≤ off ∧ off < 0x32C)) →
        v = s.ram (off + 3) ++ s.ram (off + 2) ++ s.ram (off + 1) ++ s.ram off) ∧
      ((off = 0x01C ∨ (0x02C ≤ off ∧ off < 0x040) ∨ (0x058 ≤ off ∧ off < 0x100) ∨
        (0x32C ≤ off ∧ off < 0x400) ∨ 0x580 ≤ off) → v = 0))

/-! ### Framer operations -/

/-- NOP completes: nothing changes but STATUS.RUN (and the position, which is discarded). -/
def Obligations.NopOnlyCompletes : Prop :=
  ∀ s : State, exec .nop s = .next { s with run := false, seq := [] }

/-- SELECT, DESELECT and SEND_CMD with a target whose checks pass: each is begun and runs to its end
with exactly its events; SEND_CMD leaves the chip-select asserted. Everything else is as before. That
DC keeps the level of the command byte after it is log entry 11. -/
def Obligations.SelectDeselectSendCmdComplete : Prop :=
  ∀ (s : State) (t : Tgt) (l : Lines), undisturbed s → s.session = none → linesOf? t = some l →
    (((l = .m → s.csS = true) ∧ (l = .s → s.csM = true)) →
      (∃ u, exec (.select t) s = .next u ∧ RunsTo 2 u
        { s with
          csM := if l.has .master then false else s.csM,
          csS := if l.has .slave then false else s.csS,
          trace := s.trace ++ [.setCS l false], run := false, seq := [] }) ∧
      (∀ c : Byte, ∃ u, exec (.sendCmd t c) s = .next u ∧ RunsTo 3 u
        { s with
          csM := if l.has .master then false else s.csM,
          csS := if l.has .slave then false else s.csS,
          dc := false,
          trace := s.trace ++ [.setCS l false, .tx .cmd c
            (if l.has .master then false else s.csM) (if l.has .slave then false else s.csS)],
          run := false, seq := [] })) ∧
    (∃ u, exec (.deselect t) s = .next u ∧ RunsTo 2 u
      { s with
        csM := if l.has .master then true else s.csM,
        csS := if l.has .slave then true else s.csS,
        trace := s.trace ++ [.setCS l true], run := false, seq := [] })

/-- SEND_DATA and SEND_FRAMED with a length of 0 to 256 send PAYLOAD[0 .. n-1] in order, under the
chip-select they leave asserted; PAYLOAD and everything else is as before. The level DC keeps after
the last byte is log entry 11. -/
def Obligations.SendDataSendFramedComplete : Prop :=
  ∀ (s : State) (t : Tgt) (l : Lines) (c : Byte) (n : Nat), undisturbed s → s.session = none →
    linesOf? t = some l → ((l = .m → s.csS = true) ∧ (l = .s → s.csM = true)) →
    n ≤ 256 → s.arg0 = BitVec.ofNat 32 n →
    let m' := if l.has .master then false else s.csM
    let s' := if l.has .slave then false else s.csS
    let bytes := (List.range n).map fun i => Event.tx .data (s.ram (0x100 + i)) m' s'
    (∃ u, exec (.sendData t) s = .next u ∧ RunsTo (n + 2) u
      { s with
        csM := m', csS := s', dc := if n = 0 then s.dc else true,
        trace := s.trace ++ .setCS l false :: bytes, run := false, seq := [] }) ∧
    (∃ u, exec (.sendFramed t c) s = .next u ∧ RunsTo (n + 3) u
      { s with
        csM := m', csS := s', dc := if n = 0 then false else true,
        trace := s.trace ++ .setCS l false :: .tx .cmd c m' s' :: bytes, run := false, seq := [] })

/-- R200, R201 and R203: the checks of the framer operations, in their order. DESELECT makes the first
three and never raises CS_CONFLICT; target Both never raises it, whatever the chip-selects, and is
driven by one SetCS(MS, 0). -/
def Obligations.FramerChecksInOrder : Prop :=
  ∀ (s : State) (t : Tgt) (c : Byte),
    let i : List Instr := [.select t, .sendCmd t c, .sendData t, .sendFramed t c]
    let badLen := s.arg0.extractLsb' 9 23 ≠ 0 ∨ 256 < (s.arg0.extractLsb' 0 9).toNat
    (t = .none → ∀ j ∈ .deselect t :: i, exec j s = .next (s.errorEntry .badOperand)) ∧
    (t ≠ .none → badLen →
      exec (.sendData t) s = .next (s.errorEntry .badOperand) ∧
      exec (.sendFramed t c) s = .next (s.errorEntry .badOperand)) ∧
    (t ≠ .none → s.session ≠ none →
      (∀ j ∈ [.deselect t, .select t, .sendCmd t c],
        exec j s = .next (s.errorEntry .sessionOpen)) ∧
      (¬ badLen → exec (.sendData t) s = .next (s.errorEntry .sessionOpen) ∧
        exec (.sendFramed t c) s = .next (s.errorEntry .sessionOpen))) ∧
    (s.session = none → ((t = .master ∧ s.csS = false) ∨ (t = .slave ∧ s.csM = false)) →
      (∀ j ∈ [.select t, .sendCmd t c], exec j s = .next (s.errorEntry .csConflict)) ∧
      (¬ badLen → exec (.sendData t) s = .next (s.errorEntry .csConflict) ∧
        exec (.sendFramed t c) s = .next (s.errorEntry .csConflict))) ∧
    (t = .both → s.session = none →
      (∀ j ∈ [.select t, .sendCmd t c], ∃ u, exec j s = .next u ∧
        u.seq.head? = some (.setCS .ms false) ∧ u.run = s.run ∧ u.err = s.err) ∧
      (¬ badLen → ∀ j ∈ [.sendData t, .sendFramed t c], ∃ u, exec j s = .next u ∧
        u.seq.head? = some (.setCS .ms false) ∧ u.run = s.run ∧ u.err = s.err)) ∧
    (t = .both → ∀ j ∈ i, exec j s ≠ .next (s.errorEntry .csConflict)) ∧
    exec (.deselect t) s ≠ .next (s.errorEntry .csConflict)

/-! ### The busy-line handshake -/

/-- R231 and R237: the loop of wait_ready, one item at a time, whatever operation it is part of and
whatever follows it (`rest`): HCOUNT is cleared; an iteration kicks, then samples; a 1 leads to the
20 ms settle delay and on to `rest`; a 0 is counted and leads to the 10 ms delay and the next
iteration, or, when the count reaches BUSY_POLL_LIMIT, to the error entry with `rest` discarded. The
level sampled is the next of the script or, when there is none, a free value (log entry 3); which step
clears HCOUNT and makes the assignments after a delay is log entry 6. -/
def Obligations.EveryWaitFollowsTheLoop : Prop :=
  ∀ (s : State) (rest : List Micro), undisturbed s →
    (s.seq = .waitReady :: rest →
      step s = .next { s with hcount := 0, seq := .kick :: rest }) ∧
    (s.seq = .kick :: rest →
      step s = .next { s with trace := s.trace ++ [.wdtKick], seq := .poll :: rest }) ∧
    (s.seq = .poll :: rest →
      (∀ t, sampleGives s true t →
        step s = .next { t with
          busys := true, trace := s.trace ++ [.pollBusy true], seq := .delay 20 :: rest }) ∧
      (∀ t, sampleGives s false t →
        ((∀ n : ℕ+, s.cfg.busyPollLimit = some n → s.hcount + 1 < n) →
          step s = .next { t with
            busys := false, hcount := s.hcount + 1,
            trace := s.trace ++ [.pollBusy false], seq := .delay 10 :: .kick :: rest }) ∧
        (∀ n : ℕ+, s.cfg.busyPollLimit = some n → n ≤ s.hcount + 1 →
          step s = .next (State.errorEntry .handshakeTimeout { t with
            busys := false, hcount := s.hcount + 1,
            trace := s.trace ++ [.pollBusy false] }))) ∧
      ∃ lvl t, sampleGives s lvl t) ∧
    (∀ ms, s.seq = .delay ms :: rest →
      step s = .next (State.settle rest { s with trace := s.trace ++ [.delay ms] }))

/-- WAIT_READY outside a session, with a panel that answers 0 k times and then 1, k below the limit:
one kick and one sample an iteration, 10 ms after each 0, one 20 ms settle delay after the 1, and no
further sample. Chip-selects and everything else are as before. -/
def Obligations.WaitReadyPollsUntilReady : Prop :=
  ∀ (s : State) (k : Nat) (rest : List Bool), undisturbed s → s.session = none →
    answersAfter s k rest →
    ∃ u, exec .waitReady s = .next u ∧ ∃ n hc, RunsTo n u
      { s with
        busyIn := rest, busys := true, hcount := hc, trace := s.trace ++ waitEvents k,
        run := false, seq := [] }

/-- After BUSY_POLL_LIMIT samples that read 0, WAIT_READY raises HANDSHAKE_TIMEOUT without the
following 10 ms delay and without the settle delay. -/
def Obligations.WaitReadyTimesOut : Prop :=
  ∀ (s : State) (n : ℕ+) (rest : List Bool), undisturbed s → s.session = none →
    s.cfg.busyPollLimit = some n → s.busyIn = List.replicate n false ++ rest →
    ∃ u, exec .waitReady s = .next u ∧ ∃ m hc, RunsTo m u
      { s with
        busyIn := rest, busys := false, hcount := hc, csM := true, csS := true,
        trace := s.trace ++
          (List.replicate ((n : Nat) - 1) [.wdtKick, .pollBusy false, .delay 10]).flatten ++
          [.wdtKick, .pollBusy false] ++
          (if s.csM = false ∨ s.csS = false then [.setCS .ms true] else []),
        errcode := some .handshakeTimeout, errop := s.op, err := true, run := false, seq := [] }

/-- R236: with BUSY_POLL_LIMIT = ∞ and a panel that answers 0 m times, WAIT_READY is still running
after any number of steps up to 3m, and its trace is the repeated kick, sample and delay. -/
def Obligations.UnansweredWaitNeverCompletes : Prop :=
  ∀ (s : State) (m : Nat), undisturbed s → s.session = none → s.cfg.busyPollLimit = none →
    s.busyIn = List.replicate m false →
    ∃ u, exec .waitReady s = .next u ∧
      (∀ n, n ≤ 3 * m → ∃ v, RunsTo n u v ∧ v.run = true ∧ v.err = s.err) ∧
      ∀ j, j ≤ m → ∃ v, RunsTo (1 + 3 * j) u v ∧ v.run = true ∧
        v.trace = s.trace ++ (List.replicate j [.wdtKick, .pollBusy false, .delay 10]).flatten

/-! ### The init/power sequencer -/

/-- R250: the checks that every operation of the sequencer makes first, in their order. -/
def Obligations.SequencerChecksInOrder : Prop :=
  ∀ (s : State), ∀ i ∈ ([.reset, .configure, .init, .powerOn, .refresh, .powerOff, .sleep,
      .displayUpdate] : List Instr),
    (s.session ≠ none → exec i s = .next (s.errorEntry .sessionOpen)) ∧
    (s.session = none → (s.csM = false ∨ s.csS = false) →
      exec i s = .next (s.errorEntry .csConflict))

/-- RESET from the idle levels: LIFE is Resetting before the first event, and the trace is the pulse
train with exactly two low phases. -/
def Obligations.ResetRunsThePulseTrain : Prop :=
  ∀ s : State, undisturbed s → s.session = none → s.csM = true → s.csS = true →
    ∃ u, exec .reset s = .next u ∧ u.life = .resetting ∧ u.trace = s.trace ∧ RunsTo 11 u
      { s with
        life := .resetting, rstl := true, trace := s.trace ++ resetTrainEvents,
        run := false, seq := [] }

/-- CONFIGURE from the idle levels sends the configuration list, ungrouped entries framed to both
and each run of grouped entries under one master-only assertion, and leaves LIFE = Initialized. -/
def Obligations.ConfigureSendsTheTable : Prop :=
  ∀ s : State, undisturbed s → s.session = none → s.csM = true → s.csS = true →
    ∃ u, exec .configure s = .next u ∧ ∃ n d, RunsTo n u
      { s with
        life := .initialized, dc := d, trace := s.trace ++ configureEvents s.cfg.configTable,
        run := false, seq := [] }

/-- INIT from the idle levels: the power pin when there is one, the reset train, the configuration
list, and LIFE = Initialized at the end. -/
def Obligations.InitPowersResetsAndConfigures : Prop :=
  ∀ s : State, undisturbed s → s.session = none → s.csM = true → s.csS = true →
    ∃ u, exec .init s = .next u ∧ ∃ n d, RunsTo n u
      { s with
        life := .initialized, dc := d, rstl := true, pwrl := s.cfg.hasPwr || s.pwrl,
        trace := s.trace ++ (if s.cfg.hasPwr then [.setPWR true] else []) ++ resetTrainEvents ++
          configureEvents s.cfg.configTable,
        run := false, seq := [] }

/-- POWER_OFF and SLEEP from the idle levels: the power-off frame and no wait, LIFE unchanged; the
deep-sleep frame and a 100 ms delay, LIFE = Sleeping. That DC keeps the level of the last byte is log
entry 11. -/
def Obligations.PowerOffAndSleepComplete : Prop :=
  ∀ s : State, undisturbed s → s.session = none → s.csM = true → s.csS = true →
    (∃ u, exec .powerOff s = .next u ∧ ∃ n, RunsTo n u
      { s with
        dc := true, trace := s.trace ++ frameBothEvents 0x02 [0x00], run := false, seq := [] }) ∧
    (∃ u, exec .sleep s = .next u ∧ ∃ n, RunsTo n u
      { s with
        life := .sleeping, dc := true,
        trace := s.trace ++ frameBothEvents 0x07 [0xA5] ++ [.delay 100],
        run := false, seq := [] })

/-- POWER_ON from the idle levels: the power-on frame, deselected, then the busy wait; LIFE is
unchanged. That DC keeps the level of the command byte is log entry 11. -/
def Obligations.PowerOnFramesAndWaits : Prop :=
  ∀ (s : State) (k : Nat) (rest : List Bool), undisturbed s → s.session = none → s.csM = true →
    s.csS = true → answersAfter s k rest →
    ∃ u, exec .powerOn s = .next u ∧ ∃ n hc, RunsTo n u
      { s with
        busyIn := rest, busys := true, hcount := hc, dc := false,
        trace := s.trace ++ powerOnEvents k, run := false, seq := [] }

/-- REFRESH from the idle levels: the pre-refresh delay, the data-refresh frame, the busy wait, the
power-off frame and no wait after it (R261); LIFE is Displaying after the last event (R262). That DC
keeps the level of the last byte is log entry 11. -/
def Obligations.RefreshWaitsOnceThenPowersOff : Prop :=
  ∀ (s : State) (k : Nat) (rest : List Bool), undisturbed s → s.session = none → s.csM = true →
    s.csS = true → answersAfter s k rest →
    ∃ u, exec .refresh s = .next u ∧ ∃ n hc, RunsTo n u
      { s with
        life := .displaying, busyIn := rest, busys := true, hcount := hc, dc := true,
        trace := s.trace ++ refreshEvents k, run := false, seq := [] }

/-- R263: when the wait inside REFRESH times out, the power-off frame is not sent and LIFE is not
changed; the error entry ends the operation. That DC keeps the level of the last byte is log entry
11. -/
def Obligations.RefreshTimeoutSendsNoPowerOff : Prop :=
  ∀ (s : State) (n : ℕ+) (rest : List Bool), undisturbed s → s.session = none → s.csM = true →
    s.csS = true → s.cfg.busyPollLimit = some n → s.busyIn = List.replicate n false ++ rest →
    ∃ u, exec .refresh s = .next u ∧ ∃ m hc, RunsTo m u
      { s with
        busyIn := rest, busys := false, hcount := hc, dc := true,
        trace := s.trace ++ .delay 50 :: frameBothEvents 0x12 [0x00] ++
          (List.replicate ((n : Nat) - 1) [.wdtKick, .pollBusy false, .delay 10]).flatten ++
          [.wdtKick, .pollBusy false],
        errcode := some .handshakeTimeout, errop := s.op, err := true, run := false, seq := [] }

/-- DISPLAY_UPDATE from the idle levels: the events of power_on and then those of refresh, with k
and j busy answers in the two waits. That DC keeps the level of the last byte is log entry 11. -/
def Obligations.DisplayUpdatePowersOnThenRefreshes : Prop :=
  ∀ (s : State) (k j : Nat) (rest : List Bool), undisturbed s → s.session = none → s.csM = true →
    s.csS = true → answersAfter s k (List.replicate j false ++ true :: rest) →
    (∀ n : ℕ+, s.cfg.busyPollLimit = some n → j < n) →
    ∃ u, exec .displayUpdate s = .next u ∧ ∃ n hc, RunsTo n u
      { s with
        life := .displaying, busyIn := rest, busys := true, hcount := hc, dc := true,
        trace := s.trace ++ powerOnEvents k ++ refreshEvents j, run := false, seq := [] }

/-! ### The line streamer -/

/-- BEGIN_FRAME outside a session, whatever the chip-selects: the other half is deselected first, the
half selected, the line-write command sent, the session opened and LINECNT cleared. END_FRAME in the
session of its half: the half is deselected and the session closed; LINECNT stays. That DC keeps the
level of the command byte is log entry 11. -/
def Obligations.BeginFrameEndFrameComplete : Prop :=
  ∀ (s : State), undisturbed s →
    (s.session = none →
      (∃ u, exec (.beginFrame .master) s = .next u ∧ ∃ n, RunsTo n u
        { s with
          csM := false, csS := true, dc := false, session := some .master, linecnt := 0,
          trace := s.trace ++ [.setCS .s true, .setCS .m false, .tx .cmd 0x10 false true],
          run := false, seq := [] }) ∧
      (∃ u, exec (.beginFrame .slave) s = .next u ∧ ∃ n, RunsTo n u
        { s with
          csM := true, csS := false, dc := false, session := some .slave, linecnt := 0,
          trace := s.trace ++ [.setCS .m true, .setCS .s false, .tx .cmd 0x10 true false],
          run := false, seq := [] })) ∧
    (s.session = some .master →
      ∃ u, exec (.endFrame .master) s = .next u ∧ RunsTo 2 u
        { s with
          csM := true, session := none, trace := s.trace ++ [.setCS .m true],
          run := false, seq := [] }) ∧
    (s.session = some .slave →
      ∃ u, exec (.endFrame .slave) s = .next u ∧ RunsTo 2 u
        { s with
          csS := true, session := none, trace := s.trace ++ [.setCS .s true],
          run := false, seq := [] })

/-- WRITE_LINE of 300 bytes in the session of its half, both nibbles of every LINEBUF byte a color
code: the 300 bytes go out, byte 0 first, and LINECNT counts the line modulo 65536; LINEBUF and
everything else is as before, DC at the level of the last byte (log entry 11). WRITE_LINE of 0 bytes
completes in every state. -/
def Obligations.WriteLineSendsTheLine : Prop :=
  ∀ (s : State) (t : Tgt) (h : Half), halfOf? t = some h →
    (undisturbed s → s.session = some h → s.arg0 = 300 →
      (∀ x, x < 600 → linePixel s x ∈ ([0, 1, 2, 3, 5, 6] : List (BitVec 4))) →
      ∃ u, exec (.writeLine t) s = .next u ∧ RunsTo 301 u
        { s with
          dc := true, linecnt := s.linecnt + 1,
          trace := s.trace ++
            (List.range 300).map (fun i => .tx .data (s.ram (0x200 + i)) s.csM s.csS),
          run := false, seq := [] }) ∧
    (s.arg0 = 0 → exec (.writeLine t) s = .next { s with run := false, seq := [] })

/-- The checks of WRITE_LINE, END_FRAME and BEGIN_FRAME in the order of R304, R308, R301 and R421:
the target and ARG0, the session, its half, the length, the pixels. -/
def Obligations.StreamerChecksInOrder : Prop :=
  ∀ (s : State) (t : Tgt),
    let n := (s.arg0.extractLsb' 0 16).toNat
    (halfOf? t = none → ∀ i ∈ ([.writeLine t, .endFrame t, .beginFrame t] : List Instr),
      exec i s = .next (s.errorEntry .badOperand)) ∧
    (s.arg0.extractLsb' 16 16 ≠ 0 → exec (.writeLine t) s = .next (s.errorEntry .badOperand)) ∧
    (∀ h, halfOf? t = some h →
      (s.session ≠ none → exec (.beginFrame t) s = .next (s.errorEntry .sessionOpen)) ∧
      (s.session = none → exec (.endFrame t) s = .next (s.errorEntry .noSession)) ∧
      (s.session = some (otherHalf h) → exec (.endFrame t) s = .next (s.errorEntry .wrongHalf)) ∧
      (s.arg0.extractLsb' 16 16 = 0 → n ≠ 0 →
        (s.session = none → exec (.writeLine t) s = .next (s.errorEntry .noSession)) ∧
        (s.session = some (otherHalf h) →
          exec (.writeLine t) s = .next (s.errorEntry .wrongHalf)) ∧
        (s.session = some h → n ≠ 300 →
          exec (.writeLine t) s = .next (s.errorEntry .wrongLength)) ∧
        (s.session = some h → n = 300 →
          (∃ x, x < 600 ∧ linePixel s x ∉ ([0, 1, 2, 3, 5, 6] : List (BitVec 4))) →
          exec (.writeLine t) s = .next (s.errorEntry .badPixel))))

/-- R300: while a session is open, every operation but NOP, WRITE_LINE, END_FRAME and the four
LINEBUF and RESULT operations raises SESSION_OPEN (once its operands have passed, R421), and none
of those seven does. -/
def Obligations.SessionAdmitsOnlyItsOperations : Prop :=
  ∀ (s : State) (i : Instr), s.session ≠ none → isOperation i = true →
    (sessionAdmits i = false → i.wellFormed = true →
      (∀ t, i = .sendData t → payloadLen? s.arg0 ≠ none) →
      (∀ t c, i = .sendFramed t c → payloadLen? s.arg0 ≠ none) →
      (i = .splash → ∀ b : Fin 6, (s.textlen[b.val]).toNat ≤ 64) →
      exec i s = .next (s.errorEntry .sessionOpen)) ∧
    (sessionAdmits i = true → exec i s ≠ .next (s.errorEntry .sessionOpen))

/-! ### The rasterizer -/

/-- FILL_LINE k: every LINEBUF byte is (k << 4) | k and every other RAM byte is as before; a byte
that is no color code raises BAD_OPERAND. -/
def Obligations.FillLineFillsTheLine : Prop :=
  ∀ (s : State) (k : Byte),
    (k ∈ ([0, 1, 2, 3, 5, 6] : List Byte) →
      ∃ m, exec (.fillLine k) s = .next { s with mem := m, run := false, seq := [] } ∧
        ∀ a, State.ram { s with mem := m, run := false, seq := [] } a =
          if 0x200 ≤ a ∧ a < 0x32C then (k <<< 4) ||| k else s.ram a) ∧
    (k ∉ ([0, 1, 2, 3, 5, 6] : List Byte) →
      exec (.fillLine k) s = .next (s.errorEntry .badOperand))

/-- R333: GLYPH_INDEX gives the index of the table for every byte, zero-extended into RESULT, and
changes nothing else but STATUS.RUN. -/
def Obligations.GlyphIndexFollowsTheTable : Prop :=
  ∀ (s : State) (ch : Byte), ∃ v : Nat, v < 41 ∧
    exec (.glyphIndex ch) s = .next
      { s with result := BitVec.ofNat 32 v, run := false, seq := [] } ∧
    (0x30 ≤ ch.toNat ∧ ch.toNat ≤ 0x39 → v = ch.toNat - 0x30) ∧
    (0x41 ≤ ch.toNat ∧ ch.toNat ≤ 0x5A → v = ch.toNat - 0x41 + 10) ∧
    (0x61 ≤ ch.toNat ∧ ch.toNat ≤ 0x7A → v = ch.toNat - 0x61 + 10) ∧
    (ch = 0x20 → v = 36) ∧ (ch = 0x2E → v = 37) ∧ (ch = 0x3A → v = 38) ∧ (ch = 0x2D → v = 39) ∧
    (ch = 0x25 → v = 40) ∧
    (¬ (0x30 ≤ ch.toNat ∧ ch.toNat ≤ 0x39) → ¬ (0x41 ≤ ch.toNat ∧ ch.toNat ≤ 0x5A) →
      ¬ (0x61 ≤ ch.toNat ∧ ch.toNat ≤ 0x7A) →
      ch ∉ ([0x20, 0x2E, 0x3A, 0x2D, 0x25] : List Byte) → v = 36)

/-- GLYPH_ROW g, r: RESULT is GLYPH_ROM[g][r] zero-extended, and nothing else changes but
STATUS.RUN; operands out of range raise BAD_OPERAND. -/
def Obligations.GlyphRowReadsTheRom : Prop :=
  ∀ s : State,
    (∀ (g : Fin 41) (r : Fin 8),
      s.arg1 = 0#16 ++ BitVec.ofNat 8 r.val ++ BitVec.ofNat 8 g.val →
      exec .glyphRow s = .next
        { s with
          result := ((s.cfg.glyphRom[g.val])[r.val]).setWidth 32, run := false, seq := [] }) ∧
    ((40 < (s.arg1.extractLsb' 0 8).toNat ∨ 7 < (s.arg1.extractLsb' 8 8).toNat ∨
        s.arg1.extractLsb' 16 16 ≠ 0) →
      exec .glyphRow s = .next (s.errorEntry .badOperand))

/-- STAMP_GLYPH paints exactly the pixels that R339, R341, R343 and R344 give, in the color of
ARG1[15:8], and leaves every other pixel of LINEBUF, every other RAM byte and everything else as it
was; operands out of range raise BAD_OPERAND. -/
def Obligations.StampGlyphPaintsExactlyItsPixels : Prop :=
  ∀ s : State,
    let ox := (s.arg0.extractLsb' 0 16).toInt
    let wl := (s.arg0.extractLsb' 16 16).toNat
    let bits := s.arg1.extractLsb' 0 8
    let k := s.arg1.extractLsb' 8 8
    (wl ≤ 600 → k ∈ ([0, 1, 2, 3, 5, 6] : List Byte) → s.arg1.extractLsb' 16 16 = 0 →
      ∃ m, exec .stampGlyph s = .next { s with mem := m, run := false, seq := [] } ∧
        (∀ x, x < 600 →
          (stampCovers ox wl bits x →
            linePixel { s with mem := m, run := false, seq := [] } x = k.extractLsb' 0 4) ∧
          (¬ stampCovers ox wl bits x →
            linePixel { s with mem := m, run := false, seq := [] } x = linePixel s x)) ∧
        ∀ a, ¬ (0x200 ≤ a ∧ a < 0x32C) →
          State.ram { s with mem := m, run := false, seq := [] } a = s.ram a) ∧
    ((600 < wl ∨ k ∉ ([0, 1, 2, 3, 5, 6] : List Byte) ∨ s.arg1.extractLsb' 16 16 ≠ 0) →
      exec .stampGlyph s = .next (s.errorEntry .badOperand))

/-- R345: the Master stamp at X0 and the Slave stamp at X0 - 600, each with width limit 600, together
paint exactly the pixels of one stamp at X0 over a 1200-pixel line. -/
def Obligations.SplitStampIsLossless : Prop :=
  ∀ (X0 : Int) (bits : Byte) (X : Nat), X < 1200 →
    ((X < 600 ∧ X ∈ stampPixels X0 600 bits) ∨
      (600 ≤ X ∧ X - 600 ∈ stampPixels (X0 - 600) 600 bits) ↔
      X0 ≤ X ∧ (X : Int) < X0 + 32 ∧ bits.getLsbD (((X : Int) - X0) / 4).toNat = true)

/-! ### The composer -/

/-- R373, R374 and R376: bands, text windows and text colors. The numbers 0, 1 and 2 of black, white
and yellow are the spec's own general knowledge (G1, log entry 18). -/
def Obligations.BandsWindowsAndTextColors : Prop :=
  (∀ y, y < 1600 → bandStart (bandOf y) ≤ y ∧ y < bandStart (bandOf y) + bandRows (bandOf y)) ∧
  (∀ b : Fin 6, bandStart b = 266 * b.val ∧ bandRows b = (if b.val = 5 then 270 else 266)) ∧
  windowTop 0 = 101 ∧ windowTop 1 = 367 ∧ windowTop 2 = 633 ∧ windowTop 3 = 899 ∧
  windowTop 4 = 1165 ∧ windowTop 5 = 1433 ∧
  (∀ bg : Color, colorNibble (textColor bg) =
    if colorNibble bg = 1 ∨ colorNibble bg = 2 then 0 else 1)

/-- A rendered scanline: LINEBUF pixel x of half h is the text color where a character of the band's
text covers absolute pixel (y, HALF_OFFSET(h) + x), and the band's background elsewhere; every RAM
byte outside LINEBUF is as before. -/
def Obligations.RenderedLineShowsBandAndText : Prop :=
  ∀ (s : State) (h : Half) (y : Nat), y < 1600 →
    (∀ x, x < 600 →
      (textCovers s y (halfOffset h + x) →
        linePixel (renderLine h y s) x = colorNibble (textColor (s.cfg.bandColor[(bandOf y).val]))) ∧
      (¬ textCovers s y (halfOffset h + x) →
        linePixel (renderLine h y s) x = colorNibble (s.cfg.bandColor[(bandOf y).val]))) ∧
    ∀ a, ¬ (0x200 ≤ a ∧ a < 0x32C) → (renderLine h y s).ram a = s.ram a

/-- CLEAR k from the idle levels: a Master session and then a Slave session of 480000 bytes
(k << 4) | k each, the display update, LINECNT = 1600 and LIFE = Displaying. That DC keeps the level
of the last byte is log entry 11. -/
def Obligations.ClearStreamsBothHalves : Prop :=
  ∀ (s : State) (c : Byte) (k j : Nat) (rest : List Bool), undisturbed s → s.session = none →
    s.csM = true → s.csS = true → c ∈ ([0, 1, 2, 3, 5, 6] : List Byte) →
    answersAfter s k (List.replicate j false ++ true :: rest) →
    (∀ n : ℕ+, s.cfg.busyPollLimit = some n → j < n) →
    ∃ u, exec (.clear c) s = .next u ∧ ∃ n m hc, RunsTo n u
      { s with
        life := .displaying, linecnt := 1600, busyIn := rest, busys := true, hcount := hc,
        dc := true, mem := m,
        trace := s.trace ++ sessionEvents .master (List.replicate 480000 ((c <<< 4) ||| c)) ++
          sessionEvents .slave (List.replicate 480000 ((c <<< 4) ||| c)) ++
          powerOnEvents k ++ refreshEvents j,
        run := false, seq := [] } ∧
      ∀ a, State.ram { s with mem := m } a =
        if 0x200 ≤ a ∧ a < 0x32C then (c <<< 4) ||| c else s.ram a

/-- SPLASH from the idle levels, every TEXTLEN at most 64: the rendered scanlines of the Master half
and then of the Slave half, each half in a session of its own, and the display update; LINEBUF ends
holding scanline 1599 of the Slave half. That DC keeps the level of the last byte is log entry 11. -/
def Obligations.SplashStreamsRenderedHalves : Prop :=
  ∀ (s : State) (k j : Nat) (rest : List Bool), undisturbed s → s.session = none →
    s.csM = true → s.csS = true → (∀ b : Fin 6, (s.textlen[b.val]).toNat ≤ 64) →
    answersAfter s k (List.replicate j false ++ true :: rest) →
    (∀ n : ℕ+, s.cfg.busyPollLimit = some n → j < n) →
    ∃ u, exec .splash s = .next u ∧ ∃ n m hc, RunsTo n u
      { s with
        life := .displaying, linecnt := 1600, busyIn := rest, busys := true, hcount := hc,
        dc := true, mem := m,
        trace := s.trace ++ sessionEvents .master (splashBytes s .master) ++
          sessionEvents .slave (splashBytes s .slave) ++ powerOnEvents k ++ refreshEvents j,
        run := false, seq := [] } ∧
      State.linebuf { s with mem := m } = (renderLine .slave 1599 s).linebuf ∧
      ∀ a, ¬ (0x200 ≤ a ∧ a < 0x32C) → State.ram { s with mem := m } a = s.ram a

/-- The checks of CLEAR and SPLASH: a color that is no code and a TEXTLEN above 64 raise BAD_OPERAND
before the session and the chip-selects are looked at (R370, R384, R421). -/
def Obligations.ComposerChecksInOrder : Prop :=
  ∀ (s : State) (c : Byte),
    (c ∉ ([0, 1, 2, 3, 5, 6] : List Byte) →
      exec (.clear c) s = .next (s.errorEntry .badOperand)) ∧
    ((∃ b : Fin 6, 64 < (s.textlen[b.val]).toNat) →
      exec .splash s = .next (s.errorEntry .badOperand)) ∧
    (c ∈ ([0, 1, 2, 3, 5, 6] : List Byte) →
      (s.session ≠ none → exec (.clear c) s = .next (s.errorEntry .sessionOpen)) ∧
      (s.session = none → (s.csM = false ∨ s.csS = false) →
        exec (.clear c) s = .next (s.errorEntry .csConflict))) ∧
    ((∀ b : Fin 6, (s.textlen[b.val]).toNat ≤ 64) →
      (s.session ≠ none → exec .splash s = .next (s.errorEntry .sessionOpen)) ∧
      (s.session = none → (s.csM = false ∨ s.csS = false) →
        exec .splash s = .next (s.errorEntry .csConflict)))

/-- R387: the image that the events of a splash give the panel, after any earlier trace. That a half
ignores the bytes sent while its chip-select is high, on which the received image of R126 rests, is
the spec's own general knowledge (G4, R117; log entry 18). -/
def Obligations.SplashImageIsReceived : Prop :=
  ∀ (s : State) (tr : List Event) (k j y X : Nat), y < 1600 → X < 1200 →
    let image := tr ++ sessionEvents .master (splashBytes s .master) ++
      sessionEvents .slave (splashBytes s .slave) ++ powerOnEvents k ++ refreshEvents j
    (textCovers s y X →
      panelPixel image y X = some (colorNibble (textColor (s.cfg.bandColor[(bandOf y).val])))) ∧
    (¬ textCovers s y X →
      panelPixel image y X = some (colorNibble (s.cfg.bandColor[(bandOf y).val])))

/-! ### The panel commands -/

/-- R156 to R160: what each panel command puts on the wire when the sequencer reaches its byte,
whatever is left of the running operation. 0x10 is one byte at the levels that stand; the others are
framed to both halves, 0x04 and 0x12 with a busy wait after the frame, 0x02 with none, 0x07 with a
100 ms delay. The operation then goes on where it was: `settle` makes the assignments that stand
before its next event (log entry 6). That these are instructions of the sequencer is log entry 8, and
that DC keeps the level of the last byte log entry 11. -/
def Obligations.PanelCommandsFrameTheirBytes : Prop :=
  ∀ (s : State), undisturbed s →
    (∃ u, exec .wireLineWrite s = .next u ∧ RunsTo 1 u (State.settle s.seq
      { s with dc := false, trace := s.trace ++ [.tx .cmd 0x10 s.csM s.csS] })) ∧
    (∃ u, exec .wirePowerOff s = .next u ∧ RunsTo 4 u (State.settle s.seq
      { s with
        csM := true, csS := true, dc := true, trace := s.trace ++ frameBothEvents 0x02 [0x00] })) ∧
    (∃ u, exec .wireDeepSleep s = .next u ∧ RunsTo 5 u (State.settle s.seq
      { s with
        csM := true, csS := true, dc := true,
        trace := s.trace ++ frameBothEvents 0x07 [0xA5] ++ [.delay 100] })) ∧
    ∀ (k : Nat) (rest : List Bool), answersAfter s k rest →
      (∃ u, exec .wirePowerOn s = .next u ∧ ∃ n hc, RunsTo n u (State.settle s.seq
        { s with
          csM := true, csS := true, dc := false, busyIn := rest, busys := true, hcount := hc,
          trace := s.trace ++ frameBothEvents 0x04 [] ++ waitEvents k })) ∧
      (∃ u, exec .wireDataRefresh s = .next u ∧ ∃ n hc, RunsTo n u (State.settle s.seq
        { s with
          csM := true, csS := true, dc := true, busyIn := rest, busys := true, hcount := hc,
          trace := s.trace ++ frameBothEvents 0x12 [0x00] ++ waitEvents k }))

/-! ### Frames over all instructions -/

/-- RESULT changes only by GLYPH_INDEX, by GLYPH_ROW, or by a reset (R47, R451, R450). -/
def Obligations.OnlyGlyphOperationsWriteResult : Prop :=
  ∀ s s' : State, step s = .next s' → s'.result ≠ s.result →
    (s.seq.head? = some .start ∧
      ((∃ ch, decode s.op = .ok (.glyphIndex ch)) ∨ decode s.op = .ok .glyphRow)) ∨
    (∃ w ts, s.turns = .host (.write 4 0x004 w) :: ts ∧ w.getLsbD 0 = true) ∨
    ∃ ts, s.turns = .hardwareReset :: ts

/-- A move of the sequencer, with no turn listed, at its own turn or under WAITIDLE, leaves the
operand registers, the texts' lengths, and PAYLOAD and TEXT as they are (R48, R120): whatever it does
to the RAMs it does to LINEBUF. -/
def Obligations.SequencerKeepsItsOperands : Prop :=
  ∀ s s' : State, sequencerIsNext s → step s = .next s' →
    s'.op = s.op ∧ s'.arg0 = s.arg0 ∧ s'.arg1 = s.arg1 ∧ s'.textlen = s.textlen ∧
    s'.ovr = s.ovr ∧ s'.boot = s.boot ∧ s'.hostReads = s.hostReads ∧
    ∀ a, ¬ (0x200 ≤ a ∧ a < 0x32C) → s'.ram a = s.ram a

/-- R55: no operation checks LIFE. From two states that differ in LIFE alone, exec of any instruction
and every move of the sequencer, at the start of an operation and at any later point of it, answer
alike but for LIFE. -/
def Obligations.NoOperationChecksLife : Prop :=
  (∀ (i : Instr) (s : State) (l : Life), ∃ t t',
    exec i s = .next t ∧ exec i { s with life := l } = .next t' ∧ { t' with life := t.life } = t) ∧
  ∀ (s : State) (l : Life), sequencerIsNext s → ∃ t t',
    step s = .next t ∧ step { s with life := l } = .next t' ∧ { t' with life := t.life } = t
end

