-- ==== Sys2Proof/Laws/Memory.lean ====
section
/-! SUPPORT. What a write to the RAMs does, said once: the bytes inside it, the bytes outside it,
and that the canonical form is kept. -/

namespace Sys2Proof.Machine

@[simp] theorem cellsFrom_length (a : Nat) (bs : List Byte) : (cellsFrom a bs).length = bs.length := by
  induction bs generalizing a with
  | nil => rfl
  | cons b bs ih => simp [cellsFrom, ih]

theorem cellsFrom_key {a : Nat} {bs : List Byte} {c : Host.Cell} (h : c ∈ cellsFrom a bs) :
    a ≤ c.1 ∧ c.1 < a + bs.length := by
  induction bs generalizing a with
  | nil => simp [cellsFrom] at h
  | cons b bs ih =>
    simp only [cellsFrom, List.mem_cons] at h
    rcases h with rfl | h
    · simp
    · have := ih h; simp only [List.length_cons]; omega

theorem cellsFrom_rising (a : Nat) (bs : List Byte) :
    (cellsFrom a bs).Pairwise (fun x y => x.1 < y.1) := by
  induction bs generalizing a with
  | nil => simp [cellsFrom]
  | cons b bs ih =>
    refine List.pairwise_cons.2 ⟨fun c hc => ?_, ih _⟩
    have := (cellsFrom_key hc).1
    simp only; omega

/-- Looking up a byte in a run of cells. -/
theorem byte?_cellsFrom (a : Nat) (bs : List Byte) (x : Nat) :
    Memory.byte? (cellsFrom a bs) x = if a ≤ x then bs[x - a]? else none := by
  induction bs generalizing a with
  | nil => simp [cellsFrom, Memory.byte?]
  | cons b bs ih =>
    have ih' := ih (a + 1)
    simp only [Memory.byte?] at ih' ⊢
    rw [cellsFrom, List.find?_cons]
    by_cases hax : a = x
    · subst hax; simp
    · rw [show ((a, b).1 == x) = false by simpa using hax]
      simp only [ih']
      by_cases h1 : a ≤ x
      · have h2 : a + 1 ≤ x := by omega
        rw [if_pos h2, if_pos h1, show x - a = (x - (a + 1)) + 1 by omega, List.getElem?_cons_succ]
      · rw [if_neg h1, if_neg (by omega)]

theorem byte?_append (m n : Memory) (x : Nat) :
    Memory.byte? (m ++ n) x = (Memory.byte? m x).or (Memory.byte? n x) := by
  simp only [Memory.byte?, List.find?_append]
  cases List.find? (fun c => c.1 == x) m <;> simp

/-- A filter that keeps an offset does not change what is found there; one that drops it finds
nothing. -/
theorem byte?_filter (m : Memory) (p : Nat → Bool) (x : Nat) :
    Memory.byte? (m.filter (fun c => p c.1)) x = if p x then m.byte? x else none := by
  induction m with
  | nil => simp [Memory.byte?]
  | cons c m ih =>
    simp only [Memory.byte?] at ih ⊢
    by_cases hk : c.1 = x
    · by_cases hp : p x <;> simp_all <;> assumption
    · by_cases hp : p c.1 <;> simp_all

/-- A byte inside a write is the byte written, and one outside it is as before. -/
theorem byte?_writeBytes (m : Memory) (a : Nat) (bs : List Byte) (x : Nat) :
    (m.writeBytes a bs).byte? x =
      if a ≤ x ∧ x < a + bs.length then bs[x - a]? else m.byte? x := by
  rw [Memory.writeBytes, byte?_append, byte?_append, byte?_cellsFrom,
    byte?_filter m (fun k => decide (k < a)), byte?_filter m (fun k => decide (a + bs.length ≤ k))]
  by_cases h1 : x < a
  · have : ¬ a ≤ x := by omega
    have h3 : ¬ a + bs.length ≤ x := by omega
    simp [h1, this, h3]
  · by_cases h2 : x < a + bs.length
    · have h3 : ¬ a + bs.length ≤ x := by omega
      have h4 : a ≤ x := by omega
      simp [h1, h2, h3, h4]
    · have h3 : a + bs.length ≤ x := by omega
      have h4 : a ≤ x := by omega
      have h5 : bs[x - a]? = none := List.getElem?_eq_none (by omega)
      simp [h1, h2, h3, h4, h5]

/-- A write inside the RAMs keeps the canonical form. -/
theorem writeBytes_wf {m : Memory} (h : m.wf) (a : Nat) (bs : List Byte)
    (hr : ∀ x, a ≤ x → x < a + bs.length → isRam x = true) : (m.writeBytes a bs).wf := by
  obtain ⟨hp, hm⟩ := h
  have hlow : ∀ c ∈ m.filter (fun c => decide (c.1 < a)), c.1 < a := fun c hc => by
    simpa using (List.mem_filter.1 hc).2
  have hhigh : ∀ c ∈ m.filter (fun c => decide (a + bs.length ≤ c.1)), a + bs.length ≤ c.1 :=
    fun c hc => by simpa using (List.mem_filter.1 hc).2
  refine ⟨?_, fun c hc => ?_⟩
  · rw [Memory.writeBytes, List.pairwise_append, List.pairwise_append]
    refine ⟨⟨hp.filter _, cellsFrom_rising a bs, fun x hx y hy => ?_⟩, hp.filter _,
      fun x hx y hy => ?_⟩
    · have := hlow x hx; have := (cellsFrom_key hy).1; omega
    · have h2 := hhigh y hy
      rcases List.mem_append.1 hx with hx | hx
      · have := hlow x hx; omega
      · have := (cellsFrom_key hx).2; omega
  · simp only [Memory.writeBytes, List.mem_append, List.mem_filter] at hc
    rcases hc with (hc | hc) | hc
    · exact hm c hc.1
    · exact hr c.1 (cellsFrom_key hc).1 (cellsFrom_key hc).2
    · exact hm c hc.1

namespace State

@[simp] theorem ramBytes_length (s : State) (a n : Nat) : (s.ramBytes a n).length = n := by
  induction n generalizing a with
  | zero => rfl
  | succ n ih => simp [ramBytes, ih]

theorem ramBytes_get (s : State) (a n i : Nat) :
    (s.ramBytes a n)[i]? = if i < n then some (s.ram (a + i)) else none := by
  induction n generalizing a i with
  | zero => simp [ramBytes]
  | succ n ih =>
    cases i with
    | zero => simp [ramBytes]
    | succ i => simp [ramBytes, ih, Nat.add_assoc, Nat.add_comm 1 i]

@[simp] theorem linebuf_length (s : State) : s.linebuf.length = lineBytes := s.ramBytes_length _ _

/-- Two states that agree on a run of bytes read the same there. -/
theorem ramBytes_congr {s t : State} (a n : Nat)
    (h : ∀ x, a ≤ x → x < a + n → s.ram x = t.ram x) : s.ramBytes a n = t.ramBytes a n := by
  induction n generalizing a with
  | zero => rfl
  | succ n ih =>
    rw [ramBytes, ramBytes, h a (le_refl a) (by omega),
      ih (a + 1) (fun x h1 h2 => h x (by omega) (by omega))]

/-- A byte read after a write: the byte written inside it, as before outside it. -/
theorem ram_writeRam (s : State) (a : Nat) (bs : List Byte) (x : Nat) :
    (s.writeRam a bs).ram x =
      if h : a ≤ x ∧ x < a + bs.length then bs[x - a]'(by omega) else s.ram x := by
  unfold ram writeRam
  simp only [byte?_writeBytes]
  by_cases h : a ≤ x ∧ x < a + bs.length
  · have hl : x - a < bs.length := by omega
    simp [h, List.getElem?_eq_getElem hl]
  · simp [h]

/-- A write of one byte (R330). -/
theorem ram_writeRam_one (s : State) (a : Nat) (b : Byte) (x : Nat) :
    (s.writeRam a [b]).ram x = if x = a then b else s.ram x := by
  rw [ram_writeRam]
  by_cases h : x = a
  · subst h; simp
  · rw [dif_neg (by simp; omega), if_neg h]

end State
end Sys2Proof.Machine
end

