-- ==== Sys2Proof/Laws/State.lean ====
section
/-! SUPPORT. One lemma per field per update of the state, so that no proof unfolds a record
update: what each named operation leaves in each field. -/

namespace Sys2Proof.Machine
namespace State

/-! ### withSeq -/

@[simp] theorem withSeq_cfg (s : State) (q : List Micro) : (s.withSeq q).cfg = s.cfg := rfl
@[simp] theorem withSeq_op (s : State) (q : List Micro) : (s.withSeq q).op = s.op := rfl
@[simp] theorem withSeq_arg0 (s : State) (q : List Micro) : (s.withSeq q).arg0 = s.arg0 := rfl
@[simp] theorem withSeq_arg1 (s : State) (q : List Micro) : (s.withSeq q).arg1 = s.arg1 := rfl
@[simp] theorem withSeq_result (s : State) (q : List Micro) : (s.withSeq q).result = s.result := rfl
@[simp] theorem withSeq_linecnt (s : State) (q : List Micro) : (s.withSeq q).linecnt = s.linecnt := rfl
@[simp] theorem withSeq_errcode (s : State) (q : List Micro) : (s.withSeq q).errcode = s.errcode := rfl
@[simp] theorem withSeq_errop (s : State) (q : List Micro) : (s.withSeq q).errop = s.errop := rfl
@[simp] theorem withSeq_textlen (s : State) (q : List Micro) : (s.withSeq q).textlen = s.textlen := rfl
@[simp] theorem withSeq_run (s : State) (q : List Micro) : (s.withSeq q).run = s.run := rfl
@[simp] theorem withSeq_err (s : State) (q : List Micro) : (s.withSeq q).err = s.err := rfl
@[simp] theorem withSeq_ovr (s : State) (q : List Micro) : (s.withSeq q).ovr = s.ovr := rfl
@[simp] theorem withSeq_session (s : State) (q : List Micro) : (s.withSeq q).session = s.session := rfl
@[simp] theorem withSeq_life (s : State) (q : List Micro) : (s.withSeq q).life = s.life := rfl
@[simp] theorem withSeq_csM (s : State) (q : List Micro) : (s.withSeq q).csM = s.csM := rfl
@[simp] theorem withSeq_csS (s : State) (q : List Micro) : (s.withSeq q).csS = s.csS := rfl
@[simp] theorem withSeq_rstl (s : State) (q : List Micro) : (s.withSeq q).rstl = s.rstl := rfl
@[simp] theorem withSeq_pwrl (s : State) (q : List Micro) : (s.withSeq q).pwrl = s.pwrl := rfl
@[simp] theorem withSeq_busys (s : State) (q : List Micro) : (s.withSeq q).busys = s.busys := rfl
@[simp] theorem withSeq_dc (s : State) (q : List Micro) : (s.withSeq q).dc = s.dc := rfl
@[simp] theorem withSeq_hcount (s : State) (q : List Micro) : (s.withSeq q).hcount = s.hcount := rfl
@[simp] theorem withSeq_mem (s : State) (q : List Micro) : (s.withSeq q).mem = s.mem := rfl
@[simp] theorem withSeq_seq (s : State) (q : List Micro) : (s.withSeq q).seq = q := rfl
@[simp] theorem withSeq_trace (s : State) (q : List Micro) : (s.withSeq q).trace = s.trace := rfl
@[simp] theorem withSeq_turns (s : State) (q : List Micro) : (s.withSeq q).turns = s.turns := rfl
@[simp] theorem withSeq_busyIn (s : State) (q : List Micro) : (s.withSeq q).busyIn = s.busyIn := rfl
@[simp] theorem withSeq_hostReads (s : State) (q : List Micro) : (s.withSeq q).hostReads = s.hostReads := rfl
@[simp] theorem withSeq_draws (s : State) (q : List Micro) : (s.withSeq q).draws = s.draws := rfl
@[simp] theorem withSeq_boot (s : State) (q : List Micro) : (s.withSeq q).boot = s.boot := rfl

/-! ### withTurns -/

@[simp] theorem withTurns_cfg (s : State) (ts : List Turn) : (s.withTurns ts).cfg = s.cfg := rfl
@[simp] theorem withTurns_op (s : State) (ts : List Turn) : (s.withTurns ts).op = s.op := rfl
@[simp] theorem withTurns_arg0 (s : State) (ts : List Turn) : (s.withTurns ts).arg0 = s.arg0 := rfl
@[simp] theorem withTurns_arg1 (s : State) (ts : List Turn) : (s.withTurns ts).arg1 = s.arg1 := rfl
@[simp] theorem withTurns_result (s : State) (ts : List Turn) : (s.withTurns ts).result = s.result := rfl
@[simp] theorem withTurns_linecnt (s : State) (ts : List Turn) : (s.withTurns ts).linecnt = s.linecnt := rfl
@[simp] theorem withTurns_errcode (s : State) (ts : List Turn) : (s.withTurns ts).errcode = s.errcode := rfl
@[simp] theorem withTurns_errop (s : State) (ts : List Turn) : (s.withTurns ts).errop = s.errop := rfl
@[simp] theorem withTurns_textlen (s : State) (ts : List Turn) : (s.withTurns ts).textlen = s.textlen := rfl
@[simp] theorem withTurns_run (s : State) (ts : List Turn) : (s.withTurns ts).run = s.run := rfl
@[simp] theorem withTurns_err (s : State) (ts : List Turn) : (s.withTurns ts).err = s.err := rfl
@[simp] theorem withTurns_ovr (s : State) (ts : List Turn) : (s.withTurns ts).ovr = s.ovr := rfl
@[simp] theorem withTurns_session (s : State) (ts : List Turn) : (s.withTurns ts).session = s.session := rfl
@[simp] theorem withTurns_life (s : State) (ts : List Turn) : (s.withTurns ts).life = s.life := rfl
@[simp] theorem withTurns_csM (s : State) (ts : List Turn) : (s.withTurns ts).csM = s.csM := rfl
@[simp] theorem withTurns_csS (s : State) (ts : List Turn) : (s.withTurns ts).csS = s.csS := rfl
@[simp] theorem withTurns_rstl (s : State) (ts : List Turn) : (s.withTurns ts).rstl = s.rstl := rfl
@[simp] theorem withTurns_pwrl (s : State) (ts : List Turn) : (s.withTurns ts).pwrl = s.pwrl := rfl
@[simp] theorem withTurns_busys (s : State) (ts : List Turn) : (s.withTurns ts).busys = s.busys := rfl
@[simp] theorem withTurns_dc (s : State) (ts : List Turn) : (s.withTurns ts).dc = s.dc := rfl
@[simp] theorem withTurns_hcount (s : State) (ts : List Turn) : (s.withTurns ts).hcount = s.hcount := rfl
@[simp] theorem withTurns_mem (s : State) (ts : List Turn) : (s.withTurns ts).mem = s.mem := rfl
@[simp] theorem withTurns_seq (s : State) (ts : List Turn) : (s.withTurns ts).seq = s.seq := rfl
@[simp] theorem withTurns_trace (s : State) (ts : List Turn) : (s.withTurns ts).trace = s.trace := rfl
@[simp] theorem withTurns_turns (s : State) (ts : List Turn) : (s.withTurns ts).turns = ts := rfl
@[simp] theorem withTurns_busyIn (s : State) (ts : List Turn) : (s.withTurns ts).busyIn = s.busyIn := rfl
@[simp] theorem withTurns_hostReads (s : State) (ts : List Turn) : (s.withTurns ts).hostReads = s.hostReads := rfl
@[simp] theorem withTurns_draws (s : State) (ts : List Turn) : (s.withTurns ts).draws = s.draws := rfl
@[simp] theorem withTurns_boot (s : State) (ts : List Turn) : (s.withTurns ts).boot = s.boot := rfl

/-! ### complete -/

@[simp] theorem complete_cfg (s : State) : (s.complete).cfg = s.cfg := rfl
@[simp] theorem complete_op (s : State) : (s.complete).op = s.op := rfl
@[simp] theorem complete_arg0 (s : State) : (s.complete).arg0 = s.arg0 := rfl
@[simp] theorem complete_arg1 (s : State) : (s.complete).arg1 = s.arg1 := rfl
@[simp] theorem complete_result (s : State) : (s.complete).result = s.result := rfl
@[simp] theorem complete_linecnt (s : State) : (s.complete).linecnt = s.linecnt := rfl
@[simp] theorem complete_errcode (s : State) : (s.complete).errcode = s.errcode := rfl
@[simp] theorem complete_errop (s : State) : (s.complete).errop = s.errop := rfl
@[simp] theorem complete_textlen (s : State) : (s.complete).textlen = s.textlen := rfl
@[simp] theorem complete_run (s : State) : (s.complete).run = false := rfl
@[simp] theorem complete_err (s : State) : (s.complete).err = s.err := rfl
@[simp] theorem complete_ovr (s : State) : (s.complete).ovr = s.ovr := rfl
@[simp] theorem complete_session (s : State) : (s.complete).session = s.session := rfl
@[simp] theorem complete_life (s : State) : (s.complete).life = s.life := rfl
@[simp] theorem complete_csM (s : State) : (s.complete).csM = s.csM := rfl
@[simp] theorem complete_csS (s : State) : (s.complete).csS = s.csS := rfl
@[simp] theorem complete_rstl (s : State) : (s.complete).rstl = s.rstl := rfl
@[simp] theorem complete_pwrl (s : State) : (s.complete).pwrl = s.pwrl := rfl
@[simp] theorem complete_busys (s : State) : (s.complete).busys = s.busys := rfl
@[simp] theorem complete_dc (s : State) : (s.complete).dc = s.dc := rfl
@[simp] theorem complete_hcount (s : State) : (s.complete).hcount = s.hcount := rfl
@[simp] theorem complete_mem (s : State) : (s.complete).mem = s.mem := rfl
@[simp] theorem complete_seq (s : State) : (s.complete).seq = [] := rfl
@[simp] theorem complete_trace (s : State) : (s.complete).trace = s.trace := rfl
@[simp] theorem complete_turns (s : State) : (s.complete).turns = s.turns := rfl
@[simp] theorem complete_busyIn (s : State) : (s.complete).busyIn = s.busyIn := rfl
@[simp] theorem complete_hostReads (s : State) : (s.complete).hostReads = s.hostReads := rfl
@[simp] theorem complete_draws (s : State) : (s.complete).draws = s.draws := rfl
@[simp] theorem complete_boot (s : State) : (s.complete).boot = s.boot := rfl

/-! ### errClear -/

@[simp] theorem errClear_cfg (s : State) : (s.errClear).cfg = s.cfg := rfl
@[simp] theorem errClear_op (s : State) : (s.errClear).op = s.op := rfl
@[simp] theorem errClear_arg0 (s : State) : (s.errClear).arg0 = s.arg0 := rfl
@[simp] theorem errClear_arg1 (s : State) : (s.errClear).arg1 = s.arg1 := rfl
@[simp] theorem errClear_result (s : State) : (s.errClear).result = s.result := rfl
@[simp] theorem errClear_linecnt (s : State) : (s.errClear).linecnt = s.linecnt := rfl
@[simp] theorem errClear_errcode (s : State) : (s.errClear).errcode = none := rfl
@[simp] theorem errClear_errop (s : State) : (s.errClear).errop = 0 := rfl
@[simp] theorem errClear_textlen (s : State) : (s.errClear).textlen = s.textlen := rfl
@[simp] theorem errClear_run (s : State) : (s.errClear).run = s.run := rfl
@[simp] theorem errClear_err (s : State) : (s.errClear).err = false := rfl
@[simp] theorem errClear_ovr (s : State) : (s.errClear).ovr = s.ovr := rfl
@[simp] theorem errClear_session (s : State) : (s.errClear).session = s.session := rfl
@[simp] theorem errClear_life (s : State) : (s.errClear).life = s.life := rfl
@[simp] theorem errClear_csM (s : State) : (s.errClear).csM = s.csM := rfl
@[simp] theorem errClear_csS (s : State) : (s.errClear).csS = s.csS := rfl
@[simp] theorem errClear_rstl (s : State) : (s.errClear).rstl = s.rstl := rfl
@[simp] theorem errClear_pwrl (s : State) : (s.errClear).pwrl = s.pwrl := rfl
@[simp] theorem errClear_busys (s : State) : (s.errClear).busys = s.busys := rfl
@[simp] theorem errClear_dc (s : State) : (s.errClear).dc = s.dc := rfl
@[simp] theorem errClear_hcount (s : State) : (s.errClear).hcount = s.hcount := rfl
@[simp] theorem errClear_mem (s : State) : (s.errClear).mem = s.mem := rfl
@[simp] theorem errClear_seq (s : State) : (s.errClear).seq = s.seq := rfl
@[simp] theorem errClear_trace (s : State) : (s.errClear).trace = s.trace := rfl
@[simp] theorem errClear_turns (s : State) : (s.errClear).turns = s.turns := rfl
@[simp] theorem errClear_busyIn (s : State) : (s.errClear).busyIn = s.busyIn := rfl
@[simp] theorem errClear_hostReads (s : State) : (s.errClear).hostReads = s.hostReads := rfl
@[simp] theorem errClear_draws (s : State) : (s.errClear).draws = s.draws := rfl
@[simp] theorem errClear_boot (s : State) : (s.errClear).boot = s.boot := rfl

/-! ### ovrClear -/

@[simp] theorem ovrClear_cfg (s : State) : (s.ovrClear).cfg = s.cfg := rfl
@[simp] theorem ovrClear_op (s : State) : (s.ovrClear).op = s.op := rfl
@[simp] theorem ovrClear_arg0 (s : State) : (s.ovrClear).arg0 = s.arg0 := rfl
@[simp] theorem ovrClear_arg1 (s : State) : (s.ovrClear).arg1 = s.arg1 := rfl
@[simp] theorem ovrClear_result (s : State) : (s.ovrClear).result = s.result := rfl
@[simp] theorem ovrClear_linecnt (s : State) : (s.ovrClear).linecnt = s.linecnt := rfl
@[simp] theorem ovrClear_errcode (s : State) : (s.ovrClear).errcode = s.errcode := rfl
@[simp] theorem ovrClear_errop (s : State) : (s.ovrClear).errop = s.errop := rfl
@[simp] theorem ovrClear_textlen (s : State) : (s.ovrClear).textlen = s.textlen := rfl
@[simp] theorem ovrClear_run (s : State) : (s.ovrClear).run = s.run := rfl
@[simp] theorem ovrClear_err (s : State) : (s.ovrClear).err = s.err := rfl
@[simp] theorem ovrClear_ovr (s : State) : (s.ovrClear).ovr = false := rfl
@[simp] theorem ovrClear_session (s : State) : (s.ovrClear).session = s.session := rfl
@[simp] theorem ovrClear_life (s : State) : (s.ovrClear).life = s.life := rfl
@[simp] theorem ovrClear_csM (s : State) : (s.ovrClear).csM = s.csM := rfl
@[simp] theorem ovrClear_csS (s : State) : (s.ovrClear).csS = s.csS := rfl
@[simp] theorem ovrClear_rstl (s : State) : (s.ovrClear).rstl = s.rstl := rfl
@[simp] theorem ovrClear_pwrl (s : State) : (s.ovrClear).pwrl = s.pwrl := rfl
@[simp] theorem ovrClear_busys (s : State) : (s.ovrClear).busys = s.busys := rfl
@[simp] theorem ovrClear_dc (s : State) : (s.ovrClear).dc = s.dc := rfl
@[simp] theorem ovrClear_hcount (s : State) : (s.ovrClear).hcount = s.hcount := rfl
@[simp] theorem ovrClear_mem (s : State) : (s.ovrClear).mem = s.mem := rfl
@[simp] theorem ovrClear_seq (s : State) : (s.ovrClear).seq = s.seq := rfl
@[simp] theorem ovrClear_trace (s : State) : (s.ovrClear).trace = s.trace := rfl
@[simp] theorem ovrClear_turns (s : State) : (s.ovrClear).turns = s.turns := rfl
@[simp] theorem ovrClear_busyIn (s : State) : (s.ovrClear).busyIn = s.busyIn := rfl
@[simp] theorem ovrClear_hostReads (s : State) : (s.ovrClear).hostReads = s.hostReads := rfl
@[simp] theorem ovrClear_draws (s : State) : (s.ovrClear).draws = s.draws := rfl
@[simp] theorem ovrClear_boot (s : State) : (s.ovrClear).boot = s.boot := rfl

/-! ### writeRam -/

@[simp] theorem writeRam_cfg (s : State) (a : Nat) (bs : List Byte) : (s.writeRam a bs).cfg = s.cfg := rfl
@[simp] theorem writeRam_op (s : State) (a : Nat) (bs : List Byte) : (s.writeRam a bs).op = s.op := rfl
@[simp] theorem writeRam_arg0 (s : State) (a : Nat) (bs : List Byte) : (s.writeRam a bs).arg0 = s.arg0 := rfl
@[simp] theorem writeRam_arg1 (s : State) (a : Nat) (bs : List Byte) : (s.writeRam a bs).arg1 = s.arg1 := rfl
@[simp] theorem writeRam_result (s : State) (a : Nat) (bs : List Byte) : (s.writeRam a bs).result = s.result := rfl
@[simp] theorem writeRam_linecnt (s : State) (a : Nat) (bs : List Byte) : (s.writeRam a bs).linecnt = s.linecnt := rfl
@[simp] theorem writeRam_errcode (s : State) (a : Nat) (bs : List Byte) : (s.writeRam a bs).errcode = s.errcode := rfl
@[simp] theorem writeRam_errop (s : State) (a : Nat) (bs : List Byte) : (s.writeRam a bs).errop = s.errop := rfl
@[simp] theorem writeRam_textlen (s : State) (a : Nat) (bs : List Byte) : (s.writeRam a bs).textlen = s.textlen := rfl
@[simp] theorem writeRam_run (s : State) (a : Nat) (bs : List Byte) : (s.writeRam a bs).run = s.run := rfl
@[simp] theorem writeRam_err (s : State) (a : Nat) (bs : List Byte) : (s.writeRam a bs).err = s.err := rfl
@[simp] theorem writeRam_ovr (s : State) (a : Nat) (bs : List Byte) : (s.writeRam a bs).ovr = s.ovr := rfl
@[simp] theorem writeRam_session (s : State) (a : Nat) (bs : List Byte) : (s.writeRam a bs).session = s.session := rfl
@[simp] theorem writeRam_life (s : State) (a : Nat) (bs : List Byte) : (s.writeRam a bs).life = s.life := rfl
@[simp] theorem writeRam_csM (s : State) (a : Nat) (bs : List Byte) : (s.writeRam a bs).csM = s.csM := rfl
@[simp] theorem writeRam_csS (s : State) (a : Nat) (bs : List Byte) : (s.writeRam a bs).csS = s.csS := rfl
@[simp] theorem writeRam_rstl (s : State) (a : Nat) (bs : List Byte) : (s.writeRam a bs).rstl = s.rstl := rfl
@[simp] theorem writeRam_pwrl (s : State) (a : Nat) (bs : List Byte) : (s.writeRam a bs).pwrl = s.pwrl := rfl
@[simp] theorem writeRam_busys (s : State) (a : Nat) (bs : List Byte) : (s.writeRam a bs).busys = s.busys := rfl
@[simp] theorem writeRam_dc (s : State) (a : Nat) (bs : List Byte) : (s.writeRam a bs).dc = s.dc := rfl
@[simp] theorem writeRam_hcount (s : State) (a : Nat) (bs : List Byte) : (s.writeRam a bs).hcount = s.hcount := rfl
@[simp] theorem writeRam_mem (s : State) (a : Nat) (bs : List Byte) : (s.writeRam a bs).mem = s.mem.writeBytes a bs := rfl
@[simp] theorem writeRam_seq (s : State) (a : Nat) (bs : List Byte) : (s.writeRam a bs).seq = s.seq := rfl
@[simp] theorem writeRam_trace (s : State) (a : Nat) (bs : List Byte) : (s.writeRam a bs).trace = s.trace := rfl
@[simp] theorem writeRam_turns (s : State) (a : Nat) (bs : List Byte) : (s.writeRam a bs).turns = s.turns := rfl
@[simp] theorem writeRam_busyIn (s : State) (a : Nat) (bs : List Byte) : (s.writeRam a bs).busyIn = s.busyIn := rfl
@[simp] theorem writeRam_hostReads (s : State) (a : Nat) (bs : List Byte) : (s.writeRam a bs).hostReads = s.hostReads := rfl
@[simp] theorem writeRam_draws (s : State) (a : Nat) (bs : List Byte) : (s.writeRam a bs).draws = s.draws := rfl
@[simp] theorem writeRam_boot (s : State) (a : Nat) (bs : List Byte) : (s.writeRam a bs).boot = s.boot := rfl

/-! ### Positions: the last one set counts, and events and assignments do not look at it -/

@[simp] theorem withSeq_withSeq (s : State) (p q : List Micro) :
    (s.withSeq p).withSeq q = s.withSeq q := rfl
@[simp] theorem withSeq_self (s : State) : s.withSeq s.seq = s := rfl
theorem prepend_eq (s : State) (p : List Micro) : s.prepend p = s.withSeq (p ++ s.seq) := rfl
@[simp] theorem complete_withSeq (s : State) (q : List Micro) :
    (s.withSeq q).complete = s.complete := rfl
@[simp] theorem applyAct_withSeq (s : State) (a : Act) (q : List Micro) :
    (s.withSeq q).applyAct a = (s.applyAct a).withSeq q := by
  cases a <;> rfl
@[simp] theorem emit_withSeq (s : State) (e : Event) (q : List Micro) :
    (s.withSeq q).emit e = (s.emit e).withSeq q := by
  rcases e with (_ | _ | _) | (_ | _) | _ | _ | _ | _ | _ <;> rfl

/-! ### emit: every event is appended; the driven levels change by their own events only -/

@[simp] theorem emit_trace (s : State) (e : Event) : (s.emit e).trace = s.trace ++ [e] := by
  rcases e with (_ | _ | _) | (_ | _) | _ | _ | _ | _ | _ <;> rfl

@[simp] theorem emit_cfg (s : State) (e : Event) : (s.emit e).cfg = s.cfg := by
  rcases e with (_ | _ | _) | (_ | _) | _ | _ | _ | _ | _ <;> rfl
@[simp] theorem emit_op (s : State) (e : Event) : (s.emit e).op = s.op := by
  rcases e with (_ | _ | _) | (_ | _) | _ | _ | _ | _ | _ <;> rfl
@[simp] theorem emit_arg0 (s : State) (e : Event) : (s.emit e).arg0 = s.arg0 := by
  rcases e with (_ | _ | _) | (_ | _) | _ | _ | _ | _ | _ <;> rfl
@[simp] theorem emit_arg1 (s : State) (e : Event) : (s.emit e).arg1 = s.arg1 := by
  rcases e with (_ | _ | _) | (_ | _) | _ | _ | _ | _ | _ <;> rfl
@[simp] theorem emit_result (s : State) (e : Event) : (s.emit e).result = s.result := by
  rcases e with (_ | _ | _) | (_ | _) | _ | _ | _ | _ | _ <;> rfl
@[simp] theorem emit_linecnt (s : State) (e : Event) : (s.emit e).linecnt = s.linecnt := by
  rcases e with (_ | _ | _) | (_ | _) | _ | _ | _ | _ | _ <;> rfl
@[simp] theorem emit_errcode (s : State) (e : Event) : (s.emit e).errcode = s.errcode := by
  rcases e with (_ | _ | _) | (_ | _) | _ | _ | _ | _ | _ <;> rfl
@[simp] theorem emit_errop (s : State) (e : Event) : (s.emit e).errop = s.errop := by
  rcases e with (_ | _ | _) | (_ | _) | _ | _ | _ | _ | _ <;> rfl
@[simp] theorem emit_textlen (s : State) (e : Event) : (s.emit e).textlen = s.textlen := by
  rcases e with (_ | _ | _) | (_ | _) | _ | _ | _ | _ | _ <;> rfl
@[simp] theorem emit_run (s : State) (e : Event) : (s.emit e).run = s.run := by
  rcases e with (_ | _ | _) | (_ | _) | _ | _ | _ | _ | _ <;> rfl
@[simp] theorem emit_err (s : State) (e : Event) : (s.emit e).err = s.err := by
  rcases e with (_ | _ | _) | (_ | _) | _ | _ | _ | _ | _ <;> rfl
@[simp] theorem emit_ovr (s : State) (e : Event) : (s.emit e).ovr = s.ovr := by
  rcases e with (_ | _ | _) | (_ | _) | _ | _ | _ | _ | _ <;> rfl
@[simp] theorem emit_session (s : State) (e : Event) : (s.emit e).session = s.session := by
  rcases e with (_ | _ | _) | (_ | _) | _ | _ | _ | _ | _ <;> rfl
@[simp] theorem emit_life (s : State) (e : Event) : (s.emit e).life = s.life := by
  rcases e with (_ | _ | _) | (_ | _) | _ | _ | _ | _ | _ <;> rfl
@[simp] theorem emit_hcount (s : State) (e : Event) : (s.emit e).hcount = s.hcount := by
  rcases e with (_ | _ | _) | (_ | _) | _ | _ | _ | _ | _ <;> rfl
@[simp] theorem emit_mem (s : State) (e : Event) : (s.emit e).mem = s.mem := by
  rcases e with (_ | _ | _) | (_ | _) | _ | _ | _ | _ | _ <;> rfl
@[simp] theorem emit_seq (s : State) (e : Event) : (s.emit e).seq = s.seq := by
  rcases e with (_ | _ | _) | (_ | _) | _ | _ | _ | _ | _ <;> rfl
@[simp] theorem emit_turns (s : State) (e : Event) : (s.emit e).turns = s.turns := by
  rcases e with (_ | _ | _) | (_ | _) | _ | _ | _ | _ | _ <;> rfl
@[simp] theorem emit_busyIn (s : State) (e : Event) : (s.emit e).busyIn = s.busyIn := by
  rcases e with (_ | _ | _) | (_ | _) | _ | _ | _ | _ | _ <;> rfl
@[simp] theorem emit_hostReads (s : State) (e : Event) : (s.emit e).hostReads = s.hostReads := by
  rcases e with (_ | _ | _) | (_ | _) | _ | _ | _ | _ | _ <;> rfl
@[simp] theorem emit_draws (s : State) (e : Event) : (s.emit e).draws = s.draws := by
  rcases e with (_ | _ | _) | (_ | _) | _ | _ | _ | _ | _ <;> rfl
@[simp] theorem emit_boot (s : State) (e : Event) : (s.emit e).boot = s.boot := by
  rcases e with (_ | _ | _) | (_ | _) | _ | _ | _ | _ | _ <;> rfl

/-! ### deselectAll -/

@[simp] theorem deselectAll_csM (s : State) : s.deselectAll.csM = true := by
  rcases hm : s.csM <;> rcases hs : s.csS <;> simp [deselectAll, anySelected, hm, hs, emit]
@[simp] theorem deselectAll_csS (s : State) : s.deselectAll.csS = true := by
  rcases hm : s.csM <;> rcases hs : s.csS <;> simp [deselectAll, anySelected, hm, hs, emit]
theorem deselectAll_trace (s : State) : s.deselectAll.trace =
    s.trace ++ (if s.anySelected then [.setCS .ms true] else []) := by
  unfold deselectAll; split <;> simp
@[simp] theorem deselectAll_cfg (s : State) : s.deselectAll.cfg = s.cfg := by
  unfold deselectAll; split <;> rfl
@[simp] theorem deselectAll_op (s : State) : s.deselectAll.op = s.op := by
  unfold deselectAll; split <;> rfl
@[simp] theorem deselectAll_arg0 (s : State) : s.deselectAll.arg0 = s.arg0 := by
  unfold deselectAll; split <;> rfl
@[simp] theorem deselectAll_arg1 (s : State) : s.deselectAll.arg1 = s.arg1 := by
  unfold deselectAll; split <;> rfl
@[simp] theorem deselectAll_result (s : State) : s.deselectAll.result = s.result := by
  unfold deselectAll; split <;> rfl
@[simp] theorem deselectAll_linecnt (s : State) : s.deselectAll.linecnt = s.linecnt := by
  unfold deselectAll; split <;> rfl
@[simp] theorem deselectAll_errcode (s : State) : s.deselectAll.errcode = s.errcode := by
  unfold deselectAll; split <;> rfl
@[simp] theorem deselectAll_errop (s : State) : s.deselectAll.errop = s.errop := by
  unfold deselectAll; split <;> rfl
@[simp] theorem deselectAll_textlen (s : State) : s.deselectAll.textlen = s.textlen := by
  unfold deselectAll; split <;> rfl
@[simp] theorem deselectAll_run (s : State) : s.deselectAll.run = s.run := by
  unfold deselectAll; split <;> rfl
@[simp] theorem deselectAll_err (s : State) : s.deselectAll.err = s.err := by
  unfold deselectAll; split <;> rfl
@[simp] theorem deselectAll_ovr (s : State) : s.deselectAll.ovr = s.ovr := by
  unfold deselectAll; split <;> rfl
@[simp] theorem deselectAll_session (s : State) : s.deselectAll.session = s.session := by
  unfold deselectAll; split <;> rfl
@[simp] theorem deselectAll_life (s : State) : s.deselectAll.life = s.life := by
  unfold deselectAll; split <;> rfl
@[simp] theorem deselectAll_rstl (s : State) : s.deselectAll.rstl = s.rstl := by
  unfold deselectAll; split <;> rfl
@[simp] theorem deselectAll_pwrl (s : State) : s.deselectAll.pwrl = s.pwrl := by
  unfold deselectAll; split <;> rfl
@[simp] theorem deselectAll_busys (s : State) : s.deselectAll.busys = s.busys := by
  unfold deselectAll; split <;> rfl
@[simp] theorem deselectAll_dc (s : State) : s.deselectAll.dc = s.dc := by
  unfold deselectAll; split <;> rfl
@[simp] theorem deselectAll_hcount (s : State) : s.deselectAll.hcount = s.hcount := by
  unfold deselectAll; split <;> rfl
@[simp] theorem deselectAll_mem (s : State) : s.deselectAll.mem = s.mem := by
  unfold deselectAll; split <;> rfl
@[simp] theorem deselectAll_seq (s : State) : s.deselectAll.seq = s.seq := by
  unfold deselectAll; split <;> rfl
@[simp] theorem deselectAll_turns (s : State) : s.deselectAll.turns = s.turns := by
  unfold deselectAll; split <;> rfl
@[simp] theorem deselectAll_busyIn (s : State) : s.deselectAll.busyIn = s.busyIn := by
  unfold deselectAll; split <;> rfl
@[simp] theorem deselectAll_hostReads (s : State) : s.deselectAll.hostReads = s.hostReads := by
  unfold deselectAll; split <;> rfl
@[simp] theorem deselectAll_draws (s : State) : s.deselectAll.draws = s.draws := by
  unfold deselectAll; split <;> rfl
@[simp] theorem deselectAll_boot (s : State) : s.deselectAll.boot = s.boot := by
  unfold deselectAll; split <;> rfl

/-! ### errorEntry -/

theorem errorEntry_trace (s : State) (c : ErrCode) : (s.errorEntry c).trace =
    s.trace ++ (if s.anySelected then [.setCS .ms true] else []) := s.deselectAll_trace
@[simp] theorem errorEntry_cfg (s : State) (c : ErrCode) : (s.errorEntry c).cfg = s.cfg := by
  simp [errorEntry]
@[simp] theorem errorEntry_op (s : State) (c : ErrCode) : (s.errorEntry c).op = s.op := by
  simp [errorEntry]
@[simp] theorem errorEntry_arg0 (s : State) (c : ErrCode) : (s.errorEntry c).arg0 = s.arg0 := by
  simp [errorEntry]
@[simp] theorem errorEntry_arg1 (s : State) (c : ErrCode) : (s.errorEntry c).arg1 = s.arg1 := by
  simp [errorEntry]
@[simp] theorem errorEntry_result (s : State) (c : ErrCode) : (s.errorEntry c).result = s.result := by
  simp [errorEntry]
@[simp] theorem errorEntry_linecnt (s : State) (c : ErrCode) : (s.errorEntry c).linecnt = s.linecnt := by
  simp [errorEntry]
@[simp] theorem errorEntry_errcode (s : State) (c : ErrCode) : (s.errorEntry c).errcode = some c := by
  simp [errorEntry]
@[simp] theorem errorEntry_errop (s : State) (c : ErrCode) : (s.errorEntry c).errop = s.op := by
  simp [errorEntry]
@[simp] theorem errorEntry_textlen (s : State) (c : ErrCode) : (s.errorEntry c).textlen = s.textlen := by
  simp [errorEntry]
@[simp] theorem errorEntry_run (s : State) (c : ErrCode) : (s.errorEntry c).run = false := by
  simp [errorEntry]
@[simp] theorem errorEntry_err (s : State) (c : ErrCode) : (s.errorEntry c).err = true := by
  simp [errorEntry]
@[simp] theorem errorEntry_ovr (s : State) (c : ErrCode) : (s.errorEntry c).ovr = s.ovr := by
  simp [errorEntry]
@[simp] theorem errorEntry_session (s : State) (c : ErrCode) : (s.errorEntry c).session = none := by
  simp [errorEntry]
@[simp] theorem errorEntry_life (s : State) (c : ErrCode) : (s.errorEntry c).life = s.life := by
  simp [errorEntry]
@[simp] theorem errorEntry_csM (s : State) (c : ErrCode) : (s.errorEntry c).csM = true := by
  simp [errorEntry]
@[simp] theorem errorEntry_csS (s : State) (c : ErrCode) : (s.errorEntry c).csS = true := by
  simp [errorEntry]
@[simp] theorem errorEntry_rstl (s : State) (c : ErrCode) : (s.errorEntry c).rstl = s.rstl := by
  simp [errorEntry]
@[simp] theorem errorEntry_pwrl (s : State) (c : ErrCode) : (s.errorEntry c).pwrl = s.pwrl := by
  simp [errorEntry]
@[simp] theorem errorEntry_busys (s : State) (c : ErrCode) : (s.errorEntry c).busys = s.busys := by
  simp [errorEntry]
@[simp] theorem errorEntry_dc (s : State) (c : ErrCode) : (s.errorEntry c).dc = s.dc := by
  simp [errorEntry]
@[simp] theorem errorEntry_hcount (s : State) (c : ErrCode) : (s.errorEntry c).hcount = s.hcount := by
  simp [errorEntry]
@[simp] theorem errorEntry_mem (s : State) (c : ErrCode) : (s.errorEntry c).mem = s.mem := by
  simp [errorEntry]
@[simp] theorem errorEntry_seq (s : State) (c : ErrCode) : (s.errorEntry c).seq = [] := by
  simp [errorEntry]
@[simp] theorem errorEntry_turns (s : State) (c : ErrCode) : (s.errorEntry c).turns = s.turns := by
  simp [errorEntry]
@[simp] theorem errorEntry_busyIn (s : State) (c : ErrCode) : (s.errorEntry c).busyIn = s.busyIn := by
  simp [errorEntry]
@[simp] theorem errorEntry_hostReads (s : State) (c : ErrCode) : (s.errorEntry c).hostReads = s.hostReads := by
  simp [errorEntry]
@[simp] theorem errorEntry_draws (s : State) (c : ErrCode) : (s.errorEntry c).draws = s.draws := by
  simp [errorEntry]
@[simp] theorem errorEntry_boot (s : State) (c : ErrCode) : (s.errorEntry c).boot = s.boot := by
  simp [errorEntry]

end State

/-! ### The layout of STATUS -/

/-- Where the fields of STATUS stand (R45). -/
theorem statusWord_fields (s : State) :
    (statusWord s).getLsbD 0 = s.run ∧ (statusWord s).getLsbD 1 = s.err ∧
    (statusWord s).getLsbD 2 = s.ovr ∧ (statusWord s).getLsbD 3 = false ∧
    (statusWord s).extractLsb' 4 2 = sessionBits s.session ∧ (statusWord s).extractLsb' 6 2 = 0 ∧
    (statusWord s).extractLsb' 8 3 = lifeBits s.life ∧ (statusWord s).getLsbD 11 = false ∧
    (statusWord s).getLsbD 12 = s.csM ∧ (statusWord s).getLsbD 13 = s.csS ∧
    (statusWord s).getLsbD 14 = s.rstl ∧ (statusWord s).getLsbD 15 = s.pwrl ∧
    (statusWord s).getLsbD 16 = s.busys ∧ (statusWord s).extractLsb' 17 15 = 0 := by
  unfold statusWord
  refine ⟨?_, ?_, ?_, ?_, ?_, ?_, ?_, ?_, ?_, ?_, ?_, ?_, ?_, ?_⟩
  case refine_5 | refine_6 | refine_7 | refine_14 =>
    refine BitVec.eq_of_getLsbD_eq fun i hi => ?_
    rw [BitVec.getLsbD_extractLsb']
    simp only [BitVec.getLsbD_append]
    interval_cases i <;> simp
  all_goals
    simp only [BitVec.getLsbD_append]
    simp

end Sys2Proof.Machine
end

