-- ==== Sys2Proof/Laws/Ops.lean ====
section
/-! SUPPORT. What the shared operations can do, said once: the assignments between events, the
checks, the outcome of exec, and the moves of the sequencer on a run. -/

namespace Sys2Proof.Machine

/-! ### settle: the assignments between two events -/

namespace State

@[simp] theorem settle_nil (s : State) : s.settle [] = s.withSeq [] := rfl
@[simp] theorem settle_act (s : State) (a : Act) (r : List Micro) :
    s.settle (.act a :: r) = (s.applyAct a).settle r := rfl
@[simp] theorem settle_start (s : State) (r : List Micro) :
    s.settle (.start :: r) = s.withSeq (.start :: r) := rfl
@[simp] theorem settle_setCS (s : State) (l : Lines) (v : Bool) (r : List Micro) :
    s.settle (.setCS l v :: r) = s.withSeq (.setCS l v :: r) := rfl
@[simp] theorem settle_tx (s : State) (k : TxKind) (b : Byte) (r : List Micro) :
    s.settle (.tx k b :: r) = s.withSeq (.tx k b :: r) := rfl
@[simp] theorem settle_setRST (s : State) (v : Bool) (r : List Micro) :
    s.settle (.setRST v :: r) = s.withSeq (.setRST v :: r) := rfl
@[simp] theorem settle_setPWR (s : State) (v : Bool) (r : List Micro) :
    s.settle (.setPWR v :: r) = s.withSeq (.setPWR v :: r) := rfl
@[simp] theorem settle_delay (s : State) (ms : Nat) (r : List Micro) :
    s.settle (.delay ms :: r) = s.withSeq (.delay ms :: r) := rfl
@[simp] theorem settle_wire (s : State) (b : Byte) (r : List Micro) :
    s.settle (.wire b :: r) = s.withSeq (.wire b :: r) := rfl
@[simp] theorem settle_waitReady (s : State) (r : List Micro) :
    s.settle (.waitReady :: r) = s.withSeq (.waitReady :: r) := rfl
@[simp] theorem settle_kick (s : State) (r : List Micro) :
    s.settle (.kick :: r) = s.withSeq (.kick :: r) := rfl
@[simp] theorem settle_poll (s : State) (r : List Micro) :
    s.settle (.poll :: r) = s.withSeq (.poll :: r) := rfl
@[simp] theorem settle_rows (s : State) (p : Picture) (h : Half) (y : Nat) (r : List Micro) :
    s.settle (.rows p h y :: r) = s.withSeq (.rows p h y :: r) := rfl

/-- settle does not look at the position it replaces. -/
@[simp] theorem settle_withSeq (p : List Micro) (s : State) (q : List Micro) :
    (s.withSeq q).settle p = s.settle p := by
  induction p generalizing s with
  | nil => rfl
  | cons m p ih =>
    cases m with
    | act a => simp only [settle_act, applyAct_withSeq, ih]
    | _ => rfl

/-- A field that no assignment changes is as it was after settle. -/
theorem settle_keeps {α : Type} (f : State → α) (ha : ∀ s a, f (s.applyAct a) = f s)
    (hq : ∀ s q, f (s.withSeq q) = f s) (p : List Micro) (s : State) : f (s.settle p) = f s := by
  induction p generalizing s with
  | nil => exact hq s []
  | cons m p ih =>
    cases m with
    | act a => rw [settle_act, ih, ha]
    | _ => exact hq s _

@[simp] theorem settle_cfg (p : List Micro) (s : State) : (s.settle p).cfg = s.cfg :=
  settle_keeps State.cfg (fun _ a => by cases a <;> rfl) (fun _ _ => rfl) p s
@[simp] theorem settle_op (p : List Micro) (s : State) : (s.settle p).op = s.op :=
  settle_keeps State.op (fun _ a => by cases a <;> rfl) (fun _ _ => rfl) p s
@[simp] theorem settle_arg0 (p : List Micro) (s : State) : (s.settle p).arg0 = s.arg0 :=
  settle_keeps State.arg0 (fun _ a => by cases a <;> rfl) (fun _ _ => rfl) p s
@[simp] theorem settle_arg1 (p : List Micro) (s : State) : (s.settle p).arg1 = s.arg1 :=
  settle_keeps State.arg1 (fun _ a => by cases a <;> rfl) (fun _ _ => rfl) p s
@[simp] theorem settle_result (p : List Micro) (s : State) : (s.settle p).result = s.result :=
  settle_keeps State.result (fun _ a => by cases a <;> rfl) (fun _ _ => rfl) p s
@[simp] theorem settle_errcode (p : List Micro) (s : State) : (s.settle p).errcode = s.errcode :=
  settle_keeps State.errcode (fun _ a => by cases a <;> rfl) (fun _ _ => rfl) p s
@[simp] theorem settle_errop (p : List Micro) (s : State) : (s.settle p).errop = s.errop :=
  settle_keeps State.errop (fun _ a => by cases a <;> rfl) (fun _ _ => rfl) p s
@[simp] theorem settle_textlen (p : List Micro) (s : State) : (s.settle p).textlen = s.textlen :=
  settle_keeps State.textlen (fun _ a => by cases a <;> rfl) (fun _ _ => rfl) p s
@[simp] theorem settle_run (p : List Micro) (s : State) : (s.settle p).run = s.run :=
  settle_keeps State.run (fun _ a => by cases a <;> rfl) (fun _ _ => rfl) p s
@[simp] theorem settle_err (p : List Micro) (s : State) : (s.settle p).err = s.err :=
  settle_keeps State.err (fun _ a => by cases a <;> rfl) (fun _ _ => rfl) p s
@[simp] theorem settle_ovr (p : List Micro) (s : State) : (s.settle p).ovr = s.ovr :=
  settle_keeps State.ovr (fun _ a => by cases a <;> rfl) (fun _ _ => rfl) p s
@[simp] theorem settle_csM (p : List Micro) (s : State) : (s.settle p).csM = s.csM :=
  settle_keeps State.csM (fun _ a => by cases a <;> rfl) (fun _ _ => rfl) p s
@[simp] theorem settle_csS (p : List Micro) (s : State) : (s.settle p).csS = s.csS :=
  settle_keeps State.csS (fun _ a => by cases a <;> rfl) (fun _ _ => rfl) p s
@[simp] theorem settle_rstl (p : List Micro) (s : State) : (s.settle p).rstl = s.rstl :=
  settle_keeps State.rstl (fun _ a => by cases a <;> rfl) (fun _ _ => rfl) p s
@[simp] theorem settle_pwrl (p : List Micro) (s : State) : (s.settle p).pwrl = s.pwrl :=
  settle_keeps State.pwrl (fun _ a => by cases a <;> rfl) (fun _ _ => rfl) p s
@[simp] theorem settle_busys (p : List Micro) (s : State) : (s.settle p).busys = s.busys :=
  settle_keeps State.busys (fun _ a => by cases a <;> rfl) (fun _ _ => rfl) p s
@[simp] theorem settle_dc (p : List Micro) (s : State) : (s.settle p).dc = s.dc :=
  settle_keeps State.dc (fun _ a => by cases a <;> rfl) (fun _ _ => rfl) p s
@[simp] theorem settle_hcount (p : List Micro) (s : State) : (s.settle p).hcount = s.hcount :=
  settle_keeps State.hcount (fun _ a => by cases a <;> rfl) (fun _ _ => rfl) p s
@[simp] theorem settle_mem (p : List Micro) (s : State) : (s.settle p).mem = s.mem :=
  settle_keeps State.mem (fun _ a => by cases a <;> rfl) (fun _ _ => rfl) p s
@[simp] theorem settle_trace (p : List Micro) (s : State) : (s.settle p).trace = s.trace :=
  settle_keeps State.trace (fun _ a => by cases a <;> rfl) (fun _ _ => rfl) p s
@[simp] theorem settle_turns (p : List Micro) (s : State) : (s.settle p).turns = s.turns :=
  settle_keeps State.turns (fun _ a => by cases a <;> rfl) (fun _ _ => rfl) p s
@[simp] theorem settle_busyIn (p : List Micro) (s : State) : (s.settle p).busyIn = s.busyIn :=
  settle_keeps State.busyIn (fun _ a => by cases a <;> rfl) (fun _ _ => rfl) p s
@[simp] theorem settle_hostReads (p : List Micro) (s : State) : (s.settle p).hostReads = s.hostReads :=
  settle_keeps State.hostReads (fun _ a => by cases a <;> rfl) (fun _ _ => rfl) p s
@[simp] theorem settle_draws (p : List Micro) (s : State) : (s.settle p).draws = s.draws :=
  settle_keeps State.draws (fun _ a => by cases a <;> rfl) (fun _ _ => rfl) p s
@[simp] theorem settle_boot (p : List Micro) (s : State) : (s.settle p).boot = s.boot :=
  settle_keeps State.boot (fun _ a => by cases a <;> rfl) (fun _ _ => rfl) p s

end State

/-- The error entry does not look at the position it discards. -/
@[simp] theorem State.errorEntry_withSeq (s : State) (q : List Micro) (c : ErrCode) :
    (s.withSeq q).errorEntry c = s.errorEntry c := by
  unfold State.errorEntry State.deselectAll
  rw [show (s.withSeq q).anySelected = s.anySelected from rfl]
  cases s.anySelected <;> rfl

/-! ### The checks -/

/-- What the checks of a framer operation can answer (R200). -/
theorem framerOp_cases {α : Type} (t : Tgt) (arg : Option α) (prog : Lines → α → List Micro)
    (s : State) :
    ((linesOf? t = none ∨ arg = none) ∧ framerOp t arg prog s = .next (s.errorEntry .badOperand)) ∨
    ∃ l a, linesOf? t = some l ∧ arg = some a ∧
      ((s.session.isSome = true ∧ framerOp t arg prog s = .next (s.errorEntry .sessionOpen)) ∨
       (s.session = none ∧ csConflict l s = true ∧
          framerOp t arg prog s = .next (s.errorEntry .csConflict)) ∨
       (s.session = none ∧ csConflict l s = false ∧
          framerOp t arg prog s = .next (s.load (prog l a)))) := by
  unfold framerOp raiseError
  cases hl : linesOf? t with
  | none => exact .inl ⟨.inl rfl, rfl⟩
  | some l =>
    cases arg with
    | none => exact .inl ⟨.inr rfl, rfl⟩
    | some a =>
      refine .inr ⟨l, a, rfl, rfl, ?_⟩
      cases hs : s.session <;> cases hc : csConflict l s <;> simp [hc]

/-- A framer operation whose checks all pass (R200). -/
theorem framerOp_ok {α : Type} {t : Tgt} {arg : Option α} {prog : Lines → α → List Micro}
    {s : State} {l : Lines} {a : α} (hl : linesOf? t = some l) (ha : arg = some a)
    (hs : s.session = none) (hc : csConflict l s = false) :
    framerOp t arg prog s = .next (s.load (prog l a)) := by
  simp [framerOp, hl, ha, hs, hc]

/-- What the checks of a sequencer operation can answer (R250). -/
theorem seqChecked_cases (s : State) (ok : Result) :
    (s.session.isSome = true ∧ seqChecked s ok = .next (s.errorEntry .sessionOpen)) ∨
    (s.session = none ∧ s.anySelected = true ∧
      seqChecked s ok = .next (s.errorEntry .csConflict)) ∨
    (s.session = none ∧ s.anySelected = false ∧ seqChecked s ok = ok) := by
  unfold seqChecked raiseError
  cases hs : s.session <;> cases ha : s.anySelected <;> simp

/-- A sequencer operation whose checks pass (R250). -/
theorem seqChecked_ok {s : State} {ok : Result} (hs : s.session = none) (hm : s.csM = true)
    (hc : s.csS = true) : seqChecked s ok = ok := by
  simp [seqChecked, State.anySelected, hs, hm, hc]

/-! ### Steps of the sequencer -/

theorem step_noTurns {s : State} (h : s.turns = []) : step s = sequencerTurn s := by
  simp [step, takeTurn, h]

theorem sequencerTurn_idle {s : State} (h : s.run = false) : sequencerTurn s = .next s := by
  simp [sequencerTurn, h]

theorem sequencerTurn_done {s : State} (h : s.run = true) (hs : s.seq = []) :
    sequencerTurn s = .next s.complete := by
  simp [sequencerTurn, h, hs]

theorem sequencerTurn_start {s : State} {r : List Micro} {i : Instr} (h : s.run = true)
    (hs : s.seq = .start :: r) (hd : decode s.op = .ok i) :
    sequencerTurn s = exec i (s.withSeq r) := by
  simp [sequencerTurn, h, hs, hd]

theorem sequencerTurn_wire {s : State} {b : Byte} {r : List Micro} {i : Instr} (h : s.run = true)
    (hs : s.seq = .wire b :: r) (hd : decodePanel b = .ok i) :
    sequencerTurn s = exec i (s.withSeq r) := by
  simp [sequencerTurn, h, hs, hd]

/-- The event that an item of the position emits, for the items that emit one by themselves. -/
def eventOf? (m : Micro) (s : State) : Option Event :=
  match m with
  | .setCS l v => some (.setCS l v)
  | .tx k b => some (.tx k b s.csM s.csS)
  | .setRST v => some (.setRST v)
  | .setPWR v => some (.setPWR v)
  | .delay ms => some (.delay ms)
  | _ => none

theorem sequencerTurn_event {s : State} {m : Micro} {e : Event} {r : List Micro}
    (h : s.run = true) (hs : s.seq = m :: r) (he : eventOf? m s = some e) :
    sequencerTurn s = .next ((s.emit e).settle r) := by
  cases m <;> simp only [eventOf?, Option.some.injEq, reduceCtorEq] at he <;> subst he <;>
    simp [sequencerTurn, h, hs, microStep, emitStep]

theorem sequencerTurn_waitReady {s : State} {r : List Micro} (h : s.run = true)
    (hs : s.seq = .waitReady :: r) :
    sequencerTurn s = .next (s.clearPolls.withSeq (.kick :: r)) := by
  simp [sequencerTurn, h, hs, microStep, beginWait, State.withSeq, State.clearPolls]

theorem sequencerTurn_kick {s : State} {r : List Micro} (h : s.run = true)
    (hs : s.seq = .kick :: r) :
    sequencerTurn s = .next ((s.emit .wdtKick).withSeq (.poll :: r)) := by
  simp [sequencerTurn, h, hs, microStep, kickStep]

theorem sequencerTurn_poll {s : State} {r : List Micro} (h : s.run = true)
    (hs : s.seq = .poll :: r) : sequencerTurn s = .next (pollStep (s.withSeq r)) := by
  simp [sequencerTurn, h, hs, microStep]

theorem sequencerTurn_rows {s : State} {p : Picture} {hf : Half} {y : Nat} {r : List Micro}
    (h : s.run = true) (hs : s.seq = .rows p hf y :: r) :
    sequencerTurn s = .next (rowsStep p hf y (s.withSeq r)) := by
  simp [sequencerTurn, h, hs, microStep]

/-! ### Runs -/

theorem RunsTo.refl (s : State) : RunsTo 0 s s := rfl

theorem RunsTo.head {s t u : State} {n : Nat} (h : step s = .next t) (r : RunsTo n t u) :
    RunsTo (n + 1) s u := by
  unfold RunsTo at *
  simp only [Host.Core.run, Sys2Proof.core] at *
  rw [h]; exact r

theorem RunsTo.trans {s t u : State} {n m : Nat} (h : RunsTo n s t) (r : RunsTo m t u) :
    RunsTo (n + m) s u := by
  induction n generalizing s with
  | zero => cases h; simpa using r
  | succ n ih =>
    unfold RunsTo at h
    simp only [Host.Core.run, Sys2Proof.core] at h
    cases hs : step s with
    | next s1 =>
      rw [hs] at h
      rw [show n + 1 + m = (n + m) + 1 by omega]
      exact RunsTo.head hs (ih h)
    | fault f => rw [hs] at h; cases h
    | refused f => rw [hs] at h; cases h

/-- One move of the sequencer when nothing else moves. -/
theorem RunsTo.one {s t : State} (ht : s.turns = []) (h : sequencerTurn s = .next t) :
    RunsTo 1 s t :=
  RunsTo.head (by rw [step_noTurns ht, h]) (RunsTo.refl t)

/-- One event, and then the assignments before the next. -/
theorem RunsTo.event {s : State} {m : Micro} {e : Event} {r : List Micro} (ht : s.turns = [])
    (h : s.run = true) (hs : s.seq = m :: r) (he : eventOf? m s = some e) :
    RunsTo 1 s ((s.emit e).settle r) := RunsTo.one ht (sequencerTurn_event h hs he)

/-- The end of an operation: nothing is left, and it completes. -/
theorem RunsTo.done {s : State} (ht : s.turns = []) (h : s.run = true) (hs : s.seq = []) :
    RunsTo 1 s s.complete := RunsTo.one ht (sequencerTurn_done h hs)

/-- Events one after another. -/
def State.emitAll (es : List Event) (s : State) : State := es.foldl (fun t e => t.emit e) s

@[simp] theorem State.emitAll_nil (s : State) : s.emitAll [] = s := rfl
@[simp] theorem State.emitAll_cons (s : State) (e : Event) (es : List Event) :
    s.emitAll (e :: es) = (s.emit e).emitAll es := rfl
theorem State.emitAll_append (s : State) (es fs : List Event) :
    s.emitAll (es ++ fs) = (s.emitAll es).emitAll fs := List.foldl_append

@[simp] theorem State.emitAll_withSeq (s : State) (es : List Event) (q : List Micro) :
    (s.withSeq q).emitAll es = (s.emitAll es).withSeq q := by
  induction es generalizing s with
  | nil => rfl
  | cons e es ih => simp [ih]

/-- The trace grows by exactly the events. -/
theorem State.emitAll_trace (s : State) (es : List Event) :
    (s.emitAll es).trace = s.trace ++ es := by
  induction es generalizing s with
  | nil => simp
  | cons e es ih => simp [ih]

/-- The data bytes of a run, at the chip-select levels of the state. -/
def dataEvents (s : State) (bs : List Byte) : List Event := bs.map fun b => .tx .data b s.csM s.csS

/-- Data bytes change the trace and DC only. -/
theorem State.emitAll_data (s : State) (bs : List Byte) (hne : bs ≠ []) :
    s.emitAll (dataEvents s bs) = { s with dc := true, trace := s.trace ++ dataEvents s bs } := by
  induction bs generalizing s with
  | nil => exact absurd rfl hne
  | cons b bs ih =>
    cases bs with
    | nil => rfl
    | cons c cs =>
      have h := ih (s.emit (.tx .data b s.csM s.csS)) (by simp)
      simp only [dataEvents, List.map_cons, State.emitAll_cons, State.emit] at h ⊢
      simpa using h

/-- A run of data bytes: each is an event, and then the assignments before the next event. -/
theorem RunsTo.data {s : State} (bs : List Byte) {r : List Micro} (ht : s.turns = [])
    (h : s.run = true) (hs : s.seq = bs.map (.tx .data) ++ r) (hne : bs ≠ []) :
    RunsTo bs.length s ((s.emitAll (dataEvents s bs)).settle r) := by
  induction bs generalizing s with
  | nil => exact absurd rfl hne
  | cons b bs ih =>
    have h1 := RunsTo.event (m := .tx .data b) ht h hs rfl
    cases bs with
    | nil => simpa [dataEvents] using h1
    | cons c cs =>
      have h2 := ih (s := (s.emit (.tx .data b s.csM s.csS)).withSeq
        ((c :: cs).map (.tx .data) ++ r)) (by simpa using ht) (by simpa using h) rfl (by simp)
      have h3 := RunsTo.trans h1 h2
      rw [Nat.add_comm] at h3
      have hd : dataEvents ((s.emit (.tx .data b s.csM s.csS)).withSeq
          ((c :: cs).map (.tx .data) ++ r)) (c :: cs) = dataEvents s (c :: cs) := rfl
      rw [hd, State.emitAll_withSeq, State.settle_withSeq] at h3
      exact h3

/-! ### The received image -/

/-- Outside the ranges of R126 no pixel is received (log entry 19). -/
theorem receivedPixel_outside (h : Half) (tr : List Event) {y x : Nat} (ho : 1600 ≤ y ∨ 600 ≤ x) :
    receivedPixel h tr y x = none := by
  unfold receivedPixel
  split
  · rfl
  · rw [if_neg]
    have hy : panelHeight = 1600 := rfl
    have hx : halfWidth = 600 := rfl
    omega

end Sys2Proof.Machine
end

