-- ==== Sys2Proof/Laws/Step.lean ====
section
/-! SUPPORT. What one step can do, said once: the inversion of step, of the host port, of the
sequencer's move and of exec. -/

namespace Sys2Proof.Machine

/-! ### Updates of LINEBUF alone -/

/-- t differs from s in LINEBUF bytes alone. -/
def LineOnly (s t : State) : Prop :=
  ∃ m : Memory, t = { s with mem := m } ∧ (s.mem.wf → m.wf) ∧
    ∀ a, ¬ (0x200 ≤ a ∧ a < 0x32C) → t.ram a = s.ram a

theorem LineOnly.refl (s : State) : LineOnly s s := ⟨s.mem, rfl, id, fun _ _ => rfl⟩

theorem LineOnly.trans {s t u : State} (h : LineOnly s t) (k : LineOnly t u) : LineOnly s u := by
  obtain ⟨m, rfl, hw, hr⟩ := h
  obtain ⟨n, rfl, kw, kr⟩ := k
  exact ⟨n, rfl, fun w => kw (hw w), fun a ha => (kr a ha).trans (hr a ha)⟩

/-- A write inside LINEBUF changes LINEBUF alone. -/
theorem lineOnly_writeRam (s : State) (a : Nat) (bs : List Byte) (ha : 0x200 ≤ a)
    (hb : a + bs.length ≤ 0x32C) : LineOnly s (s.writeRam a bs) := by
  refine ⟨_, rfl, fun w => writeBytes_wf w a bs fun x hx hx' => ?_, fun x hx => ?_⟩
  · simp only [isRam, Bool.or_eq_true, Bool.and_eq_true, decide_eq_true_eq]
    exact .inl (.inr ⟨by omega, by omega⟩)
  · rw [State.ram_writeRam, dif_neg (by omega)]

theorem lineOnly_fillLinebuf (k : Color) (s : State) : LineOnly s (fillLinebuf k s) :=
  lineOnly_writeRam s _ _ (by decide) (by rw [List.length_replicate]; decide)

theorem lineOnly_setNibble (k : Color) (s : State) (x : Nat) (hx : x < 600) :
    LineOnly s (setNibble k s x) :=
  lineOnly_writeRam s _ _ (by unfold linebufBase; omega)
    (by rw [List.length_singleton]; unfold linebufBase; omega)

theorem mem_columnPixels {ox : Int} {wl c x : Nat} :
    x ∈ columnPixels ox wl c ↔ x < wl ∧ ox + 4 * c ≤ x ∧ (x : Int) < ox + 4 * c + 4 := by
  unfold columnPixels
  simp only [List.mem_filterMap, List.mem_range, Option.ite_none_right_eq_some, Option.some.injEq]
  have h4 : glyphHScale = 4 := rfl
  constructor
  · rintro ⟨i, hi, ⟨h1, h2⟩, he⟩
    rw [h4] at *
    omega
  · rintro ⟨hw, h1, h2⟩
    refine ⟨((x : Int) - ox - 4 * c).toNat, ?_, ?_, ?_⟩ <;> (rw [h4]; omega)

theorem mem_stampPixels {ox : Int} {wl : Nat} {bits : Byte} {x : Nat} :
    x ∈ stampPixels ox wl bits ↔ stampCovers ox wl bits x := by
  simp only [stampPixels, stampCovers, List.mem_flatMap, List.mem_range]
  constructor
  · rintro ⟨c, hc, hx⟩
    split at hx
    · have := mem_columnPixels.1 hx
      exact ⟨this.1, c, hc, by assumption, this.2⟩
    · cases hx
  · rintro ⟨hw, c, hc, hb, h⟩
    exact ⟨c, hc, by rw [if_pos hb]; exact mem_columnPixels.2 ⟨hw, h⟩⟩

theorem lineOnly_paint (k : Color) (xs : List Nat) (s : State) (h : ∀ x ∈ xs, x < 600) :
    LineOnly s (xs.foldl (setNibble k) s) := by
  induction xs generalizing s with
  | nil => exact .refl s
  | cons x xs ih =>
    exact (lineOnly_setNibble k s x (h x (by simp))).trans (ih _ fun y hy => h y (by simp [hy]))

theorem lineOnly_stamp (ox : Int) (wl : Nat) (bits : Byte) (k : Color) (s : State)
    (h : wl ≤ 600) : LineOnly s (stamp ox wl bits k s) :=
  lineOnly_paint k _ s fun x hx => by have := (mem_stampPixels.1 hx).1; omega

theorem lineOnly_stampText (h : Half) (b : Fin 6) (r : Fin 8) (k : Color) (s : State) :
    LineOnly s (stampText h b r k s) := by
  unfold stampText
  generalize (s.text b).zipIdx = l
  have key : ∀ t, LineOnly s t → LineOnly s (l.foldl (fun t c =>
      stamp ((charOrigin s c.2 : Int) - halfOffset h) halfWidth (glyphByte s (glyphIndexOf c.1) r) k
        t) t) := by
    induction l with
    | nil => exact fun t ht => ht
    | cons c l ih => exact fun t ht => ih _ (ht.trans (lineOnly_stamp _ _ _ _ _ (by decide)))
  exact key s (.refl s)

theorem lineOnly_renderLine (h : Half) (y : Nat) (s : State) : LineOnly s (renderLine h y s) := by
  unfold renderLine
  simp only
  split
  · exact lineOnly_fillLinebuf _ s
  · exact (lineOnly_fillLinebuf _ s).trans (lineOnly_stampText ..)

/-! ### The pixels of LINEBUF -/

theorem extract_high : ∀ a b : BitVec 4, (a ++ b).extractLsb' 4 4 = a := by decide

theorem extract_low : ∀ a b : BitVec 4, (a ++ b).extractLsb' 0 4 = b := by decide

/-- set_nibble(x, k) sets pixel x and no other (R330). -/
theorem linePixel_setNibble (k : Color) (s : State) (x z : Nat) :
    linePixel (setNibble k s x) z = if z = x then colorNibble k else linePixel s z := by
  unfold linePixel setNibble
  rw [State.ram_writeRam_one]
  by_cases hb : linebufBase + z / 2 = linebufBase + x / 2
  · rw [if_pos hb, ← hb]
    generalize s.ram (linebufBase + z / 2) = b
    unfold withNibble
    rcases Nat.mod_two_eq_zero_or_one z with hz | hz <;>
      rcases Nat.mod_two_eq_zero_or_one x with hx | hx
    · have : z = x := by omega
      subst this
      simp only [hz, if_true, extract_high]
    · have : z ≠ x := by omega
      simp only [hz, hx, this, if_true, if_false, Nat.one_ne_zero, extract_high, extract_low]
    · have : z ≠ x := by omega
      simp only [hz, hx, this, if_true, if_false, Nat.one_ne_zero, extract_high, extract_low]
    · have : z = x := by omega
      subst this
      simp only [hz, if_false, if_true, Nat.one_ne_zero, extract_low]
  · have : z ≠ x := fun h => hb (by rw [h])
    rw [if_neg hb, if_neg this]

theorem linePixel_paint (k : Color) (xs : List Nat) (s : State) (z : Nat) :
    linePixel (xs.foldl (setNibble k) s) z =
      if z ∈ xs then colorNibble k else linePixel s z := by
  induction xs generalizing s with
  | nil => simp
  | cons x xs ih =>
    rw [List.foldl_cons, ih, linePixel_setNibble]
    by_cases h1 : z ∈ xs <;> by_cases h2 : z = x <;> simp [h1, h2]

/-- A stamp colors the pixels it covers and no other (R339). -/
theorem linePixel_stamp_pos {ox : Int} {wl : Nat} {bits : Byte} (k : Color) (s : State) {z : Nat}
    (h : stampCovers ox wl bits z) : linePixel (stamp ox wl bits k s) z = colorNibble k := by
  rw [stamp, linePixel_paint, if_pos (mem_stampPixels.2 h)]

theorem linePixel_stamp_neg {ox : Int} {wl : Nat} {bits : Byte} (k : Color) (s : State) {z : Nat}
    (h : ¬ stampCovers ox wl bits z) : linePixel (stamp ox wl bits k s) z = linePixel s z := by
  rw [stamp, linePixel_paint, if_neg (fun hm => h (mem_stampPixels.1 hm))]

/-- A fill colors every pixel (R332). -/
theorem linePixel_fillLinebuf (k : Color) (s : State) {z : Nat} (h : z < 600) :
    linePixel (fillLinebuf k s) z = colorNibble k := by
  have hr : (fillLinebuf k s).ram (linebufBase + z / 2) = fillByte k := by
    rw [fillLinebuf, State.ram_writeRam, dif_pos (by rw [List.length_replicate]; unfold lineBytes; omega)]
    exact List.getElem_replicate _
  unfold linePixel
  rw [hr, fillByte]
  split
  · exact extract_high _ _
  · exact extract_low _ _

/-- What a fill leaves in every RAM byte (R332). -/
theorem ram_fillLinebuf (c : Color) (s : State) (a : Nat) :
    (fillLinebuf c s).ram a = if 0x200 ≤ a ∧ a < 0x32C then fillByte c else s.ram a := by
  have hl : (List.replicate lineBytes (fillByte c)).length = 300 := by
    rw [List.length_replicate]; rfl
  rw [fillLinebuf, State.ram_writeRam]
  by_cases h : 0x200 ≤ a ∧ a < 0x32C
  · rw [if_pos h, dif_pos (by rw [hl]; unfold linebufBase; omega)]
    exact List.getElem_replicate _
  · rw [if_neg h, dif_neg (by rw [hl]; unfold linebufBase; omega)]

/-- The scanlines that show glyph row r: four of them, from the top of the band's text window
(R374, R375). -/
theorem textRowOf_eq_some (y : Nat) (r : Fin 8) :
    textRowOf y = some r ↔
      windowTop (bandOf y) ≤ y ∧ (y - windowTop (bandOf y)) / 4 = r.val := by
  have h4 : glyphVScale = 4 := rfl
  have h64 : textWindowHeight = 64 := rfl
  unfold textRowOf
  simp only
  constructor
  · intro h
    by_cases h1 : windowTop (bandOf y) ≤ y ∧ y < windowTop (bandOf y) + textWindowHeight
    · rw [if_pos h1] at h
      by_cases h2 : (y - windowTop (bandOf y)) / glyphVScale < 8
      · rw [dif_pos h2] at h
        cases h
        exact ⟨h1.1, rfl⟩
      · rw [dif_neg h2] at h; cases h
    · rw [if_neg h1] at h; cases h
  · rintro ⟨h1, h2⟩
    have := r.isLt
    rw [if_pos ⟨h1, by rw [h64]; omega⟩, dif_pos (by rw [h4]; omega)]
    congr 1
    exact Fin.ext h2

/-- Stamping a text colors exactly the pixels that some character of it covers. -/
theorem linePixel_stampText (h : Half) (b : Fin 6) (r : Fin 8) (k : Color) (s : State) (z : Nat) :
    ((∃ i ch, (s.text b)[i]? = some ch ∧ stampCovers ((charOrigin s i : Int) - halfOffset h) 600
        (glyphByte s (glyphIndexOf ch) r) z) ∧
      linePixel (stampText h b r k s) z = colorNibble k) ∨
    ((∀ i ch, (s.text b)[i]? = some ch → ¬ stampCovers ((charOrigin s i : Int) - halfOffset h) 600
        (glyphByte s (glyphIndexOf ch) r) z) ∧
      linePixel (stampText h b r k s) z = linePixel s z) := by
  have key : ∀ (l : List Byte) (n : Nat) (t : State),
      ((∃ i ch, l[i]? = some ch ∧ stampCovers ((charOrigin s (n + i) : Int) - halfOffset h) 600
          (glyphByte s (glyphIndexOf ch) r) z) ∧
        linePixel ((l.zipIdx n).foldl (fun t c => stamp ((charOrigin s c.2 : Int) - halfOffset h)
          halfWidth (glyphByte s (glyphIndexOf c.1) r) k t) t) z = colorNibble k) ∨
      ((∀ i ch, l[i]? = some ch → ¬ stampCovers ((charOrigin s (n + i) : Int) - halfOffset h) 600
          (glyphByte s (glyphIndexOf ch) r) z) ∧
        linePixel ((l.zipIdx n).foldl (fun t c => stamp ((charOrigin s c.2 : Int) - halfOffset h)
          halfWidth (glyphByte s (glyphIndexOf c.1) r) k t) t) z = linePixel t z) := by
    intro l
    induction l with
    | nil => exact fun n t => .inr ⟨fun i ch hi => by simp at hi, rfl⟩
    | cons c l ih =>
      intro n t
      rw [List.zipIdx_cons, List.foldl_cons]
      rcases ih (n + 1) (stamp ((charOrigin s n : Int) - halfOffset h) halfWidth
        (glyphByte s (glyphIndexOf c) r) k t) with ⟨⟨i, ch, hi, hc⟩, hp⟩ | ⟨hn, hp⟩
      · exact .inl ⟨⟨i + 1, ch, hi, by rw [show n + (i + 1) = n + 1 + i by omega]; exact hc⟩, hp⟩
      · by_cases h1 : stampCovers ((charOrigin s n : Int) - halfOffset h) 600
          (glyphByte s (glyphIndexOf c) r) z
        · exact .inl ⟨⟨0, c, rfl, h1⟩, hp.trans (linePixel_stamp_pos k t h1)⟩
        · refine .inr ⟨fun i ch hi => ?_, hp.trans (linePixel_stamp_neg k t h1)⟩
          cases i with
          | zero => cases hi; exact h1
          | succ i => rw [show n + (i + 1) = n + 1 + i by omega]; exact hn i ch hi
  simpa [stampText] using key (s.text b) 0 s

/-! ### The host port -/

theorem accessRefusal_none {width off : Nat} (h : accessRefusal width off = none) :
    width = 4 ∧ off % 4 = 0 ∧ off < 0x1000 := by
  unfold accessRefusal at h
  split at h
  · cases h
  · split at h
    · cases h
    · split at h
      · cases h
      · omega

theorem accessRefusal_ok {off : Nat} (h4 : off % 4 = 0) (h : off < 0x1000) :
    accessRefusal 4 off = none := by
  unfold accessRefusal
  rw [if_neg (by simp), if_neg (by omega), if_neg (by omega)]

theorem hostReg_textlen {off : Nat} (h : 0x040 ≤ off ∧ off < 0x058) :
    hostReg off = .textlen ⟨(off - 0x040) / 4, by omega⟩ := by
  unfold hostReg
  iterate 10 rw [if_neg (by omega)]
  rw [dif_pos h]

theorem hostReg_ram {off : Nat} (h : isRam off = true) : hostReg off = .ram off := by
  have h' := h
  simp only [isRam, Bool.or_eq_true, Bool.and_eq_true, decide_eq_true_eq] at h'
  unfold hostReg
  iterate 10 rw [if_neg (by omega)]
  rw [dif_neg (by omega), if_pos h]

/-- The registers of the map and their offsets (R42). -/
theorem hostReg_cases (off : Nat) :
    (off = 0x000 ∧ hostReg off = .id) ∨ (off = 0x004 ∧ hostReg off = .ctrl) ∨
    (off = 0x008 ∧ hostReg off = .status) ∨ (off = 0x00C ∧ hostReg off = .errcode) ∨
    (off = 0x010 ∧ hostReg off = .errop) ∨ (off = 0x014 ∧ hostReg off = .result) ∨
    (off = 0x018 ∧ hostReg off = .linecnt) ∨ (off = 0x020 ∧ hostReg off = .arg0) ∨
    (off = 0x024 ∧ hostReg off = .arg1) ∨ (off = 0x028 ∧ hostReg off = .op) ∨
    (0x040 ≤ off ∧ off < 0x058 ∧ ∃ b, b.val = (off - 0x040) / 4 ∧ hostReg off = .textlen b) ∨
    (isRam off = true ∧ hostReg off = .ram off) ∨
    (isRam off = false ∧ ¬ (0x040 ≤ off ∧ off < 0x058) ∧ hostReg off = .reserved ∧
      (0x018 < off ∨ off % 4 ≠ 0)) := by
  by_cases h1 : 0x040 ≤ off ∧ off < 0x058
  · have := hostReg_textlen h1
    simp only [this, reduceCtorEq, and_false, false_or]
    exact .inl ⟨h1.1, h1.2, _, rfl, rfl⟩
  · cases h2 : isRam off with
    | true =>
      have := hostReg_ram h2
      simp only [this, reduceCtorEq, and_false, false_or]
      simp
    | false =>
      have h3 : hostReg off = hostReg off := rfl
      conv at h3 => rhs; unfold hostReg
      rw [dif_neg h1, h2] at h3
      simp only [Bool.false_eq_true, if_false] at h3
      repeat' (split at h3 <;> first | (rename_i h4; subst h4; simp [h3]) | skip)
      simp only [h3]
      refine .inr (.inr (.inr (.inr (.inr (.inr (.inr (.inr (.inr (.inr (.inr (.inr ?_)))))))))))
      exact ⟨trivial, h1, trivial, by omega⟩

/-- What an accepted host write can do (R42 to R51). -/
theorem hostWrite_cases (off : Nat) (w : Word) (s : State) :
    hostWrite off w s = s ∨
    (off = 0x004 ∧ hostWrite off w s = ctrlWrite w s) ∨
    ((s.run = true ∨ s.err = true) ∧ hostWrite off w s = dropWrite s) ∨
    (s.run = false ∧
      ((off = 0x020 ∧ hostWrite off w s = { s with arg0 := w }) ∨
       (off = 0x024 ∧ hostWrite off w s = { s with arg1 := w }) ∨
       (off = 0x028 ∧ s.err = false ∧ hostWrite off w s = opWrite w s) ∨
       (∃ b : Fin 6, hostWrite off w s =
          { s with textlen := s.textlen.set b.val (w.extractLsb' 0 8) }) ∨
       (isRam off = true ∧ hostWrite off w s = s.writeRam off (wordBytes w)))) := by
  rcases hostReg_cases off with h | h | h | h | h | h | h | h | h | h | ⟨_, _, b, _, h⟩ | h | h
  · exact .inl (by simp only [hostWrite, h.2])
  · exact .inr (.inl ⟨h.1, by simp only [hostWrite, h.2]⟩)
  · exact .inl (by simp only [hostWrite, h.2])
  · exact .inl (by simp only [hostWrite, h.2])
  · exact .inl (by simp only [hostWrite, h.2])
  · exact .inl (by simp only [hostWrite, h.2])
  · exact .inl (by simp only [hostWrite, h.2])
  · refine .inr (.inr ?_)
    cases hr : s.run with
    | true => exact .inl ⟨.inl rfl, by simp only [hostWrite, h.2, hr]; rfl⟩
    | false => exact .inr ⟨rfl, .inl ⟨h.1, by simp only [hostWrite, h.2, hr]; rfl⟩⟩
  · refine .inr (.inr ?_)
    cases hr : s.run with
    | true => exact .inl ⟨.inl rfl, by simp only [hostWrite, h.2, hr]; rfl⟩
    | false => exact .inr ⟨rfl, .inr (.inl ⟨h.1, by simp only [hostWrite, h.2, hr]; rfl⟩)⟩
  · refine .inr (.inr ?_)
    cases hr : s.run with
    | true => exact .inl ⟨.inl rfl, by simp only [hostWrite, h.2, hr]; rfl⟩
    | false =>
      cases he : s.err with
      | true => exact .inl ⟨.inr rfl, by simp only [hostWrite, h.2, hr, he]; rfl⟩
      | false =>
        exact .inr ⟨rfl, .inr (.inr (.inl ⟨h.1, rfl, by simp only [hostWrite, h.2, hr, he]; rfl⟩))⟩
  · refine .inr (.inr ?_)
    cases hr : s.run with
    | true => exact .inl ⟨.inl rfl, by simp only [hostWrite, h, hr]; rfl⟩
    | false =>
      exact .inr ⟨rfl, .inr (.inr (.inr (.inl ⟨b, by simp only [hostWrite, h, hr]; rfl⟩)))⟩
  · refine .inr (.inr ?_)
    cases hr : s.run with
    | true => exact .inl ⟨.inl rfl, by simp only [hostWrite, h.2, hr]; rfl⟩
    | false =>
      exact .inr ⟨rfl, .inr (.inr (.inr (.inr ⟨h.1, by simp only [hostWrite, h.2, hr]; rfl⟩)))⟩
  · exact .inl (by simp only [hostWrite, h.2.2.1])

/-- What a host read can do: it appends to the record, and may draw a free value. -/
theorem hostRead_eq (off : Nat) (s : State) : ∃ v d, hostRead off s =
    { s with hostReads := s.hostReads ++ [(off, v)], draws := d } ∧
    (s.run = false ∨ unstableWhileRunning (hostReg off) = false →
      v = regValue (hostReg off) s ∧ d = s.draws) := by
  unfold hostRead
  split
  · rename_i h
    refine ⟨_, _, rfl, ?_⟩
    rw [Bool.and_eq_true] at h
    rintro (hr | hr)
    · rw [hr] at h; exact absurd h.1 (by simp)
    · rw [hr] at h; exact absurd h.2 (by simp)
  · exact ⟨_, s.draws, rfl, fun _ => ⟨rfl, rfl⟩⟩

/-! ### One step -/

/-- What a step that answers a next state can be. -/
theorem step_cases {s s' : State} (h : step s = .next s') :
    ((s.turns = [] ∨ ∃ ts, s.turns = .host .waitIdle :: ts ∧ s.run = true) ∧
      sequencerTurn s = .next s') ∨
    (∃ ts, s.turns = .sequencer :: ts ∧ sequencerTurn (s.withTurns ts) = .next s') ∨
    (∃ ts, s.turns = .hardwareReset :: ts ∧ s' = hardwareReset (s.withTurns ts)) ∨
    (∃ ts, s.turns = .host .waitIdle :: ts ∧ s.run = false ∧ s' = s.withTurns ts) ∨
    (∃ off ts, s.turns = .host (.read 4 off) :: ts ∧ off % 4 = 0 ∧ off < 0x1000 ∧
      s' = hostRead off (s.withTurns ts)) ∨
    (∃ off w ts, s.turns = .host (.write 4 off w) :: ts ∧ off % 4 = 0 ∧ off < 0x1000 ∧
      s' = hostWrite off w (s.withTurns ts)) := by
  unfold step takeTurn at h
  cases ht : s.turns with
  | nil => rw [ht] at h; exact .inl ⟨.inl rfl, h⟩
  | cons a ts =>
    rw [ht] at h
    cases a with
    | sequencer => exact .inr (.inl ⟨ts, rfl, h⟩)
    | hardwareReset => cases h; exact .inr (.inr (.inl ⟨ts, rfl, rfl⟩))
    | host a =>
      cases a with
      | waitIdle =>
        simp only at h
        cases hr : s.run with
        | true => rw [hr, if_pos rfl] at h; exact .inl ⟨.inr ⟨ts, rfl, rfl⟩, h⟩
        | false =>
          rw [hr, if_neg (by simp)] at h; cases h
          exact .inr (.inr (.inr (.inl ⟨ts, rfl, rfl, rfl⟩)))
      | read width off =>
        simp only [hostTurn] at h
        split at h
        · cases h
        · rename_i ha; cases h
          obtain ⟨rfl, h4, hl⟩ := accessRefusal_none ha
          exact .inr (.inr (.inr (.inr (.inl ⟨off, ts, rfl, h4, hl, rfl⟩))))
      | write width off w =>
        simp only [hostTurn] at h
        split at h
        · cases h
        · rename_i ha; cases h
          obtain ⟨rfl, h4, hl⟩ := accessRefusal_none ha
          exact .inr (.inr (.inr (.inr (.inr ⟨off, w, ts, rfl, h4, hl, rfl⟩))))

theorem step_read {s : State} {off : Nat} {ts : List Turn}
    (h : s.turns = .host (.read 4 off) :: ts) (h4 : off % 4 = 0) (hl : off < 0x1000) :
    step s = .next (hostRead off (s.withTurns ts)) := by
  simp only [step, takeTurn, h, hostTurn, accessRefusal_ok h4 hl]

theorem step_write {s : State} {off : Nat} {w : Word} {ts : List Turn}
    (h : s.turns = .host (.write 4 off w) :: ts) (h4 : off % 4 = 0) (hl : off < 0x1000) :
    step s = .next (hostWrite off w (s.withTurns ts)) := by
  simp only [step, takeTurn, h, hostTurn, accessRefusal_ok h4 hl]

/-- What a move of the sequencer that answers a next state can be. -/
theorem sequencerTurn_cases {s s' : State} (h : sequencerTurn s = .next s') :
    (s.run = false ∧ s' = s) ∨
    (s.run = true ∧ s.seq = [] ∧ s' = s.complete) ∨
    (∃ r, s.run = true ∧ s.seq = .start :: r ∧
      (((∃ e, decode s.op = .error e) ∧ s' = (s.withSeq r).errorEntry .illegalOp) ∨
       ∃ i, decode s.op = .ok i ∧ exec i (s.withSeq r) = .next s')) ∨
    (∃ b r, s.run = true ∧ s.seq = .wire b :: r ∧
      (((∃ e, decodePanel b = .error e) ∧ s' = emitStep (.tx .cmd b s.csM s.csS) (s.withSeq r)) ∨
       ∃ i, decodePanel b = .ok i ∧ exec i (s.withSeq r) = .next s')) ∨
    (∃ m r, s.run = true ∧ s.seq = m :: r ∧ m ≠ .start ∧ (∀ b, m ≠ .wire b) ∧
      s' = microStep m (s.withSeq r)) := by
  unfold sequencerTurn at h
  cases hr : s.run with
  | false => rw [hr, if_neg (by simp)] at h; cases h; exact .inl ⟨rfl, rfl⟩
  | true =>
    rw [hr, if_pos rfl] at h
    cases hs : s.seq with
    | nil => rw [hs] at h; cases h; exact .inr (.inl ⟨rfl, rfl, rfl⟩)
    | cons m r =>
      rw [hs] at h
      cases m with
      | start =>
        refine .inr (.inr (.inl ⟨r, rfl, rfl, ?_⟩))
        simp only at h
        cases hd : decode s.op with
        | ok i => rw [hd] at h; exact .inr ⟨i, rfl, h⟩
        | error e => rw [hd] at h; cases h; exact .inl ⟨⟨e, rfl⟩, rfl⟩
      | wire b =>
        refine .inr (.inr (.inr (.inl ⟨b, r, rfl, rfl, ?_⟩)))
        simp only at h
        cases hd : decodePanel b with
        | ok i => rw [hd] at h; exact .inr ⟨i, rfl, h⟩
        | error e => rw [hd] at h; cases h; exact .inl ⟨⟨e, rfl⟩, rfl⟩
      | _ => cases h; exact .inr (.inr (.inr (.inr ⟨_, _, rfl, rfl, by simp, by simp, rfl⟩)))

/-! ### exec -/

/-- The event lists that an operation whose checks pass can load. -/
inductive Loads : Instr → State → List Micro → Prop
  | select {s t l} (h : linesOf? t = some l) : Loads (.select t) s [.setCS l false]
  | deselect {s t l} (h : linesOf? t = some l) : Loads (.deselect t) s [.setCS l true]
  | sendCmd {s t l c} (h : linesOf? t = some l) (hc : csConflict l s = false) :
    Loads (.sendCmd t c) s [.setCS l false, .tx .cmd c]
  | sendData {s t l n} (h : linesOf? t = some l) (hn : payloadLen? s.arg0 = some n) :
    Loads (.sendData t) s (.setCS l false :: (s.payload n).map (.tx .data))
  | sendFramed {s t l c n} (h : linesOf? t = some l) (hn : payloadLen? s.arg0 = some n) :
    Loads (.sendFramed t c) s (.setCS l false :: .tx .cmd c :: (s.payload n).map (.tx .data))
  | waitReady {s} : Loads .waitReady s [.waitReady]
  | reset {s} : Loads .reset s (.act (.setLife .resetting) :: resetTrain)
  | configure {s} : Loads .configure s (configureProg s ++ [.act (.setLife .initialized)])
  | init {s : State} : Loads .init s ((if s.cfg.hasPwr then [.setPWR true] else []) ++
      .act (.setLife .resetting) :: resetTrain ++ configureProg s ++
        [.act (.setLife .initialized)])
  | powerOn {s} : Loads .powerOn s powerOnProg
  | refresh {s} : Loads .refresh s (refreshProg ++ [.act (.setLife .displaying)])
  | powerOff {s} : Loads .powerOff s [.wire 0x02]
  | sleep {s} : Loads .sleep s [.wire 0x07, .act (.setLife .sleeping)]
  | displayUpdate {s} :
    Loads .displayUpdate s (powerOnProg ++ refreshProg ++ [.act (.setLife .displaying)])
  | beginFrame {s t h} (ht : halfOf? t = some h) : Loads (.beginFrame t) s (openFrameProg h)
  | endFrame {s t h} (ht : halfOf? t = some h) (hs : s.session = some h) :
    Loads (.endFrame t) s (closeFrameProg h)
  | writeLine {s t h} (ht : halfOf? t = some h) (hs : s.session = some h) (h0 : s.arg0 = 300)
    (hv : linebufValid s = true) : Loads (.writeLine t) s (lineProg s)
  | splash {s} (hl : textlensOk s = true) : Loads .splash s (composeProg .splash)

/-- The sequencer operations: their checks are those of R250 and leave both lines high. -/
def checkedIdle : Instr → Bool
  | .reset => true
  | .configure => true
  | .init => true
  | .powerOn => true
  | .refresh => true
  | .powerOff => true
  | .sleep => true
  | .displayUpdate => true
  | .clear _ => true
  | .splash => true
  | _ => false

theorem stampOperands?_wl {a b : Word} {o : StampOperands} (h : stampOperands? a b = some o) :
    o.wl ≤ 600 := by
  unfold stampOperands? at h
  split at h
  · rename_i hc
    split at h
    · cases h
    · cases h; exact hc.1
  · cases h

theorem lineLen?_300 {w : Word} (h : lineLen? w = some 300) : w = 300 := by
  unfold lineLen? at h
  split at h
  · rename_i hz
    simp only [Option.some.injEq] at h
    have h1 : w = w.extractLsb' 16 16 ++ w.extractLsb' 0 16 := by
      apply BitVec.eq_of_getLsbD_eq
      intro i hi
      rw [BitVec.getLsbD_append]
      by_cases hc : i < 16 <;> simp [hc, hi]
      rw [show 16 + (i - 16) = i by omega]
      rw [decide_eq_true (by omega), Bool.true_and, BitVec.getLsbD_eq_getElem hi]
    have h2 : w.extractLsb' 0 16 = 300#16 := BitVec.eq_of_toNat_eq (by rw [h]; rfl)
    rw [h1, hz, h2]
    rfl
  · cases h

/-- What a panel command puts before what is left of the running operation (R156 to R160). -/
def panelProg : Instr → List Micro
  | .wireLineWrite => [.tx .cmd 0x10]
  | .wirePowerOn => frameBoth 0x04 [] ++ [.waitReady]
  | .wireDataRefresh => frameBoth 0x12 [0x00] ++ [.waitReady]
  | .wirePowerOff => frameBoth 0x02 [0x00]
  | .wireDeepSleep => frameBoth 0x07 [0xA5] ++ [.delay tSleep]
  | _ => []

/-- The answers of an instruction: a check's error, the end of an operation without events, a loaded
event list, or a panel command's events put before the rest. -/
inductive Answers (i : Instr) (s : State) : State → Prop
  | error {c} (h : c ∈ checkErrors i) : Answers i s (s.errorEntry c)
  | done (h : i = .nop ∨ ∃ t, i = .writeLine t) : Answers i s s.complete
  | line {t} (h : LineOnly s t) (hi : (∃ k, i = .fillLine k) ∨ i = .stampGlyph) :
    Answers i s t.complete
  | result (v : Word) (hi : (∃ ch, i = .glyphIndex ch) ∨ i = .glyphRow) :
    Answers i s (State.complete { s with result := v })
  | loads {p} (h : Loads i s p) (hs : s.session ≠ none → sessionAdmits i = true)
    (hc : checkedIdle i = true → s.session = none ∧ s.csM = true ∧ s.csS = true) :
    Answers i s (s.load p)
  | clear {k c} (hi : i = .clear k) (hk : colorOf? k = some c) (hs : s.session = none)
    (hm : s.csM = true) (hc : s.csS = true) :
    Answers i s ((fillLinebuf c s).load (composeProg .flat))
  | panel (h : isOperation i = false) : Answers i s (s.prepend (panelProg i))

theorem answers_seqChecked {i : Instr} {s u : State} (h1 : .sessionOpen ∈ checkErrors i)
    (h2 : .csConflict ∈ checkErrors i)
    (ok : s.session = none → s.csM = true → s.csS = true → Answers i s u) :
    ∃ t, seqChecked s (.next u) = .next t ∧ Answers i s t := by
  rcases seqChecked_cases s (.next u) with ⟨_, h⟩ | ⟨_, _, h⟩ | ⟨hs, ha, h⟩
  · exact ⟨_, h, .error h1⟩
  · exact ⟨_, h, .error h2⟩
  · simp only [State.anySelected, Bool.or_eq_false_iff, Bool.not_eq_false'] at ha
    exact ⟨_, h, ok hs ha.1 ha.2⟩

theorem answers_framerOp {α : Type} {i : Instr} {s : State} {t : Tgt} {arg : Option α}
    {prog : Lines → α → List Micro} (h0 : .badOperand ∈ checkErrors i)
    (h1 : .sessionOpen ∈ checkErrors i) (h2 : .csConflict ∈ checkErrors i)
    (hi : checkedIdle i = false)
    (ok : ∀ l a, linesOf? t = some l → arg = some a → csConflict l s = false →
      Loads i s (prog l a)) :
    ∃ u, framerOp t arg prog s = .next u ∧ Answers i s u := by
  rcases framerOp_cases t arg prog s with
    ⟨_, h⟩ | ⟨l, a, hl, ha, ⟨_, h⟩ | ⟨_, _, h⟩ | ⟨hs, hc, h⟩⟩
  · exact ⟨_, h, .error h0⟩
  · exact ⟨_, h, .error h1⟩
  · exact ⟨_, h, .error h2⟩
  · exact ⟨_, h, .loads (ok l a hl ha hc) (fun hn => absurd hs hn) (by simp [hi])⟩

/-- Every instruction answers a next state, and it is one of these. -/
theorem exec_answers (i : Instr) (s : State) : ∃ t, exec i s = .next t ∧ Answers i s t := by
  cases i with
  | nop => exact ⟨_, rfl, .done (.inl rfl)⟩
  | select t =>
    exact answers_framerOp (i := .select t) (by simp [checkErrors]) (by simp [checkErrors]) (by simp [checkErrors])
      rfl fun l a hl _ _ => .select hl
  | sendCmd t c =>
    exact answers_framerOp (i := .sendCmd t c) (by simp [checkErrors]) (by simp [checkErrors]) (by simp [checkErrors])
      rfl fun l a hl _ hc => .sendCmd hl hc
  | sendData t =>
    exact answers_framerOp (i := .sendData t) (by simp [checkErrors]) (by simp [checkErrors]) (by simp [checkErrors])
      rfl fun l a hl ha _ => .sendData hl ha
  | sendFramed t c =>
    exact answers_framerOp (i := .sendFramed t c) (by simp [checkErrors]) (by simp [checkErrors]) (by simp [checkErrors])
      rfl fun l a hl ha _ => .sendFramed hl ha
  | deselect t =>
    simp only [exec, execDeselect, raiseError]
    cases hl : linesOf? t with
    | none => exact ⟨_, rfl, .error (by simp [checkErrors])⟩
    | some l =>
      cases hs : s.session with
      | some h => exact ⟨_, rfl, .error (by simp [checkErrors])⟩
      | none => exact ⟨_, rfl, .loads (.deselect hl) (fun hn => absurd hs hn) (by simp [checkedIdle])⟩
  | waitReady =>
    simp only [exec, execWaitReady, raiseError]
    cases hs : s.session with
    | some h => exact ⟨_, rfl, .error (by simp [checkErrors])⟩
    | none => exact ⟨_, rfl, .loads .waitReady (fun hn => absurd hs hn) (by simp [checkedIdle])⟩
  | reset =>
    exact answers_seqChecked (i := .reset) (by simp [checkErrors]) (by simp [checkErrors])
      fun a b c => .loads .reset (fun hn => absurd a hn) fun _ => ⟨a, b, c⟩
  | configure =>
    exact answers_seqChecked (i := .configure) (by simp [checkErrors]) (by simp [checkErrors])
      fun a b c => .loads .configure (fun hn => absurd a hn) fun _ => ⟨a, b, c⟩
  | init =>
    exact answers_seqChecked (i := .init) (by simp [checkErrors]) (by simp [checkErrors])
      fun a b c => .loads .init (fun hn => absurd a hn) fun _ => ⟨a, b, c⟩
  | powerOn =>
    exact answers_seqChecked (i := .powerOn) (by simp [checkErrors]) (by simp [checkErrors])
      fun a b c => .loads .powerOn (fun hn => absurd a hn) fun _ => ⟨a, b, c⟩
  | refresh =>
    exact answers_seqChecked (i := .refresh) (by simp [checkErrors]) (by simp [checkErrors])
      fun a b c => .loads .refresh (fun hn => absurd a hn) fun _ => ⟨a, b, c⟩
  | powerOff =>
    exact answers_seqChecked (i := .powerOff) (by simp [checkErrors]) (by simp [checkErrors])
      fun a b c => .loads .powerOff (fun hn => absurd a hn) fun _ => ⟨a, b, c⟩
  | sleep =>
    exact answers_seqChecked (i := .sleep) (by simp [checkErrors]) (by simp [checkErrors])
      fun a b c => .loads .sleep (fun hn => absurd a hn) fun _ => ⟨a, b, c⟩
  | displayUpdate =>
    exact answers_seqChecked (i := .displayUpdate) (by simp [checkErrors]) (by simp [checkErrors])
      fun a b c => .loads .displayUpdate (fun hn => absurd a hn) fun _ => ⟨a, b, c⟩
  | beginFrame t =>
    simp only [exec, execBeginFrame, raiseError]
    cases ht : halfOf? t with
    | none => exact ⟨_, rfl, .error (by simp [checkErrors])⟩
    | some h =>
      cases hs : s.session with
      | some h => exact ⟨_, rfl, .error (by simp [checkErrors])⟩
      | none =>
        exact ⟨_, rfl, .loads (.beginFrame ht) (fun hn => absurd hs hn) (by simp [checkedIdle])⟩
  | endFrame t =>
    simp only [exec, execEndFrame, raiseError]
    cases ht : halfOf? t with
    | none => exact ⟨_, rfl, .error (by simp [checkErrors])⟩
    | some h =>
      simp only
      split
      · exact ⟨_, rfl, .error (by simp [checkErrors])⟩
      · split
        · exact ⟨_, rfl, .error (by simp [checkErrors])⟩
        · rename_i _ hs
          simp only [ne_eq, not_not] at hs
          exact ⟨_, rfl, .loads (.endFrame ht hs) (fun _ => rfl) (by simp [checkedIdle])⟩
  | writeLine t =>
    simp only [exec, execWriteLine, raiseError]
    cases ht : halfOf? t with
    | none => exact ⟨_, rfl, .error (by simp [checkErrors])⟩
    | some h =>
      cases hn : lineLen? s.arg0 with
      | none => exact ⟨_, rfl, .error (by simp [checkErrors])⟩
      | some n =>
        simp only
        split
        · exact ⟨_, rfl, .done (.inr ⟨t, rfl⟩)⟩
        split
        · exact ⟨_, rfl, .error (by simp [checkErrors])⟩
        split
        · exact ⟨_, rfl, .error (by simp [checkErrors])⟩
        split
        · exact ⟨_, rfl, .error (by simp [checkErrors])⟩
        split
        · exact ⟨_, rfl, .error (by simp [checkErrors])⟩
        rename_i _ hs hlen hv
        simp only [ne_eq, not_not] at hs hlen
        rw [hlen, lineBytes] at hn
        exact ⟨_, rfl, .loads (.writeLine ht hs (lineLen?_300 hn) (by simpa using hv))
          (fun _ => rfl) (by simp [checkedIdle])⟩
  | fillLine k =>
    simp only [exec, execFillLine, raiseError]
    cases hk : colorOf? k with
    | none => exact ⟨_, rfl, .error (by simp [checkErrors])⟩
    | some c => exact ⟨_, rfl, .line (lineOnly_fillLinebuf c s) (.inl ⟨k, rfl⟩)⟩
  | glyphIndex ch => exact ⟨_, rfl, .result _ (.inl ⟨ch, rfl⟩)⟩
  | glyphRow =>
    simp only [exec, execGlyphRow, raiseError]
    cases hg : glyphRowOperands? s.arg1 with
    | none => exact ⟨_, rfl, .error (by simp [checkErrors])⟩
    | some g => exact ⟨_, rfl, .result _ (.inr rfl)⟩
  | stampGlyph =>
    simp only [exec, execStampGlyph, raiseError]
    cases ho : stampOperands? s.arg0 s.arg1 with
    | none => exact ⟨_, rfl, .error (by simp [checkErrors])⟩
    | some o => exact ⟨_, rfl, .line (lineOnly_stamp _ _ _ _ s (stampOperands?_wl ho)) (.inr rfl)⟩
  | clear k =>
    simp only [exec, execClear, raiseError]
    cases hk : colorOf? k with
    | none => exact ⟨_, rfl, .error (by simp [checkErrors])⟩
    | some c =>
      exact answers_seqChecked (i := .clear k) (by simp [checkErrors]) (by simp [checkErrors])
        fun a b d => .clear rfl hk a b d
  | splash =>
    simp only [exec, execSplash, raiseError]
    cases hl : textlensOk s with
    | false => exact ⟨_, rfl, .error (by simp [checkErrors])⟩
    | true =>
      exact answers_seqChecked (i := .splash) (by simp [checkErrors]) (by simp [checkErrors])
        fun a b d => .loads (.splash hl) (fun hn => absurd a hn) fun _ => ⟨a, b, d⟩
  | wireLineWrite => exact ⟨_, rfl, .panel rfl⟩
  | wirePowerOn => exact ⟨_, rfl, .panel rfl⟩
  | wireDataRefresh => exact ⟨_, rfl, .panel rfl⟩
  | wirePowerOff => exact ⟨_, rfl, .panel rfl⟩
  | wireDeepSleep => exact ⟨_, rfl, .panel rfl⟩

/-- The answer of exec, when one is given. -/
theorem answers_of_exec {i : Instr} {s t : State} (h : exec i s = .next t) : Answers i s t := by
  obtain ⟨u, hu, ha⟩ := exec_answers i s
  rw [h] at hu
  cases hu
  exact ha

/-! ### What the sequencer leaves alone -/

/-- The drawn level and what drawing it changes. -/
theorem sampleBusy_eq (s : State) :
    ∃ lvl bi d, s.sampleBusy = (lvl, { s with busyIn := bi, draws := d }) := by
  unfold State.sampleBusy
  split
  · exact ⟨_, _, _, rfl⟩
  · exact ⟨_, _, _, rfl⟩

/-- What a move of the sequencer never changes (R48, R50, R120). -/
structure SequencerKeeps (s t : State) : Prop where
  cfg : t.cfg = s.cfg
  op : t.op = s.op
  arg0 : t.arg0 = s.arg0
  arg1 : t.arg1 = s.arg1
  textlen : t.textlen = s.textlen
  ovr : t.ovr = s.ovr
  turns : t.turns = s.turns
  hostReads : t.hostReads = s.hostReads
  boot : t.boot = s.boot
  ram : ∀ a, ¬ (0x200 ≤ a ∧ a < 0x32C) → t.ram a = s.ram a

theorem SequencerKeeps.refl (s : State) : SequencerKeeps s s :=
  ⟨rfl, rfl, rfl, rfl, rfl, rfl, rfl, rfl, rfl, fun _ _ => rfl⟩

theorem SequencerKeeps.trans {s t u : State} (h : SequencerKeeps s t) (k : SequencerKeeps t u) :
    SequencerKeeps s u :=
  ⟨k.1.trans h.1, k.2.trans h.2, k.3.trans h.3, k.4.trans h.4, k.5.trans h.5, k.6.trans h.6,
    k.7.trans h.7, k.8.trans h.8, k.9.trans h.9, fun a ha => (k.10 a ha).trans (h.10 a ha)⟩

/-- An update that touches no RAM byte and none of the other fields keeps them. -/
theorem SequencerKeeps.of_fields {s t : State} (h1 : t.cfg = s.cfg) (h2 : t.op = s.op)
    (h3 : t.arg0 = s.arg0) (h4 : t.arg1 = s.arg1) (h5 : t.textlen = s.textlen) (h6 : t.ovr = s.ovr)
    (h7 : t.turns = s.turns) (h8 : t.hostReads = s.hostReads) (h9 : t.boot = s.boot)
    (h10 : t.mem = s.mem) : SequencerKeeps s t :=
  ⟨h1, h2, h3, h4, h5, h6, h7, h8, h9, fun a _ => by simp [State.ram, h9, h10]⟩

theorem sequencerKeeps_withSeq (s : State) (q : List Micro) : SequencerKeeps s (s.withSeq q) :=
  .of_fields rfl rfl rfl rfl rfl rfl rfl rfl rfl rfl

theorem sequencerKeeps_complete (s : State) : SequencerKeeps s s.complete :=
  .of_fields rfl rfl rfl rfl rfl rfl rfl rfl rfl rfl

theorem sequencerKeeps_settle (s : State) (p : List Micro) : SequencerKeeps s (s.settle p) :=
  .of_fields (by simp) (by simp) (by simp) (by simp) (by simp) (by simp) (by simp) (by simp)
    (by simp) (by simp)

theorem sequencerKeeps_emit (s : State) (e : Event) : SequencerKeeps s (s.emit e) :=
  .of_fields (by simp) (by simp) (by simp) (by simp) (by simp) (by simp) (by simp) (by simp)
    (by simp) (by simp)

theorem sequencerKeeps_errorEntry (s : State) (c : ErrCode) : SequencerKeeps s (s.errorEntry c) :=
  .of_fields (by simp) (by simp) (by simp) (by simp) (by simp) (by simp) (by simp) (by simp)
    (by simp) (by simp)

theorem LineOnly.keeps {s t : State} (h : LineOnly s t) : SequencerKeeps s t := by
  obtain ⟨m, rfl, _, hr⟩ := h
  exact ⟨rfl, rfl, rfl, rfl, rfl, rfl, rfl, rfl, rfl, hr⟩

theorem Answers.keeps {i : Instr} {s t : State} (h : Answers i s t) : SequencerKeeps s t := by
  cases h with
  | error _ => exact sequencerKeeps_errorEntry s _
  | done _ => exact sequencerKeeps_complete s
  | line h _ => exact h.keeps.trans (sequencerKeeps_complete _)
  | result v _ => exact .of_fields rfl rfl rfl rfl rfl rfl rfl rfl rfl rfl
  | loads _ _ _ => exact sequencerKeeps_settle s _
  | clear _ _ _ _ _ => exact (lineOnly_fillLinebuf _ s).keeps.trans (sequencerKeeps_settle _ _)
  | panel _ => exact sequencerKeeps_withSeq s _

theorem sequencerKeeps_emitStep (s : State) (e : Event) : SequencerKeeps s (emitStep e s) :=
  (sequencerKeeps_emit s e).trans (sequencerKeeps_settle _ _)

theorem sequencerKeeps_countPoll (s : State) : SequencerKeeps s s.countPoll :=
  .of_fields rfl rfl rfl rfl rfl rfl rfl rfl rfl rfl

theorem sequencerKeeps_sampleBusy (s : State) : SequencerKeeps s s.sampleBusy.2 := by
  obtain ⟨lvl, bi, d, e⟩ := sampleBusy_eq s
  rw [e]
  exact .of_fields rfl rfl rfl rfl rfl rfl rfl rfl rfl rfl

theorem sequencerKeeps_pollAnswer (lvl : Bool) (s : State) :
    SequencerKeeps s (pollAnswer lvl s) := by
  have h1 := sequencerKeeps_emit s (.pollBusy lvl)
  unfold pollAnswer
  simp only
  split
  · exact h1.trans (sequencerKeeps_withSeq _ _)
  · have h2 := h1.trans (sequencerKeeps_countPoll _)
    split
    · exact h2.trans (sequencerKeeps_errorEntry _ _)
    · exact h2.trans (sequencerKeeps_withSeq _ _)

theorem sequencerKeeps_pollStep (s : State) : SequencerKeeps s (pollStep s) :=
  (sequencerKeeps_sampleBusy s).trans (sequencerKeeps_pollAnswer _ _)

theorem sequencerKeeps_rowsStep (p : Picture) (h : Half) (y : Nat) (s : State) :
    SequencerKeeps s (rowsStep p h y s) := by
  unfold rowsStep
  split
  · cases p
    · exact sequencerKeeps_withSeq _ _
    · exact (lineOnly_renderLine h y s).keeps.trans (sequencerKeeps_withSeq _ _)
  · exact sequencerKeeps_settle _ _

theorem sequencerKeeps_microStep (m : Micro) (s : State) : SequencerKeeps s (microStep m s) := by
  cases m with
  | start => exact .refl s
  | wire b => exact .refl s
  | waitReady => exact .of_fields rfl rfl rfl rfl rfl rfl rfl rfl rfl rfl
  | kick => exact (sequencerKeeps_emit s _).trans (sequencerKeeps_withSeq _ _)
  | poll => exact sequencerKeeps_pollStep s
  | rows p h y => exact sequencerKeeps_rowsStep p h y s
  | act a =>
    refine SequencerKeeps.trans ?_ (sequencerKeeps_settle _ _)
    cases a <;> exact .of_fields rfl rfl rfl rfl rfl rfl rfl rfl rfl rfl
  | _ => exact sequencerKeeps_emitStep s _

/-- A move of the sequencer keeps the operands, the host's records and every RAM byte outside
LINEBUF. -/
theorem sequencerTurn_keeps {s t : State} (h : sequencerTurn s = .next t) : SequencerKeeps s t := by
  rcases sequencerTurn_cases h with ⟨_, rfl⟩ | ⟨_, _, rfl⟩ | ⟨r, _, _, ⟨_, rfl⟩ | ⟨i, _, he⟩⟩ |
    ⟨b, r, _, _, ⟨_, rfl⟩ | ⟨i, _, he⟩⟩ | ⟨m, r, _, _, _, _, rfl⟩
  · exact .refl _
  · exact sequencerKeeps_complete s
  · exact (sequencerKeeps_withSeq s r).trans (sequencerKeeps_errorEntry _ _)
  · exact (sequencerKeeps_withSeq s r).trans (answers_of_exec he).keeps
  · exact (sequencerKeeps_withSeq s r).trans (sequencerKeeps_emitStep _ _)
  · exact (sequencerKeeps_withSeq s r).trans (answers_of_exec he).keeps
  · exact (sequencerKeeps_withSeq s r).trans (sequencerKeeps_microStep _ _)

/-! ### What a move of the sequencer does to the trace -/

/-- What a move of the sequencer adds to the trace: nothing; one event, with the levels it leaves; or
the sample at which a wait times out and the deselect of its error entry. -/
inductive WireStep (s t : State) : Prop
  | silent (h : t.trace = s.trace)
  | event (e : Event) (h : t.trace = s.trace ++ [e]) (hm : t.csM = (s.emit e).csM)
    (hc : t.csS = (s.emit e).csS) (hd : t.dc = (s.emit e).dc)
    (htx : ∀ k b m c, e = .tx k b m c → m = s.csM ∧ c = s.csS)
  | timeout (h : t.trace = s.trace ++ [.pollBusy false, .setCS .ms true])
    (he : t.errcode = some .handshakeTimeout)

theorem WireStep.of_emit {s t : State} (e : Event) (h : t.trace = s.trace ++ [e])
    (hm : t.csM = (s.emit e).csM) (hc : t.csS = (s.emit e).csS) (hd : t.dc = (s.emit e).dc)
    (htx : ∀ k b m c, e ≠ .tx k b m c) : WireStep s t :=
  .event e h hm hc hd fun k b m c he => absurd he (htx k b m c)

theorem wireStep_errorEntry (s : State) (c : ErrCode) : WireStep s (s.errorEntry c) := by
  cases ha : s.anySelected with
  | false => exact .silent (by simp [State.errorEntry_trace, ha])
  | true =>
    exact .of_emit (.setCS .ms true) (by simp [State.errorEntry_trace, ha]) (by simp [State.emit])
      (by simp [State.emit]) (by simp [State.emit]) (by simp)

theorem Answers.wireStep {i : Instr} {s t : State} (h : Answers i s t) : WireStep s t := by
  cases h with
  | error _ => exact wireStep_errorEntry s _
  | done _ => exact .silent rfl
  | line h _ => obtain ⟨m, rfl, _⟩ := h; exact .silent rfl
  | result v _ => exact .silent rfl
  | loads _ _ _ => exact .silent (by simp [State.load])
  | clear _ _ _ _ _ => exact .silent (by simp [State.load]; rfl)
  | panel _ => exact .silent rfl

theorem wireStep_emitStep (s : State) (e : Event) (h : ∀ k b m c, e ≠ .tx k b m c) :
    WireStep s (emitStep e s) :=
  .of_emit e (by simp [emitStep]) (by simp [emitStep]) (by simp [emitStep]) (by simp [emitStep]) h

theorem wireStep_microStep (m : Micro) (s : State) : WireStep s (microStep m s) := by
  cases m with
  | start => exact .silent rfl
  | wire b => exact .silent rfl
  | waitReady => exact .silent rfl
  | act a => exact .silent (by cases a <;> simp [microStep, State.applyAct])
  | rows p h y =>
    refine .silent ?_
    show (rowsStep p h y s).trace = s.trace
    unfold rowsStep
    split
    · cases p
      · rfl
      · obtain ⟨m, hm, _⟩ := lineOnly_renderLine h y s
        simp [hm]
    · simp
  | kick => exact .of_emit .wdtKick rfl rfl rfl rfl (by simp)
  | poll =>
    obtain ⟨lvl, bi, d, e⟩ := sampleBusy_eq s
    show WireStep s (pollStep s)
    unfold pollStep pollAnswer
    simp only [e]
    split
    · exact .of_emit (.pollBusy lvl) rfl rfl rfl rfl (by simp)
    · rename_i hl
      rw [Bool.not_eq_true] at hl
      subst hl
      split
      · cases ha : s.anySelected with
        | true =>
          simp only [State.anySelected] at ha
          refine .timeout ?_ rfl
          simp [State.errorEntry_trace, State.anySelected, State.countPoll, State.emit, ha]
        | false =>
          simp only [State.anySelected, Bool.or_eq_false_iff, Bool.not_eq_false'] at ha
          refine .of_emit (.pollBusy false) ?_ ?_ ?_ ?_ (by simp) <;>
            simp [State.errorEntry_trace, State.anySelected, State.countPoll, State.emit, ha.1, ha.2]
      · exact .of_emit (.pollBusy false) rfl rfl rfl rfl (by simp)
  | tx k b =>
    exact .event (.tx k b s.csM s.csS) (by simp [microStep, emitStep])
      (by simp [microStep, emitStep]) (by simp [microStep, emitStep])
      (by simp [microStep, emitStep]) (by rintro _ _ _ _ ⟨⟩; exact ⟨rfl, rfl⟩)
  | setCS l v => exact wireStep_emitStep s (.setCS l v) (by simp)
  | setRST v => exact wireStep_emitStep s (.setRST v) (by simp)
  | setPWR v => exact wireStep_emitStep s (.setPWR v) (by simp)
  | delay ms => exact wireStep_emitStep s (.delay ms) (by simp)

theorem WireStep.of_withSeq {s t : State} {q : List Micro} (h : WireStep (s.withSeq q) t) :
    WireStep s t := by
  cases h with
  | silent h => exact .silent h
  | event e h hm hc hd htx =>
    have : (s.withSeq q).emit e = (s.emit e).withSeq q := by
      cases e with
      | setCS l v => cases l <;> rfl
      | tx k b m c => cases k <;> rfl
      | _ => rfl
    rw [this] at hm hc hd
    exact .event e h hm hc hd htx
  | timeout h he => exact .timeout h he

/-- A move of the sequencer adds to the trace nothing, one event, or a sample and a deselect. -/
theorem sequencerTurn_wireStep {s t : State} (h : sequencerTurn s = .next t) : WireStep s t := by
  rcases sequencerTurn_cases h with ⟨_, rfl⟩ | ⟨_, _, rfl⟩ | ⟨r, _, _, ⟨_, rfl⟩ | ⟨i, _, he⟩⟩ |
    ⟨b, r, _, _, ⟨_, rfl⟩ | ⟨i, _, he⟩⟩ | ⟨m, r, _, _, _, _, rfl⟩
  · exact .silent rfl
  · exact .silent rfl
  · exact .of_withSeq (wireStep_errorEntry _ _)
  · exact .of_withSeq (answers_of_exec he).wireStep
  · exact .of_withSeq (wireStep_microStep (.tx .cmd b) (s.withSeq r))
  · exact .of_withSeq (answers_of_exec he).wireStep
  · exact .of_withSeq (wireStep_microStep _ _)

end Sys2Proof.Machine
end

