-- ==== Sys2Proof/Laws/Life.lean ====
section
/-! SUPPORT. LIFE beside the rest of the state (spec/10_state.md R55): the shared operations that the
sequencer is made of commute with a change of LIFE, or set it themselves. -/

namespace Sys2Proof.Machine

/-- The state with another LIFE. -/
def State.withLife (s : State) (l : Life) : State := { s with life := l }

/-- Two answers that differ in LIFE alone. -/
def LifeOnly (a b : Result) : Prop := ∃ t l, a = .next t ∧ b = .next (t.withLife l)

theorem withLife_withLife (s : State) (l l' : Life) : (s.withLife l).withLife l' = s.withLife l' :=
  rfl

theorem LifeOnly.next (t : State) (l : Life) : LifeOnly (.next t) (.next (t.withLife l)) :=
  ⟨t, l, rfl, rfl⟩

/-- An assignment commutes with a change of LIFE unless it sets LIFE. -/
theorem applyAct_withLife (a : Act) (s : State) (l : Life) :
    ∃ l', (s.withLife l).applyAct a = (s.applyAct a).withLife l' := by
  cases a with
  | setLife k => exact ⟨k, rfl⟩
  | _ => exact ⟨l, rfl⟩

theorem settle_withLife (p : List Micro) (s : State) (l : Life) :
    ∃ l', (s.withLife l).settle p = (s.settle p).withLife l' := by
  induction p generalizing s l with
  | nil => exact ⟨l, rfl⟩
  | cons m p ih =>
    cases m with
    | act a =>
      obtain ⟨k, hk⟩ := applyAct_withLife a s l
      rw [State.settle_act, State.settle_act, hk]
      exact ih _ k
    | _ => exact ⟨l, rfl⟩

theorem emit_withLife (e : Event) (s : State) (l : Life) :
    (s.withLife l).emit e = (s.emit e).withLife l := by
  cases e with
  | setCS L v => cases L <;> rfl
  | tx k b m c => cases k <;> rfl
  | _ => rfl

theorem emitStep_withLife (e : Event) (s : State) (l : Life) :
    ∃ l', emitStep e (s.withLife l) = (emitStep e s).withLife l' := by
  unfold emitStep
  rw [emit_withLife]
  exact settle_withLife s.seq (s.emit e) l

theorem errorEntry_withLife (c : ErrCode) (s : State) (l : Life) :
    (s.withLife l).errorEntry c = (s.errorEntry c).withLife l := by
  unfold State.errorEntry State.deselectAll
  rw [show (s.withLife l).anySelected = s.anySelected from rfl]
  cases s.anySelected <;> rfl

theorem sampleBusy_withLife (s : State) (l : Life) :
    (s.withLife l).sampleBusy = (s.sampleBusy.1, s.sampleBusy.2.withLife l) := by
  unfold State.sampleBusy
  rw [show (s.withLife l).busyIn = s.busyIn from rfl]
  cases s.busyIn <;> rfl

theorem pollStep_withLife (s : State) (l : Life) :
    pollStep (s.withLife l) = (pollStep s).withLife l := by
  unfold pollStep
  rw [sampleBusy_withLife]
  generalize s.sampleBusy.2 = t
  cases s.sampleBusy.1 with
  | true => rfl
  | false =>
    unfold pollAnswer
    simp only [emit_withLife, Bool.false_eq_true, if_false]
    rw [show ((t.emit (.pollBusy false)).withLife l).countPoll
      = (t.emit (.pollBusy false)).countPoll.withLife l from rfl,
      show ∀ u : State, pollLimitReached (u.withLife l) = pollLimitReached u from fun _ => rfl]
    split
    · exact errorEntry_withLife _ _ _
    · rfl

theorem ramBytes_withLife (s : State) (l : Life) (a n : Nat) :
    (s.withLife l).ramBytes a n = s.ramBytes a n := by
  induction n generalizing a with
  | zero => rfl
  | succ n ih =>
    rw [State.ramBytes, State.ramBytes, ih]
    rfl

theorem paint_withLife (k : Color) (xs : List Nat) (s : State) (l : Life) :
    xs.foldl (setNibble k) (s.withLife l) = (xs.foldl (setNibble k) s).withLife l := by
  induction xs generalizing s with
  | nil => rfl
  | cons x xs ih => exact ih (setNibble k s x)

theorem stampText_withLife (h : Half) (b : Fin 6) (r : Fin 8) (k : Color) (s : State) (l : Life) :
    stampText h b r k (s.withLife l) = (stampText h b r k s).withLife l := by
  have ht : (s.withLife l).text b = s.text b := ramBytes_withLife s l _ _
  unfold stampText
  rw [ht]
  have key : ∀ (cs : List (Byte × Nat)) (t : State),
      cs.foldl (fun t c => stamp ((charOrigin s c.2 : Int) - halfOffset h) halfWidth
        (glyphByte s (glyphIndexOf c.1) r) k t) (t.withLife l) =
      (cs.foldl (fun t c => stamp ((charOrigin s c.2 : Int) - halfOffset h) halfWidth
        (glyphByte s (glyphIndexOf c.1) r) k t) t).withLife l := by
    intro cs
    induction cs with
    | nil => exact fun _ => rfl
    | cons c cs ih =>
      intro t
      rw [List.foldl_cons, List.foldl_cons, stamp, paint_withLife]
      exact ih _
  exact key _ s

theorem renderLine_withLife (h : Half) (y : Nat) (s : State) (l : Life) :
    renderLine h y (s.withLife l) = (renderLine h y s).withLife l := by
  unfold renderLine
  simp only
  rw [show fillLinebuf (bandColorOf (s.withLife l) (bandOf y)) (s.withLife l)
    = (fillLinebuf (bandColorOf s (bandOf y)) s).withLife l from rfl]
  cases textRowOf y with
  | none => rfl
  | some r => exact stampText_withLife ..

theorem rowsStep_withLife (p : Picture) (h : Half) (y : Nat) (s : State) (l : Life) :
    ∃ l', rowsStep p h y (s.withLife l) = (rowsStep p h y s).withLife l' := by
  have line : ∀ t : State, lineProg (t.withLife l) = lineProg t := fun t => by
    unfold lineProg State.linebuf
    rw [ramBytes_withLife]
  unfold rowsStep
  split
  · cases p with
    | flat => exact ⟨l, by simp only [line]; rfl⟩
    | splash => exact ⟨l, by simp only [renderLine_withLife, line]; rfl⟩
  · exact settle_withLife s.seq s l

/-- Carrying out an item of the position does not look at LIFE. -/
theorem microStep_withLife (m : Micro) (s : State) (l : Life) :
    ∃ l', microStep m (s.withLife l) = (microStep m s).withLife l' := by
  cases m with
  | start => exact ⟨l, rfl⟩
  | wire b => exact ⟨l, rfl⟩
  | waitReady => exact ⟨l, rfl⟩
  | kick => exact ⟨l, rfl⟩
  | poll => exact ⟨l, pollStep_withLife s l⟩
  | rows p h y => exact rowsStep_withLife p h y s l
  | act a =>
    obtain ⟨k, hk⟩ := applyAct_withLife a s l
    show ∃ l', ((s.withLife l).applyAct a).settle s.seq = ((s.applyAct a).settle s.seq).withLife l'
    rw [hk]
    exact settle_withLife s.seq _ k
  | _ => exact emitStep_withLife _ s l

/-! ### The checks -/

theorem lifeOnly_raise (c : ErrCode) (s : State) (l : Life) :
    LifeOnly (raiseError c s) (raiseError c (s.withLife l)) :=
  ⟨_, l, rfl, by rw [raiseError, errorEntry_withLife]⟩

theorem lifeOnly_load (p : List Micro) (s : State) (l : Life) :
    LifeOnly (.next (s.load p)) (.next ((s.withLife l).load p)) := by
  obtain ⟨k, hk⟩ := settle_withLife p s l
  exact ⟨_, k, rfl, by rw [State.load, hk]; rfl⟩

theorem lifeOnly_seqChecked {s : State} {l : Life} {a b : Result} (h : LifeOnly a b) :
    LifeOnly (seqChecked s a) (seqChecked (s.withLife l) b) := by
  unfold seqChecked
  rw [show (s.withLife l).session = s.session from rfl,
    show (s.withLife l).anySelected = s.anySelected from rfl]
  split
  · exact lifeOnly_raise _ s l
  · split
    · exact lifeOnly_raise _ s l
    · exact h

theorem lifeOnly_framerOp {α : Type} (t : Tgt) (arg : Option α) (prog : Lines → α → List Micro)
    (s : State) (l : Life) :
    LifeOnly (framerOp t arg prog s) (framerOp t arg prog (s.withLife l)) := by
  unfold framerOp
  rw [show (s.withLife l).session = s.session from rfl]
  cases linesOf? t with
  | none => exact lifeOnly_raise _ s l
  | some L =>
    cases arg with
    | none => exact lifeOnly_raise _ s l
    | some a =>
      simp only
      rw [show csConflict L (s.withLife l) = csConflict L s from rfl]
      split
      · exact lifeOnly_raise _ s l
      · split
        · exact lifeOnly_raise _ s l
        · exact lifeOnly_load _ s l

end Sys2Proof.Machine
end

