-- ==== Sys2Proof/Laws/PerInstr.lean ====
section
/-! SUPPORT. One statement per instruction: its encoding, with whatever operands it carries, is a
word of its row of spec/opcode_table.json (R145; R156 to R160). -/

namespace Sys2Proof.Laws.RowMatch

/-- A row of the table: the bits that must stand under the mask. -/
inductive Row
  | opw (code mask : Word)
  | panel (code mask : Byte)

/-- A code is one of the words of a row. -/
def Row.holds : Row → Code → Prop
  | .opw c m, .opw w => w &&& m = c
  | .panel c m, .panel b => b &&& m = c
  | _, _ => False

/-- Each instruction's row, match and mask as spec/opcode_table.json writes them. -/
def row : Instr → Row
  | .nop => .opw 0x00000000 0xFFFFFFFF
  | .select _ => .opw 0x00000001 0xFFFFFCFF
  | .deselect _ => .opw 0x00000002 0xFFFFFCFF
  | .sendCmd _ _ => .opw 0x00000003 0xFF00FCFF
  | .sendData _ => .opw 0x00000004 0xFFFFFCFF
  | .sendFramed _ _ => .opw 0x00000005 0xFF00FCFF
  | .waitReady => .opw 0x00000008 0xFFFFFFFF
  | .reset => .opw 0x00000010 0xFFFFFFFF
  | .configure => .opw 0x00000011 0xFFFFFFFF
  | .init => .opw 0x00000012 0xFFFFFFFF
  | .powerOn => .opw 0x00000013 0xFFFFFFFF
  | .refresh => .opw 0x00000014 0xFFFFFFFF
  | .powerOff => .opw 0x00000015 0xFFFFFFFF
  | .sleep => .opw 0x00000016 0xFFFFFFFF
  | .displayUpdate => .opw 0x00000017 0xFFFFFFFF
  | .beginFrame _ => .opw 0x00000020 0xFFFFFCFF
  | .writeLine _ => .opw 0x00000021 0xFFFFFCFF
  | .endFrame _ => .opw 0x00000022 0xFFFFFCFF
  | .fillLine _ => .opw 0x00000030 0xFF00FFFF
  | .glyphIndex _ => .opw 0x00000031 0xFF00FFFF
  | .glyphRow => .opw 0x00000032 0xFFFFFFFF
  | .stampGlyph => .opw 0x00000033 0xFFFFFFFF
  | .clear _ => .opw 0x00000040 0xFF00FFFF
  | .splash => .opw 0x00000041 0xFFFFFFFF
  | .wireLineWrite => .panel 0x10 0xFF
  | .wirePowerOn => .panel 0x04 0xFF
  | .wireDataRefresh => .panel 0x12 0xFF
  | .wirePowerOff => .panel 0x02 0xFF
  | .wireDeepSleep => .panel 0x07 0xFF

/-- The encoding of an instruction is a word of its row. -/
def Statement (i : Instr) : Prop := (row i).holds (encode i)

/-- Masking an operation word masks its fields. -/
theorem opw_masked (opc : Byte) (t : Tgt) (imm : Byte) (m : Word) :
    opwOf opc t imm &&& m =
      (0#8 ++ (imm &&& m.extractLsb' 16 8) ++ 0#6 ++ (t.bits &&& m.extractLsb' 8 2) ++
        (opc &&& m.extractLsb' 0 8)) := by
  ext i hi
  simp only [opwOf, BitVec.getElem_and, BitVec.getElem_append]
  grind

theorem nop : Statement .nop := rfl

theorem select (t : Tgt) : Statement (.select t) := by
  simp [Statement, row, Row.holds, encode, opw_masked, Tgt.bits]

theorem deselect (t : Tgt) : Statement (.deselect t) := by
  simp [Statement, row, Row.holds, encode, opw_masked, Tgt.bits]

theorem sendCmd (t : Tgt) (c : Byte) : Statement (.sendCmd t c) := by
  simp [Statement, row, Row.holds, encode, opw_masked, Tgt.bits]

theorem sendData (t : Tgt) : Statement (.sendData t) := by
  simp [Statement, row, Row.holds, encode, opw_masked, Tgt.bits]

theorem sendFramed (t : Tgt) (c : Byte) : Statement (.sendFramed t c) := by
  simp [Statement, row, Row.holds, encode, opw_masked, Tgt.bits]

theorem waitReady : Statement .waitReady := rfl

theorem reset : Statement .reset := rfl

theorem configure : Statement .configure := rfl

theorem init : Statement .init := rfl

theorem powerOn : Statement .powerOn := rfl

theorem refresh : Statement .refresh := rfl

theorem powerOff : Statement .powerOff := rfl

theorem sleep : Statement .sleep := rfl

theorem displayUpdate : Statement .displayUpdate := rfl

theorem beginFrame (h : Tgt) : Statement (.beginFrame h) := by
  simp [Statement, row, Row.holds, encode, opw_masked, Tgt.bits]

theorem writeLine (h : Tgt) : Statement (.writeLine h) := by
  simp [Statement, row, Row.holds, encode, opw_masked, Tgt.bits]

theorem endFrame (h : Tgt) : Statement (.endFrame h) := by
  simp [Statement, row, Row.holds, encode, opw_masked, Tgt.bits]

theorem fillLine (k : Byte) : Statement (.fillLine k) := by
  simp [Statement, row, Row.holds, encode, opw_masked, Tgt.bits]

theorem glyphIndex (ch : Byte) : Statement (.glyphIndex ch) := by
  simp [Statement, row, Row.holds, encode, opw_masked, Tgt.bits]

theorem glyphRow : Statement .glyphRow := rfl

theorem stampGlyph : Statement .stampGlyph := rfl

theorem clear (k : Byte) : Statement (.clear k) := by
  simp [Statement, row, Row.holds, encode, opw_masked, Tgt.bits]

theorem splash : Statement .splash := rfl

theorem wireLineWrite : Statement .wireLineWrite := rfl

theorem wirePowerOn : Statement .wirePowerOn := rfl

theorem wireDataRefresh : Statement .wireDataRefresh := rfl

theorem wirePowerOff : Statement .wirePowerOff := rfl

theorem wireDeepSleep : Statement .wireDeepSleep := rfl

end Sys2Proof.Laws.RowMatch
end

