-- ==== Sys2Proof/Laws/Runs.lean ====
section
/-! SUPPORT. Runs of the sequencer over the pieces of an event list: a list of plain events, a frame
to both halves, and a busy wait that is answered or times out. -/

namespace Sys2Proof.Machine

/-- Some number of steps leads from s to u. -/
def Reaches (s u : State) : Prop := ∃ n, RunsTo n s u

theorem Reaches.refl (s : State) : Reaches s s := ⟨0, RunsTo.refl s⟩

theorem Reaches.trans {s t u : State} (h : Reaches s t) (k : Reaches t u) : Reaches s u := by
  obtain ⟨n, h⟩ := h
  obtain ⟨m, k⟩ := k
  exact ⟨n + m, h.trans k⟩

/-- One move of the sequencer. -/
theorem Reaches.one {s t : State} (ht : s.turns = []) (h : sequencerTurn s = .next t) :
    Reaches s t := ⟨1, RunsTo.one ht h⟩

/-- One event and the assignments that follow it. -/
theorem Reaches.event {s : State} {m : Micro} {e : Event} {r : List Micro} (ht : s.turns = [])
    (h : s.run = true) (hs : s.seq = m :: r) (he : eventOf? m s = some e) :
    Reaches s ((s.emit e).settle r) := ⟨1, RunsTo.event ht h hs he⟩

/-- An assignment is made before the next event is looked for, so a state whose position settle has
left is reached together with the assignments. -/
theorem settle_settle (s : State) (p : List Micro) :
    (s.settle p).settle (s.settle p).seq = s.settle p := by
  induction p generalizing s with
  | nil => rfl
  | cons m p ih =>
    cases m with
    | act a => rw [State.settle_act]; exact ih _
    | _ => rfl

/-- The plain items of a position: those that emit one event each by themselves. -/
def isPlain : Micro → Bool
  | .setCS _ _ => true
  | .tx _ _ => true
  | .setRST _ => true
  | .setPWR _ => true
  | .delay _ => true
  | _ => false

/-- What a plain item does to a state. -/
def plainEmit (s : State) (m : Micro) : State :=
  match eventOf? m s with
  | some e => s.emit e
  | none => s

@[simp] theorem plainEmit_turns (s : State) (m : Micro) : (plainEmit s m).turns = s.turns := by
  unfold plainEmit; split <;> simp

@[simp] theorem plainEmit_run (s : State) (m : Micro) : (plainEmit s m).run = s.run := by
  unfold plainEmit; split <;> simp

/-- A run over plain items: each emits its event, and the assignments after the last are made. -/
theorem Reaches.plain {s : State} (p : List Micro) {r : List Micro} (hne : p ≠ [])
    (hp : ∀ m ∈ p, isPlain m = true) (ht : s.turns = []) (h : s.run = true) (hs : s.seq = p ++ r) :
    Reaches s ((p.foldl plainEmit s).settle r) := by
  induction p generalizing s with
  | nil => exact absurd rfl hne
  | cons m p ih =>
    have hm : ∃ e, eventOf? m s = some e := by
      have := hp m (by simp)
      cases m <;> simp [isPlain] at this <;> exact ⟨_, rfl⟩
    obtain ⟨e, he⟩ := hm
    have h1 := Reaches.event ht h hs he
    have hpe : plainEmit s m = s.emit e := by simp [plainEmit, he]
    cases p with
    | nil => simpa [hpe] using h1
    | cons m' p =>
      have hm' : isPlain m' = true := hp m' (by simp)
      have hst : (s.emit e).settle (m' :: p ++ r) = (s.emit e).withSeq (m' :: p ++ r) := by
        cases m' <;> simp [isPlain] at hm' <;> rfl
      rw [show ((m' :: p).append r) = m' :: p ++ r from rfl, hst] at h1
      have h2 := ih (s := (s.emit e).withSeq (m' :: p ++ r)) (by simp)
        (fun x hx => hp x (by simp at hx ⊢; tauto)) (by simpa using ht) (by simpa using h) rfl
      have key : ∀ (q : List Micro) (t : State) (z : List Micro),
          (q.foldl plainEmit (t.withSeq z)).settle r = (q.foldl plainEmit t).settle r := by
        intro q
        induction q with
        | nil => intro t z; simp
        | cons x q ihq =>
          intro t z
          have : plainEmit (t.withSeq z) x = (plainEmit t x).withSeq z := by
            unfold plainEmit
            rw [show eventOf? x (t.withSeq z) = eventOf? x t by cases x <;> rfl]
            cases eventOf? x t <;> simp
          rw [List.foldl_cons, this, ihq, List.foldl_cons]
      rw [key] at h2
      rw [List.foldl_cons, hpe]
      exact h1.trans h2

/-- Data bytes change the trace and DC alone. -/
theorem foldl_plainEmit_data (bs : List Byte) (s : State) :
    (bs.map (Micro.tx .data)).foldl plainEmit s =
      { s with dc := if bs = [] then s.dc else true, trace := s.trace ++ dataEvents s bs } := by
  induction bs generalizing s with
  | nil => simp [dataEvents]
  | cons b bs ih =>
    rw [List.map_cons, List.foldl_cons, ih]
    have : plainEmit s (.tx .data b) = s.emit (.tx .data b s.csM s.csS) := rfl
    rw [this]
    cases bs <;> simp [dataEvents, State.emit]

/-- A frame to both halves (R271): its events, both lines high, DC at the last byte's level. -/
theorem Reaches.frameBoth {s : State} (c : Byte) (bs : List Byte) {r : List Micro}
    (ht : s.turns = []) (h : s.run = true) (hs : s.seq = frameBoth c bs ++ r) :
    Reaches s (State.settle r
      { s with
        csM := true, csS := true, dc := if bs = [] then false else true,
        trace := s.trace ++ frameBothEvents c bs }) := by
  have h1 := Reaches.plain (Machine.frameBoth c bs) (r := r) (by simp [Machine.frameBoth]) (by
    intro m hm
    simp only [Machine.frameBoth, List.cons_append, List.mem_cons, List.mem_append, List.mem_map,
      List.not_mem_nil, or_false] at hm
    rcases hm with rfl | rfl | ⟨b, _, rfl⟩ | rfl <;> rfl) ht h hs
  have h2 : (Machine.frameBoth c bs).foldl plainEmit s =
      { s with
        csM := true, csS := true, dc := if bs = [] then false else true,
        trace := s.trace ++ frameBothEvents c bs } := by
    simp only [Machine.frameBoth, List.foldl_append, List.foldl_cons, List.foldl_nil,
      foldl_plainEmit_data]
    simp [plainEmit, eventOf?, State.emit, frameBothEvents, dataEvents]
  rwa [h2] at h1

/-! ### The busy wait (R231, R232, R234) -/

/-- The state after busy samples: the inputs that are left, the last level, the count, and the events
of the wait so far. -/
def State.polled (s : State) (rest : List Bool) (lvl : Bool) (k : Nat) (es : List Event) : State :=
  { s with busyIn := rest, busys := lvl, hcount := k, trace := s.trace ++ es }

@[simp] theorem polled_turns (s : State) (rest lvl k es) :
    (s.polled rest lvl k es).turns = s.turns := rfl
@[simp] theorem polled_run (s : State) (rest lvl k es) : (s.polled rest lvl k es).run = s.run := rfl
@[simp] theorem polled_seq (s : State) (rest lvl k es) : (s.polled rest lvl k es).seq = s.seq := rfl
@[simp] theorem polled_cfg (s : State) (rest lvl k es) : (s.polled rest lvl k es).cfg = s.cfg := rfl
@[simp] theorem polled_busyIn (s : State) (rest lvl k es) :
    (s.polled rest lvl k es).busyIn = rest := rfl
@[simp] theorem polled_hcount (s : State) (rest lvl k es) :
    (s.polled rest lvl k es).hcount = k := rfl
@[simp] theorem polled_withSeq (s : State) (rest lvl k es q) :
    (s.withSeq q).polled rest lvl k es = (s.polled rest lvl k es).withSeq q := rfl
@[simp] theorem polled_polled (s : State) (rest lvl k es rest' lvl' k' es') :
    (s.polled rest lvl k es).polled rest' lvl' k' es' = s.polled rest' lvl' k' (es ++ es') := by
  simp [State.polled]
theorem polled_self (s : State) : s.polled s.busyIn s.busys s.hcount [] = s := by
  simp [State.polled]

/-- HCOUNT has reached the limit, if there is one (R231, R234). -/
theorem pollLimitReached_iff (s : State) :
    pollLimitReached s = true ↔ ∃ n : ℕ+, s.cfg.busyPollLimit = some n ∧ (n : Nat) ≤ s.hcount := by
  unfold pollLimitReached
  cases s.cfg.busyPollLimit with
  | none => simp
  | some m => simp

/-- The end of an iteration whose sample read 0: time out at the limit, else wait and go round. -/
theorem pollStep_zero {s : State} {rest : List Bool} (hb : s.busyIn = false :: rest) :
    pollStep s =
      if pollLimitReached (s.polled rest false (s.hcount + 1) [.pollBusy false]) then
        (s.polled rest false (s.hcount + 1) [.pollBusy false]).errorEntry .handshakeTimeout
      else (s.polled rest false (s.hcount + 1) [.pollBusy false]).withSeq
        (.delay tPoll :: .kick :: s.seq) := by
  unfold pollStep State.sampleBusy
  rw [hb]
  rfl

theorem pollStep_one {s : State} {rest : List Bool} (hb : s.busyIn = true :: rest) :
    pollStep s =
      (s.polled rest true s.hcount [.pollBusy true]).withSeq (.delay tSettle :: s.seq) := by
  unfold pollStep State.sampleBusy
  rw [hb]
  rfl

/-- The kick and the sample of an iteration. -/
theorem Reaches.sample {s : State} {r : List Micro} (ht : s.turns = []) (h : s.run = true)
    (hs : s.seq = .kick :: r) : Reaches s (pollStep ((s.emit .wdtKick).withSeq r)) := by
  have h1 := Reaches.one ht (sequencerTurn_kick h hs)
  exact h1.trans (Reaches.one (by simpa using ht) (sequencerTurn_poll (by simpa using h) rfl))

theorem emit_kick (s : State) : s.emit .wdtKick = s.polled s.busyIn s.busys s.hcount [.wdtKick] :=
  rfl

/-- One iteration that reads 0 below the limit. -/
theorem Reaches.busy {s : State} {rest : List Bool} {r : List Micro} (ht : s.turns = [])
    (h : s.run = true) (hs : s.seq = .kick :: r) (hb : s.busyIn = false :: rest)
    (hl : ∀ n : ℕ+, s.cfg.busyPollLimit = some n → s.hcount + 1 < n) :
    Reaches s (s.polled rest false (s.hcount + 1) [.wdtKick, .pollBusy false, .delay 10]) := by
  have h1 := Reaches.sample ht h hs
  rw [pollStep_zero (rest := rest) (by simpa using hb), emit_kick] at h1
  simp only [polled_withSeq, polled_polled, State.withSeq_hcount, polled_hcount] at h1
  rw [if_neg] at h1
  · have h2 := h1.trans (Reaches.event (m := .delay 10) (by simpa using ht) (by simpa using h) rfl rfl)
    have e : s = s.withSeq (.kick :: r) := by rw [← hs]; rfl
    rw [e] at h2 ⊢
    simpa [State.emit, State.polled, State.withSeq] using h2
  · rw [pollLimitReached_iff]
    rintro ⟨n, hn, hc⟩
    have := hl n hn
    simp only [State.withSeq_hcount, polled_hcount] at hc
    omega

/-- k iterations that read 0, below the limit. -/
theorem Reaches.busyLoop (k : Nat) {s : State} {rest : List Bool} {r : List Micro}
    (ht : s.turns = []) (h : s.run = true) (hs : s.seq = .kick :: r)
    (hb : s.busyIn = List.replicate k false ++ rest)
    (hl : ∀ n : ℕ+, s.cfg.busyPollLimit = some n → s.hcount + k < n) :
    Reaches s (s.polled rest (if k = 0 then s.busys else false) (s.hcount + k)
      (List.replicate k [.wdtKick, .pollBusy false, .delay 10]).flatten) := by
  induction k generalizing s with
  | zero =>
    have : s.busyIn = rest := by simpa using hb
    have e := polled_self s
    rw [this] at e
    simpa [e] using Reaches.refl s
  | succ k ih =>
    have h1 := Reaches.busy (rest := List.replicate k false ++ rest) ht h hs
      (by rw [hb, List.replicate_succ, List.cons_append]) fun n hn => by have := hl n hn; omega
    have h2 := h1.trans (ih (by simpa using ht) (by simpa using h) (by simpa using hs) rfl
      fun n hn => by have := hl n hn; simp only [polled_hcount]; omega)
    have e : s.hcount + 1 + k = s.hcount + (k + 1) := by omega
    simpa [List.replicate_succ, State.polled, e] using h2

/-- The start of a wait and k samples that read 0 below the limit. -/
theorem Reaches.waitZeros {s : State} (k : Nat) {rest : List Bool} {r : List Micro}
    (ht : s.turns = []) (h : s.run = true) (hs : s.seq = .waitReady :: r)
    (hb : s.busyIn = List.replicate k false ++ rest)
    (hl : ∀ n : ℕ+, s.cfg.busyPollLimit = some n → k < n) :
    ∃ lvl, Reaches s ((s.polled rest lvl k
      (List.replicate k [.wdtKick, .pollBusy false, .delay 10]).flatten).withSeq (.kick :: r)) := by
  have h1 := Reaches.one ht (sequencerTurn_waitReady h hs)
  have h2 := h1.trans (Reaches.busyLoop k (s := s.clearPolls.withSeq (.kick :: r)) (rest := rest)
    ht h rfl hb fun n hn => by have := hl n hn; simp only [State.clearPolls, State.withSeq]; omega)
  rw [show (s.clearPolls.withSeq (.kick :: r)).hcount + k = k from Nat.zero_add k] at h2
  exact ⟨_, h2⟩

/-- A wait that the panel answers: its events, HCOUNT and BUSYS (R231, R232). -/
theorem Reaches.wait {s : State} {k : Nat} {rest : List Bool} {r : List Micro} (ht : s.turns = [])
    (h : s.run = true) (hs : s.seq = .waitReady :: r) (ha : answersAfter s k rest) :
    Reaches s (State.settle r (s.polled rest true k (waitEvents k))) := by
  obtain ⟨lvl, h2⟩ := Reaches.waitZeros k ht h hs ha.1 ha.2
  have h3 := h2.trans (Reaches.sample (by simpa using ht) (by simpa using h) rfl)
  rw [emit_kick, pollStep_one (rest := rest) rfl] at h3
  simp only [polled_withSeq, polled_polled, State.withSeq_hcount, polled_hcount,
    State.withSeq_seq] at h3
  have h4 := h3.trans (Reaches.event (m := .delay 20) (by simpa using ht) (by simpa using h) rfl rfl)
  have e := State.settle_withSeq r (s.polled rest true k (waitEvents k)) (.delay 20 :: r)
  rw [← e]
  simpa [State.emit, State.polled, State.withSeq, waitEvents, tSettle] using h4

/-- A wait that the panel does not answer within BUSY_POLL_LIMIT samples: the error entry at the
last sample, with no delay after it (R231, R234). -/
theorem Reaches.timeout {s : State} {n : ℕ+} {rest : List Bool} {r : List Micro}
    (ht : s.turns = []) (h : s.run = true) (hs : s.seq = .waitReady :: r)
    (hn : s.cfg.busyPollLimit = some n) (hb : s.busyIn = List.replicate n false ++ rest) :
    Reaches s (State.errorEntry .handshakeTimeout (s.polled rest false n
      ((List.replicate ((n : Nat) - 1) [.wdtKick, .pollBusy false, .delay 10]).flatten ++
        [.wdtKick, .pollBusy false]))) := by
  obtain ⟨k, hk⟩ : ∃ k : Nat, (n : Nat) = k + 1 := ⟨n - 1, by have := n.pos; omega⟩
  have hb' : s.busyIn = List.replicate k false ++ false :: rest := by
    rw [hb, hk, List.replicate_succ']; simp
  obtain ⟨lvl, h2⟩ := Reaches.waitZeros k ht h hs hb' fun m hm => by
    rw [hn] at hm; cases hm; omega
  have h3 := h2.trans (Reaches.sample (by simpa using ht) (by simpa using h) rfl)
  rw [emit_kick, pollStep_zero (rest := rest) rfl] at h3
  simp only [polled_withSeq, polled_polled, State.withSeq_hcount, polled_hcount,
    State.withSeq_seq, State.errorEntry_withSeq] at h3
  rw [if_pos] at h3
  · simpa [hk] using h3
  · rw [pollLimitReached_iff]
    exact ⟨n, hn, by simp only [State.withSeq_hcount, polled_hcount]; omega⟩

/-! ### The same, from a base state and what is left to do -/

/-- The state after frame_both(c, bs) (R271). -/
def State.framed (s : State) (c : Byte) (bs : List Byte) : State :=
  { s with
    csM := true, csS := true, dc := if bs = [] then false else true,
    trace := s.trace ++ frameBothEvents c bs }

@[simp] theorem framed_turns (s : State) (c bs) : (s.framed c bs).turns = s.turns := rfl
@[simp] theorem framed_run (s : State) (c bs) : (s.framed c bs).run = s.run := rfl
@[simp] theorem framed_cfg (s : State) (c bs) : (s.framed c bs).cfg = s.cfg := rfl
@[simp] theorem framed_busyIn (s : State) (c bs) : (s.framed c bs).busyIn = s.busyIn := rfl

/-- Nothing but the sequencer moves, and the operation runs. -/
structure Moving (s : State) : Prop where
  run : s.run = true
  turns : s.turns = []

theorem Moving.emit {s : State} (h : Moving s) (e : Event) : Moving (s.emit e) :=
  ⟨by simpa using h.run, by simpa using h.turns⟩
theorem Moving.framed {s : State} (h : Moving s) (c bs) : Moving (s.framed c bs) := ⟨h.run, h.turns⟩
theorem Moving.polled {s : State} (h : Moving s) (rest lvl k es) :
    Moving (s.polled rest lvl k es) := ⟨h.run, h.turns⟩
theorem Moving.applyAct {s : State} (h : Moving s) (a : Act) : Moving (s.applyAct a) := by
  cases a <;> exact ⟨h.run, h.turns⟩
theorem Moving.withSeq {s : State} (h : Moving s) (q : List Micro) : Moving (s.withSeq q) :=
  ⟨h.run, h.turns⟩
theorem Moving.lineOnly {s t : State} (h : Moving s) (l : LineOnly s t) : Moving t :=
  ⟨by obtain ⟨m, rfl, _⟩ := l; exact h.run, by obtain ⟨m, rfl, _⟩ := l; exact h.turns⟩

theorem Reaches.settleFin {s : State} (h : Moving s) : Reaches (s.settle []) s.complete :=
  ⟨1, RunsTo.done (s := s.settle []) h.turns h.run rfl⟩

theorem Reaches.settleEvent {s : State} (h : Moving s) {m : Micro} {e : Event}
    (he : eventOf? m s = some e) (r : List Micro) :
    Reaches (s.settle (m :: r)) ((s.emit e).settle r) := by
  have hw : s.settle (m :: r) = s.withSeq (m :: r) := by
    cases m <;> first | rfl | (simp [eventOf?] at he)
  rw [hw]
  have h1 := Reaches.event (s := s.withSeq (m :: r)) (m := m) (r := r) (e := e) h.turns h.run rfl
    (by rw [← he]; cases m <;> rfl)
  simpa using h1

theorem Reaches.settleFrame {s : State} (h : Moving s) (c : Byte) (bs : List Byte)
    (r : List Micro) : Reaches (s.settle (Machine.frameBoth c bs ++ r)) ((s.framed c bs).settle r) := by
  have h1 := Reaches.frameBoth (s := s.withSeq (Machine.frameBoth c bs ++ r)) c bs (r := r)
    h.turns h.run rfl
  rw [show s.settle (Machine.frameBoth c bs ++ r) = s.withSeq (Machine.frameBoth c bs ++ r) from rfl]
  rw [← State.settle_withSeq r (s.framed c bs) (Machine.frameBoth c bs ++ r)]
  exact h1

theorem Reaches.settleWait {s : State} (h : Moving s) {k : Nat} {rest : List Bool}
    (ha : answersAfter s k rest) (r : List Micro) :
    Reaches (s.settle (.waitReady :: r)) ((s.polled rest true k (waitEvents k)).settle r) := by
  have h1 := Reaches.wait (s := s.withSeq (.waitReady :: r)) (r := r) h.turns h.run rfl ha
  rw [polled_withSeq, State.settle_withSeq] at h1
  exact h1

theorem Reaches.settleTimeout {s : State} (h : Moving s) {n : ℕ+} {rest : List Bool}
    (hn : s.cfg.busyPollLimit = some n) (hb : s.busyIn = List.replicate n false ++ rest)
    (r : List Micro) :
    Reaches (s.settle (.waitReady :: r)) (State.errorEntry .handshakeTimeout (s.polled rest false n
      ((List.replicate ((n : Nat) - 1) [.wdtKick, .pollBusy false, .delay 10]).flatten ++
        [.wdtKick, .pollBusy false]))) := by
  have h1 := Reaches.timeout (s := s.withSeq (.waitReady :: r)) (r := r) h.turns h.run rfl hn hb
  rw [polled_withSeq, State.errorEntry_withSeq] at h1
  exact h1

theorem Reaches.settlePanel {s : State} (h : Moving s) {b : Byte} {i : Instr}
    (hd : decodePanel b = .ok i) (r : List Micro) :
    Reaches (s.settle (.wire b :: r)) (s.settle (panelProg i ++ r)) := by
  have h2 : exec i ((s.withSeq (.wire b :: r)).withSeq r) = .next (s.settle (panelProg i ++ r)) := by
    have hi : i = .wireLineWrite ∨ i = .wirePowerOn ∨ i = .wireDataRefresh ∨ i = .wirePowerOff ∨
        i = .wireDeepSleep := by
      unfold decodePanel at hd
      split at hd <;> cases hd <;> simp
    rcases hi with rfl | rfl | rfl | rfl | rfl <;> rfl
  exact Reaches.one (s := s.withSeq (.wire b :: r)) h.turns
    ((sequencerTurn_wire (s := s.withSeq (.wire b :: r)) (i := i) (r := r) h.run rfl hd).trans h2)

/-- Data bytes at the levels that stand. -/
theorem Reaches.settleData {s : State} (h : Moving s) (bs : List Byte) (hne : bs ≠ [])
    (r : List Micro) :
    Reaches (s.settle (bs.map (.tx .data) ++ r))
      (State.settle r { s with dc := true, trace := s.trace ++ dataEvents s bs }) := by
  cases bs with
  | nil => exact absurd rfl hne
  | cons b bs =>
    have h1 := RunsTo.data (s := s.withSeq ((b :: bs).map (.tx .data) ++ r)) (b :: bs) (r := r)
      h.turns h.run rfl hne
    rw [show dataEvents (s.withSeq ((b :: bs).map (.tx .data) ++ r)) (b :: bs) =
      dataEvents s (b :: bs) from rfl, State.emitAll_withSeq, State.settle_withSeq,
      State.emitAll_data s (b :: bs) hne] at h1
    exact ⟨_, h1⟩

end Sys2Proof.Machine
end

