-- ==== Sys2Proof/Tests/Slice0.lean ====
section
/-! SUPPORT. The model's own tests. Every expected value is the spec's: a worked example of a rule or
a vector of spec/95_test_vectors.md, named in the docstring. Then, for every obligation with
hypotheses, a state and operands that meet them. -/

namespace Sys2Proof.Tests

open Sys2Proof.Machine

/-! ### Helpers -/

/-- Parameters for tests: the made-up table of R254's example, a glyph table of 0x11 rows, the band
colors of 95_test_vectors.md P5, the margin and pitch of its render_line vector. -/
def params : Params where
  textX0 := 584
  charPitch := 32
  bandColor := #v[.c0, .c1, .c2, .c3, .c5, .c6]
  glyphRom := Vector.replicate 41 (Vector.replicate 8 0xFF)
  configTable := [⟨0xA0, [0x01], false, by decide⟩, ⟨0xB0, [], true, by decide⟩,
    ⟨0xB1, [0x02], true, by decide⟩]
  hasPwr := true
  busyPollLimit := none
  delayTol := ⟨0, 1⟩

/-- The state after reset with known parameters. -/
def idle : State := { State.reset with cfg := params }

/-- An operation is running: the state in which an operation is executed. -/
def running : State := { idle with run := true }

/-- An operation running in a Master session (vector T1). -/
def inSession : State := { running with session := some .master, csM := false }

/-- An operation running with the Master selected outside a session (after SELECT M). -/
def selected : State := { running with csM := false }

/-- A running state whose LINEBUF is all 0x11. -/
def lined : State := fillLinebuf .c1 running

/-- A running state with the arguments of an operation. -/
def withArgs (s : State) (a0 a1 : Word) : State := { s with arg0 := a0, arg1 := a1 }

/-- What a field is after a step or an instruction, if there is a next state. -/
def after {α : Type} (r : Result) (f : State → α) : Option α :=
  match r with
  | .next s => some (f s)
  | .fault _ => none
  | .refused _ => none

/-- The error record that a result leaves: ERRCODE, ERROP, STATUS and the trace. -/
def errorOf (r : Result) : Option (Word × Word × List Event) :=
  after r fun s => (errcodeWord s, statusWord s, s.trace)

/-- The state whose next step is the host's action. -/
def hosted (s : State) (a : HostAction) : State := { s with turns := [.host a] }

/-- The operation word w has just been latched. -/
def issued (s : State) (w : Word) : State := { s with op := w, run := true, seq := [.start] }

/-- The bytes of LINEBUF at the given places. -/
def lineAt (is : List Nat) (s : State) : List Byte := is.map fun i => s.ram (0x200 + i)

/-! ### Well-formedness: the check refuses an ill-formed term of each kind -/

theorem test_wf_select : (Instr.select .none).wellFormed = false := by decide
theorem test_wf_deselect : (Instr.deselect .none).wellFormed = false := by decide
theorem test_wf_sendCmd : (Instr.sendCmd .none 4).wellFormed = false := by decide
theorem test_wf_sendData : (Instr.sendData .none).wellFormed = false := by decide
theorem test_wf_sendFramed : (Instr.sendFramed .none 4).wellFormed = false := by decide
theorem test_wf_beginFrame : (Instr.beginFrame .both).wellFormed = false := by decide
theorem test_wf_writeLine : (Instr.writeLine .none).wellFormed = false := by decide
theorem test_wf_endFrame : (Instr.endFrame .both).wellFormed = false := by decide
theorem test_wf_fillLine : (Instr.fillLine 4).wellFormed = false := by decide
theorem test_wf_clear : (Instr.clear 7).wellFormed = false := by decide
theorem test_wf_accepts :
    (Instr.clear 6).wellFormed = true ∧ (Instr.select .both).wellFormed = true := by decide

/-! ### Decoding: RSV2 ++ IMM ++ RSV1 ++ TGT ++ OPC (R140, R145) -/

theorem test_decode_nop : decode (0#8 ++ 0#8 ++ 0#6 ++ 0b00#2 ++ 0x00#8) = .ok .nop := rfl
theorem test_decode_select :
    decode (0#8 ++ 0#8 ++ 0#6 ++ 0b01#2 ++ 0x01#8) = .ok (.select .master) := rfl
theorem test_decode_deselect :
    decode (0#8 ++ 0#8 ++ 0#6 ++ 0b10#2 ++ 0x02#8) = .ok (.deselect .slave) := rfl
theorem test_decode_sendCmd :
    decode (0#8 ++ 0x04#8 ++ 0#6 ++ 0b11#2 ++ 0x03#8) = .ok (.sendCmd .both 0x04) := rfl
theorem test_decode_sendData :
    decode (0#8 ++ 0#8 ++ 0#6 ++ 0b01#2 ++ 0x04#8) = .ok (.sendData .master) := rfl
theorem test_decode_sendFramed :
    decode (0#8 ++ 0x12#8 ++ 0#6 ++ 0b11#2 ++ 0x05#8) = .ok (.sendFramed .both 0x12) := rfl
theorem test_decode_waitReady :
    decode (0#8 ++ 0#8 ++ 0#6 ++ 0b00#2 ++ 0x08#8) = .ok .waitReady := rfl
theorem test_decode_reset : decode (0#8 ++ 0#8 ++ 0#6 ++ 0b00#2 ++ 0x10#8) = .ok .reset := rfl
theorem test_decode_configure :
    decode (0#8 ++ 0#8 ++ 0#6 ++ 0b00#2 ++ 0x11#8) = .ok .configure := rfl
theorem test_decode_init : decode (0#8 ++ 0#8 ++ 0#6 ++ 0b00#2 ++ 0x12#8) = .ok .init := rfl
theorem test_decode_powerOn :
    decode (0#8 ++ 0#8 ++ 0#6 ++ 0b00#2 ++ 0x13#8) = .ok .powerOn := rfl
theorem test_decode_refresh :
    decode (0#8 ++ 0#8 ++ 0#6 ++ 0b00#2 ++ 0x14#8) = .ok .refresh := rfl
theorem test_decode_powerOff :
    decode (0#8 ++ 0#8 ++ 0#6 ++ 0b00#2 ++ 0x15#8) = .ok .powerOff := rfl
theorem test_decode_sleep : decode (0#8 ++ 0#8 ++ 0#6 ++ 0b00#2 ++ 0x16#8) = .ok .sleep := rfl
theorem test_decode_displayUpdate :
    decode (0#8 ++ 0#8 ++ 0#6 ++ 0b00#2 ++ 0x17#8) = .ok .displayUpdate := rfl
theorem test_decode_beginFrame :
    decode (0#8 ++ 0#8 ++ 0#6 ++ 0b01#2 ++ 0x20#8) = .ok (.beginFrame .master) := rfl
theorem test_decode_writeLine :
    decode (0#8 ++ 0#8 ++ 0#6 ++ 0b10#2 ++ 0x21#8) = .ok (.writeLine .slave) := rfl
theorem test_decode_endFrame :
    decode (0#8 ++ 0#8 ++ 0#6 ++ 0b11#2 ++ 0x22#8) = .ok (.endFrame .both) := rfl
theorem test_decode_fillLine :
    decode (0#8 ++ 0x04#8 ++ 0#6 ++ 0b00#2 ++ 0x30#8) = .ok (.fillLine 4) := rfl
theorem test_decode_glyphIndex :
    decode (0#8 ++ 0xFF#8 ++ 0#6 ++ 0b00#2 ++ 0x31#8) = .ok (.glyphIndex 0xFF) := rfl
theorem test_decode_glyphRow :
    decode (0#8 ++ 0#8 ++ 0#6 ++ 0b00#2 ++ 0x32#8) = .ok .glyphRow := rfl
theorem test_decode_stampGlyph :
    decode (0#8 ++ 0#8 ++ 0#6 ++ 0b00#2 ++ 0x33#8) = .ok .stampGlyph := rfl
theorem test_decode_clear :
    decode (0#8 ++ 0x01#8 ++ 0#6 ++ 0b00#2 ++ 0x40#8) = .ok (.clear 1) := rfl
theorem test_decode_splash : decode (0#8 ++ 0#8 ++ 0#6 ++ 0b00#2 ++ 0x41#8) = .ok .splash := rfl
theorem test_decode_wireLineWrite : decodePanel 0b00010000#8 = .ok .wireLineWrite := rfl
theorem test_decode_wirePowerOn : decodePanel 0b00000100#8 = .ok .wirePowerOn := rfl
theorem test_decode_wireDataRefresh : decodePanel 0b00010010#8 = .ok .wireDataRefresh := rfl
theorem test_decode_wirePowerOff : decodePanel 0b00000010#8 = .ok .wirePowerOff := rfl
theorem test_decode_wireDeepSleep : decodePanel 0b00000111#8 = .ok .wireDeepSleep := rfl

/-- The illegal words of 95_test_vectors.md section 2. -/
theorem test_decode_illegal :
    ([0x00000100, 0x00000006, 0x000000FF, 0x01120305, 0x00120705, 0x00010001, 0x00000108,
      0x00000130] : List Word).all (fun w => !(decode w).isOk) = true := by decide

/-! ### Framer (vectors F1 to F10) -/

/-- R202: NOP completes and emits nothing. -/
theorem test_nop : after (exec .nop running) (fun s => (s.run, s.trace)) = some (false, []) := by
  decide
/-- R204: SELECT M is the one event SetCS(M, 0). -/
theorem test_select :
    after (exec (.select .master) running) (·.seq) = some [.setCS .m false] := by decide
/-- R204: then SELECT S raises CS_CONFLICT, and the error entry deselects. -/
theorem test_select_conflict :
    errorOf (exec (.select .slave) selected) = some (8, 0x00007002, [.setCS .ms true]) := by decide
/-- F9: DESELECT BOTH is the one event SetCS(MS, 1). -/
theorem test_deselect :
    after (exec (.deselect .both) selected) (·.seq) = some [.setCS .ms true] := by decide
/-- F8: DESELECT in a session raises SESSION_OPEN, which closes it. -/
theorem test_deselect_session :
    errorOf (exec (.deselect .master) inSession) = some (3, 0x00007002, [.setCS .ms true]) := by
  decide
/-- F1: SEND_CMD BOTH, 0x04. -/
theorem test_sendCmd :
    after (exec (.sendCmd .both 0x04) running) (·.seq)
      = some [.setCS .ms false, .tx .cmd 0x04] := by decide
/-- F5: SEND_CMD S after SELECT M raises CS_CONFLICT. -/
theorem test_sendCmd_conflict :
    errorOf (exec (.sendCmd .slave 1) selected) = some (8, 0x00007002, [.setCS .ms true]) := by
  decide
/-- F2: SEND_DATA M of length 0 only selects. -/
theorem test_sendData_empty :
    after (exec (.sendData .master) running) (·.seq) = some [.setCS .m false] := by decide
/-- F4: a length of 257 raises BAD_OPERAND. -/
theorem test_sendData_long :
    errorOf (exec (.sendData .master) (withArgs running 0x101 0)) = some (2, 0x00007002, []) := by
  decide
/-- F3: SEND_FRAMED S, 0xA0, 2 with PAYLOAD 0x11, 0x22. -/
theorem test_sendFramed :
    after (exec (.sendFramed .slave 0xA0)
        (withArgs (running.writeRam 0x100 [0x11, 0x22]) 2 0)) (·.seq)
      = some [.setCS .s false, .tx .cmd 0xA0, .tx .data 0x11, .tx .data 0x22] := by decide
/-- 95_test_vectors.md section 2: ARG0[9] set raises BAD_OPERAND. -/
theorem test_sendFramed_reserved :
    errorOf (exec (.sendFramed .both 0x12) (withArgs running 0x200 0))
      = some (2, 0x00007002, []) := by decide

/-! ### Handshake (vectors H1 to H8) -/

/-- H8: WAIT_READY in a session raises SESSION_OPEN before any sample. -/
theorem test_waitReady_session :
    errorOf (exec .waitReady inSession) = some (3, 0x00007002, [.setCS .ms true]) := by decide
/-- H7: with BUSY_POLL_LIMIT = 1 a busy sample times out; the error entry deselects. -/
theorem test_waitReady_timeout :
    errorOf (step { selected with
        cfg := { params with busyPollLimit := some 1 }, busyIn := [false], seq := [.poll] })
      = some (9, 0x00007002, [.pollBusy false, .setCS .ms true]) := by decide

/-! ### Sequencer (vectors S1 to S13) -/

/-- E5: the reset train; LIFE is Resetting before its first event (R252). -/
theorem test_reset :
    after (exec .reset running) (fun s => (s.life, s.seq))
      = some (.resetting, [.setRST true, .delay 30, .setRST false, .delay 30, .setRST true,
          .delay 30, .setRST false, .delay 30, .setRST true, .delay 30]) := by decide
/-- S11: RESET while a chip-select is asserted raises CS_CONFLICT. -/
theorem test_reset_conflict :
    errorOf (exec .reset selected) = some (8, 0x00007002, [.setCS .ms true]) := by decide
/-- S2: the configuration list of R254's example. -/
theorem test_configure :
    after (exec .configure running) (·.seq)
      = some [.setCS .ms false, .tx .cmd 0xA0, .tx .data 0x01, .setCS .ms true, .setCS .m false,
          .tx .cmd 0xB0, .tx .cmd 0xB1, .tx .data 0x02, .setCS .m true,
          .act (.setLife .initialized)] := by decide
/-- S4: two groups separated by an ungrouped entry are two master assertions. -/
theorem test_configure_groups :
    after (exec .configure { running with cfg := { params with configTable :=
        [⟨0xC0, [], true, by decide⟩, ⟨0xC1, [], false, by decide⟩, ⟨0xC2, [], true, by decide⟩] } })
        (·.seq)
      = some [.setCS .m false, .tx .cmd 0xC0, .setCS .m true, .setCS .ms false, .tx .cmd 0xC1,
          .setCS .ms true, .setCS .m false, .tx .cmd 0xC2, .setCS .m true,
          .act (.setLife .initialized)] := by decide
/-- S3: INIT with a power pin drives it before the reset train; LIFE is not Resetting yet (R256). -/
theorem test_init :
    after (exec .init running) (fun s => (s.life, s.seq.take 3))
      = some (.unpowered, [.setPWR true, .act (.setLife .resetting), .setRST true]) := by decide
/-- R256: without a power pin INIT begins with the reset train. -/
theorem test_init_no_pin :
    after (exec .init { running with cfg := { params with hasPwr := false } })
        (fun s => (s.life, s.seq.take 2))
      = some (.resetting, [.setRST true, .delay 30]) := by decide
/-- S12: SLEEP in a session raises SESSION_OPEN, checked before CS_CONFLICT. -/
theorem test_sleep_session :
    errorOf (exec .sleep inSession) = some (3, 0x00007002, [.setCS .ms true]) := by decide
/-- S9: SLEEP ends by recording LIFE = Sleeping after the deep-sleep command. -/
theorem test_sleep :
    after (exec .sleep running) (fun s => (s.life, s.seq))
      = some (.unpowered, [.wire 0x07, .act (.setLife .sleeping)]) := by decide
/-- S5: POWER_ON is the power-on command. -/
theorem test_powerOn : after (exec .powerOn running) (·.seq) = some [.wire 0x04] := by decide
/-- S8: POWER_OFF is the power-off command alone. -/
theorem test_powerOff : after (exec .powerOff running) (·.seq) = some [.wire 0x02] := by decide
/-- S6: REFRESH begins with Delay(50) and ends with the power-off command and no wait (R261). -/
theorem test_refresh :
    after (exec .refresh running) (·.seq)
      = some [.delay 50, .wire 0x12, .wire 0x02, .act (.setLife .displaying)] := by decide
/-- S10: DISPLAY_UPDATE is POWER_ON and then REFRESH. -/
theorem test_displayUpdate :
    after (exec .displayUpdate running) (·.seq)
      = some [.wire 0x04, .delay 50, .wire 0x12, .wire 0x02, .act (.setLife .displaying)] := by
  decide

/-! ### Streamer (vectors T1 to T15) -/

/-- R301: BEGIN_FRAME S. -/
theorem test_beginFrame :
    after (exec (.beginFrame .slave) running) (·.seq)
      = some [.setCS .m true, .setCS .s false, .wire 0x10, .act (.openSession .slave)] := by decide
/-- E7: BEGIN_FRAME S in a Master session raises SESSION_OPEN. -/
theorem test_beginFrame_session :
    errorOf (exec (.beginFrame .slave) inSession) = some (3, 0x00007002, [.setCS .ms true]) := by
  decide
/-- T9: a nibble 4 in LINEBUF[5] raises BAD_PIXEL and sends nothing. -/
theorem test_writeLine_badPixel :
    errorOf (exec (.writeLine .master) (withArgs
        ((fillLinebuf .c1 inSession).writeRam 0x205 [0x14]) 300 0))
      = some (7, 0x00007002, [.setCS .ms true]) := by decide +kernel
/-- T8: the session is checked before the length. -/
theorem test_writeLine_noSession :
    errorOf (exec (.writeLine .slave) (withArgs running 299 0)) = some (4, 0x00007002, []) := by
  decide
/-- T11: END_FRAME M in a Master session. -/
theorem test_endFrame :
    after (exec (.endFrame .master) inSession) (·.seq)
      = some [.setCS .m true, .act .closeSession] := by decide
/-- T14: END_FRAME BOTH raises BAD_OPERAND before the session check. -/
theorem test_endFrame_both :
    errorOf (exec (.endFrame .both) inSession) = some (2, 0x00007002, [.setCS .ms true]) := by
  decide

/-! ### Rasterizer (section 7) -/

/-- R332: FILL_LINE 6 fills LINEBUF with 0x66. -/
theorem test_fillLine :
    after (exec (.fillLine 6) running) (lineAt [0, 150, 299]) = some [0x66, 0x66, 0x66] := by
  decide +kernel
/-- 95_test_vectors.md section 2: FILL_LINE 7 raises BAD_OPERAND. -/
theorem test_fillLine_badColor :
    errorOf (exec (.fillLine 7) running) = some (2, 0x00007002, []) := by decide
/-- The table of section 7. -/
theorem test_glyphIndex :
    ([0x30, 0x39, 0x41, 0x5A, 0x61, 0x7A, 0x20, 0x2E, 0x3A, 0x2D, 0x25, 0x28, 0x00, 0x7F, 0x80,
      0xFF] : List Byte).map (fun c => after (exec (.glyphIndex c) running) (·.result))
      = ([0, 9, 10, 35, 10, 35, 36, 37, 38, 39, 40, 36, 36, 36, 36, 36] : List Word).map some := by
  decide
/-- GLYPH_ROW 40, 7 reads the last row byte of the table. -/
theorem test_glyphRow :
    after (exec .glyphRow (withArgs running 0 0x0728)) (·.result) = some 0xFF := by decide
/-- GLYPH_ROW 41, 0 raises BAD_OPERAND. -/
theorem test_glyphRow_range :
    errorOf (exec .glyphRow (withArgs running 0 0x0029)) = some (2, 0x00007002, []) := by decide
/-- V2: an odd origin spans three bytes. -/
theorem test_stampGlyph_odd :
    after (exec .stampGlyph (withArgs lined 0x02580001 0x00000201)) (lineAt [0, 1, 2, 3])
      = some [0x12, 0x22, 0x21, 0x11] := by decide +kernel
/-- V3: a negative origin; column 0 is clipped and column 7 paints 23 to 26. -/
theorem test_stampGlyph_negative :
    after (exec .stampGlyph (withArgs lined 0x0258FFFB 0x00000081)) (lineAt [0, 11, 12, 13, 14])
      = some [0x11, 0x10, 0x00, 0x01, 0x11] := by decide +kernel

/-! ### Composer (section 8) -/

/-- K1: CLEAR 4 raises BAD_OPERAND. -/
theorem test_clear_badColor :
    errorOf (exec (.clear 4) running) = some (2, 0x00007002, []) := by decide
/-- R370: CLEAR k streams the Master half before the Slave half, then the display update. -/
theorem test_clear :
    after (exec (.clear 1) running) (·.seq)
      = some [.setCS .s true, .setCS .m false, .wire 0x10, .act (.openSession .master),
          .rows .flat .master 0, .setCS .m true, .act .closeSession,
          .setCS .m true, .setCS .s false, .wire 0x10, .act (.openSession .slave),
          .rows .flat .slave 0, .setCS .s true, .act .closeSession,
          .wire 0x04, .delay 50, .wire 0x12, .wire 0x02, .act (.setLife .displaying)] := by
  decide +kernel
/-- K4: a TEXTLEN of 65 raises BAD_OPERAND. -/
theorem test_splash_textlen :
    errorOf (exec .splash { running with textlen := #v[0, 0, 0, 65, 0, 0] })
      = some (2, 0x00007002, []) := by decide
/-- The render_line vector: scanline 101 of the Slave half with "A" at column 584. -/
theorem test_splash_line :
    after (step { running.writeRam 0x400 [0x41] with
        textlen := #v[1, 0, 0, 0, 0, 0], seq := [.rows .splash .slave 101] })
        (lineAt [0, 7, 8, 299]) = some [0x11, 0x11, 0x00, 0x00] := by decide +kernel
/-- R373 to R375: the bands table of section 8. -/
theorem test_bands :
    ([0, 100, 101, 132, 133, 164, 265, 266, 367, 1329, 1330, 1433, 1464, 1465, 1599] :
        List Nat).map (fun y => ((bandOf y).val, (textRowOf y).map Fin.val))
      = [(0, none), (0, none), (0, some 0), (0, some 7), (0, none), (0, none), (0, none),
          (1, none), (1, some 0), (4, none), (5, none), (5, some 0), (5, some 7), (5, none),
          (5, none)] := by decide

/-! ### Panel commands (R156 to R160) -/

/-- S5: the wire of POWER_ON: the frame, then the wait. -/
theorem test_wirePowerOn :
    after (step { running with seq := [.wire 0x04] }) (·.seq)
      = some [.setCS .ms false, .tx .cmd 0x04, .setCS .ms true, .waitReady] := by decide
/-- S6: the wire of the data refresh. -/
theorem test_wireDataRefresh :
    after (step { running with seq := [.wire 0x12] }) (·.seq)
      = some [.setCS .ms false, .tx .cmd 0x12, .tx .data 0x00, .setCS .ms true, .waitReady] := by
  decide
/-- S8: the wire of the power-off, with no wait. -/
theorem test_wirePowerOff :
    after (step { running with seq := [.wire 0x02] }) (·.seq)
      = some [.setCS .ms false, .tx .cmd 0x02, .tx .data 0x00, .setCS .ms true] := by decide
/-- S9: the wire of the deep sleep. -/
theorem test_wireDeepSleep :
    after (step { running with seq := [.wire 0x07] }) (·.seq)
      = some [.setCS .ms false, .tx .cmd 0x07, .tx .data 0xA5, .setCS .ms true, .delay 100] := by
  decide
/-- T1: the line-write byte goes out alone. -/
theorem test_wireLineWrite :
    after (step { running with seq := [.wire 0x10] }) (·.seq) = some [.tx .cmd 0x10] := by decide

/-! ### Host port and resets (section 9) -/

/-- X1: an OP write while ERR = 1 is dropped and sets OVR. -/
theorem test_host_op_dropped :
    after (step (hosted { idle with err := true, errcode := some .badOperand } (.write 4 0x028 0)))
      statusWord = some 0x00007006 := by decide
/-- X15: RAM words are little-endian. -/
theorem test_host_ram :
    after (step (hosted (idle.writeRam 0x100 [0x11, 0x22, 0x33, 0x44]) (.read 4 0x100)))
      (·.hostReads) = some [(0x100, 0x44332211)] := by decide
/-- X10: SRESET between SetRST(0) and its delay raises RST_N and keeps LIFE. -/
theorem test_soft_reset :
    after (step (hosted { running with rstl := false, life := .resetting } (.write 4 0x004 1)))
      (fun s => (statusWord s, s.trace)) = some (0x00007100, [.setRST true]) := by decide
/-- X6: an illegal word in a session. -/
theorem test_illegal_in_session :
    errorOf (step (issued inSession 0x01000020)) = some (1, 0x00007002, [.setCS .ms true]) := by
  decide
/-- E6, scenario 1: the text of band 1. -/
theorem test_band_text :
    bandText1 (some (asciiOf ['1', '9', '2', '.', '1', '6', '8', '.', '1', '.', '5'], 8080))
      = asciiOf ['I', 'P', ':', ' ', '1', '9', '2', '.', '1', '6', '8', '.', '1', '.', '5', ' ',
          'P', 'O', 'R', 'T', ':', ' ', '8', '0', '8', '0'] := by decide
/-- R150's example: STAMP_GLYPH -5, 600, 0x81, 0. -/
theorem test_assembler :
    (HostLine.stampGlyph (-5) 600 0x81 0).expand
      = [hostW 0x020 0x0258FFFB, hostW 0x024 0x00000081, hostW 0x028 0x00000033,
          .host .waitIdle] := by decide

/-! ### Witnesses: for every obligation with hypotheses, a state and operands that meet them -/

/-- BEGIN_FRAME M in progress, about to send the line-write command. -/
def midway : State :=
  { running with
    op := 0x00000120, csM := false, trace := [.setCS .s true, .setCS .m false],
    seq := [.wire 0x10, .act (.openSession .master)], mem := [(0x200, 0x11)] }

/-- The panel answers 0 k times and then 1, with BUSY_POLL_LIMIT = k + 1: one more 0 would end it. -/
def answered (k : Nat) (rest : List Bool) : State :=
  { running with
    cfg := { params with busyPollLimit := some ⟨k + 1, by omega⟩ },
    busyIn := List.replicate k false ++ true :: rest }

theorem answersAfter_answered (k : Nat) (rest : List Bool) : answersAfter (answered k rest) k rest := by
  refine ⟨rfl, ?_⟩
  rintro n ⟨⟩
  exact Nat.lt_succ_self k

/-- A wait that times out at its first sample. -/
def unanswered (limit : Option ℕ+) (m : Nat) : State :=
  { running with
    cfg := { params with busyPollLimit := limit }, busyIn := List.replicate m false }

/-- StepKeepsMachineInv, StepKeepsPinsFollowTrace, StepKeepsParameters. -/
theorem witness_step : MachineInv midway ∧ PinsFollowTrace midway ∧ ∃ s', step midway = .next s' :=
  ⟨⟨by decide, by decide, by decide, by decide, by decide, by decide, by decide, by decide,
    by decide, by decide⟩, by unfold PinsFollowTrace; decide, ⟨_, rfl⟩⟩

/-- StepRunsTheDecodedInstruction, each clause. -/
theorem witness_runs_decoded :
    ((issued idle 0x321).turns = [] ∧ (issued idle 0x321).run = true ∧
      decode (issued idle 0x321).op = .ok (.writeLine .both)) ∧
    (idle.withFetchWord 32 0x17).turns = [.sequencer] ∧
    (midway.run = true ∧ midway.seq.head? = some (.wire 0x10) ∧
      decodePanel 0x10 = .ok .wireLineWrite) ∧
    decodeTableWord 32 0x00120305 = some (.sendFramed .both 0x12) ∧
    decodeTableWord 8 0x07 = some .wireDeepSleep := by decide

/-- ReservedEncodingsRaiseIllegalOp: the ends of every range, and a set bit under a mask. -/
theorem witness_reserved :
    (∀ w ∈ ([0x06, 0x07, 0x09, 0x0F, 0x18, 0x1F, 0x23, 0x2F, 0x34, 0x3F, 0x42, 0xFF] : List Word),
      (let n := (opcField (issued idle w).op).toNat
       n = 0x06 ∨ n = 0x07 ∨ (0x09 ≤ n ∧ n ≤ 0x0F) ∨ (0x18 ≤ n ∧ n ≤ 0x1F) ∨
         (0x23 ≤ n ∧ n ≤ 0x2F) ∨ (0x34 ≤ n ∧ n ≤ 0x3F) ∨ (0x42 ≤ n ∧ n ≤ 0xFF))) ∧
    ∃ r ∈ opTable, opcField r.code = opcField (0x00000100 : Word) ∧
      (0x00000100 : Word) &&& r.mask ≠ r.code :=
  ⟨by simp [opcField, issued], _, List.mem_cons_self, by decide, by decide⟩

/-- OnlyTheEncodingDecodes. -/
theorem witness_decodes : decodeCode (.opw 0x00060030) = .ok (.fillLine 6) ∧
    decodeCode (.panel 0x12) = .ok .wireDataRefresh := by decide

/-- StepRecordsOnlyTheOperationsErrors, each of its three errors. -/
theorem witness_records :
    (issued idle 0x100).errcode = none ∧
    after (step (issued idle 0x100)) (·.errcode) = some (some .illegalOp) ∧
    after (step (issued idle 0x00040030)) (·.errcode) = some (some .badOperand) ∧
    after (step { unanswered (some 1) 1 with seq := [.poll] }) (·.errcode)
      = some (some .handshakeTimeout) := by decide

/-- CtrlWriteClearsErrorAndOverrun and SoftResetAbandonsAndClears. -/
theorem witness_ctrl :
    (∀ w ∈ ([0, 2, 4, 6, 0xFFFFFFFE] : List Word), w.getLsbD 0 = false) ∧
    (∀ w, (hosted idle (.write 4 0x004 w)).turns = [.host (.write 4 0x004 w)]) ∧
    (7 : Word).getLsbD 0 = true := ⟨by simp, fun _ => rfl, by decide⟩

/-- HardwareResetRestoresTheResetState. -/
theorem witness_hardwareReset :
    ({ midway with turns := [.hardwareReset] } : State).turns = [.hardwareReset] := by decide

/-- DroppedWritesSetOverrunOnly: the first and last offset of every range; how OVR falls. -/
theorem witness_dropped :
    running.run = true ∧
    (∀ off ∈ ([0x028, 0x020, 0x024, 0x040, 0x054, 0x100, 0x1FC, 0x200, 0x328, 0x400, 0x57C] :
        List Nat), off % 4 = 0 ∧
      (off = 0x028 ∨ off = 0x020 ∨ off = 0x024 ∨ (0x040 ≤ off ∧ off < 0x058) ∨
        (0x100 ≤ off ∧ off < 0x200) ∨ (0x200 ≤ off ∧ off < 0x32C) ∨
        (0x400 ≤ off ∧ off < 0x580))) ∧
    after (step (hosted { idle with ovr := true } (.write 4 0x004 4))) (·.ovr) = some false ∧
    after (step (hosted { idle with ovr := true } (.write 4 0x004 2))) (·.ovr) = some true := by
  decide

/-- OpWriteLatchesAndStarts: each clause. -/
theorem witness_opWrite :
    (hosted idle (.write 4 0x028 0x17)).run = false ∧
    (hosted idle (.write 4 0x028 0x17)).err = false ∧
    (hosted idle (.read 4 0x028)).turns = [.host (.read 4 0x028)] ∧
    midway.run = true ∧ after (step midway) (·.run) = some true := by decide

/-- UndefinedHostAccessIsRefused: each reason at its boundary; the last legal offset is none. -/
theorem witness_refused :
    (2 : Nat) ≠ 4 ∧ (0x002 : Nat) % 4 ≠ 0 ∧ (0x1000 : Nat) ≤ 0x1000 ∧
    accessRefusal 2 0x000 = some .hostAccessWidth ∧
    accessRefusal 4 0x002 = some .hostAccessUnaligned ∧
    accessRefusal 4 0x1000 = some .hostAccessOutsideWindow ∧ accessRefusal 4 0xFFC = none := by
  decide

/-- RamWordsAreLittleEndian: the first and last word of each RAM. -/
theorem witness_ramWords :
    idle.run = false ∧
    ∀ off ∈ ([0x100, 0x1FC, 0x200, 0x328, 0x400, 0x57C] : List Nat), off % 4 = 0 ∧
      ((0x100 ≤ off ∧ off < 0x200) ∨ (0x200 ≤ off ∧ off < 0x32C) ∨
        (0x400 ≤ off ∧ off < 0x580)) := by decide

/-- HostReadsHaveNoSideEffect: an offset of every clause, the first and last word of each RAM, every
register and RAM word but three kinds readable while an operation runs, and the ends of the reserved
ranges. -/
theorem witness_hostReads :
    (∀ off ∈ ([0x000, 0x004, 0x008, 0x00C, 0x010, 0x014, 0x018, 0x020, 0x024, 0x028, 0x040, 0x054] :
        List Nat), off % 4 = 0 ∧ off < 0x1000) ∧
    (running.run = true ∧ ∀ off ∈ ([0x100, 0x1FC, 0x400, 0x57C] : List Nat), off % 4 = 0 ∧
      ((0x100 ≤ off ∧ off < 0x200) ∨ (0x400 ≤ off ∧ off < 0x580)) ∧
      ¬ (off = 0x014 ∨ off = 0x018 ∨ (0x200 ≤ off ∧ off < 0x32C))) ∧
    (idle.run = false ∧ ∀ off ∈ ([0x200, 0x328] : List Nat), off % 4 = 0 ∧ 0x200 ≤ off ∧ off < 0x32C) ∧
    (inSession.session = some .master ∧ idle.errcode = none ∧
      (idle.errorEntry .csConflict).errcode = some .csConflict) ∧
    ∀ off ∈ ([0x01C, 0x02C, 0x03C, 0x058, 0x0FC, 0x32C, 0x3FC, 0x580, 0xFFC] : List Nat),
      off % 4 = 0 ∧ off < 0x1000 ∧
      (off = 0x01C ∨ (0x02C ≤ off ∧ off < 0x040) ∨ (0x058 ≤ off ∧ off < 0x100) ∨
        (0x32C ≤ off ∧ off < 0x400) ∨ 0x580 ≤ off) ∧ hostReg off = .reserved := by decide

/-- SelectDeselectSendCmdComplete: each target, and a single target that is already selected. -/
theorem witness_select :
    (undisturbed running ∧ running.session = none ∧ undisturbed selected ∧
      selected.session = none) ∧
    (∀ t ∈ ([.master, .slave, .both] : List Tgt), (linesOf? t).isSome = true) ∧
    running.csM = true ∧ running.csS = true ∧ selected.csS = true := by
  unfold undisturbed; decide

/-- SendDataSendFramedComplete: the shortest and the longest payload. -/
theorem witness_sendData :
    undisturbed (withArgs running 0 0) ∧ (withArgs running 0 0).arg0 = BitVec.ofNat 32 0 ∧
    undisturbed (withArgs running 0x100 0) ∧
    (withArgs running 0x100 0).arg0 = BitVec.ofNat 32 256 := by unfold undisturbed; decide

/-- FramerChecksInOrder: each clause; a length of 257 and a reserved bit are both bad; target Both
outside a session with a chip-select asserted is `selected`. -/
theorem witness_framerChecks :
    (∀ a ∈ ([0x101, 0x200] : List Word),
      a.extractLsb' 9 23 ≠ 0 ∨ 256 < (a.extractLsb' 0 9).toNat) ∧
    ¬ ((0x100 : Word).extractLsb' 9 23 ≠ 0 ∨ 256 < ((0x100 : Word).extractLsb' 0 9).toNat) ∧
    inSession.session ≠ none ∧ (selected.session = none ∧ selected.csM = false) ∧
    ({ running with csS := false } : State).csS = false :=
  ⟨by simp, by simp, by decide, by decide, by decide⟩

/-- HostWritesStoreTheirRegister: the registers that store, while an error stands, and the ends of the
ignored ranges. -/
theorem witness_hostWrites :
    ({ idle with err := true } : State).run = false ∧
    (∀ off ∈ ([0x020, 0x024, 0x040, 0x054] : List Nat), off % 4 = 0 ∧ off < 0x1000) ∧
    ∀ off ∈ ([0x01C, 0x02C, 0x03C, 0x058, 0x0FC, 0x32C, 0x3FC, 0x580, 0xFFC] : List Nat),
      off % 4 = 0 ∧ off < 0x1000 ∧
      (off = 0x01C ∨ (0x02C ≤ off ∧ off < 0x040) ∨ (0x058 ≤ off ∧ off < 0x100) ∨
        (0x32C ≤ off ∧ off < 0x400) ∨ 0x580 ≤ off) := by decide

/-- EveryWaitFollowsTheLoop: both sources of the level. -/
theorem witness_samples :
    sampleGives { running with busyIn := [true] } true running ∧
    sampleGives { running with busyIn := [false] } false running ∧
    sampleGives running (Config.busyLevel 0) { running with draws := 1 } :=
  ⟨.inl ⟨[], rfl, rfl⟩, .inl ⟨[], rfl, rfl⟩, .inr ⟨rfl, rfl, rfl⟩⟩

/-- EveryWaitFollowsTheLoop: a wait with something after it; a 0 below the limit and at it. -/
theorem witness_wait :
    let s : State := { unanswered (some 2) 2 with seq := [.poll, .wire 0x02] }
    undisturbed s ∧ sampleGives s false { s with busyIn := [false] } ∧
      (∀ n : ℕ+, s.cfg.busyPollLimit = some n → s.hcount + 1 < (n : Nat)) ∧
      undisturbed { s with hcount := 1 } ∧ ((2 : ℕ+) : Nat) ≤ ({ s with hcount := 1 } : State).hcount + 1 :=
  ⟨⟨rfl, rfl⟩, .inl ⟨_, rfl, rfl⟩, by rintro n ⟨⟩; decide, ⟨rfl, rfl⟩, by decide⟩

/-- TraceIsAppendOnly: the two steps that add two events. -/
theorem witness_twoEvents :
    after (step { unanswered (some 1) 1 with csM := false, seq := [.poll] }) (·.trace)
      = some [.pollBusy false, .setCS .ms true] ∧
    after (step (hosted { selected with rstl := false } (.write 4 0x004 1))) (·.trace)
      = some [.setCS .ms true, .setRST true] := by decide

/-- TransmittedBytesCarryTheLevels and TraceIsAppendOnly. -/
theorem witness_transmits :
    after (step { selected with seq := [.tx .data 0xA5] }) (·.trace)
      = some ([] ++ [.tx .data 0xA5 false true]) := by decide

/-- WaitReadyPollsUntilReady: ready at once, and one 0 short of the limit. -/
theorem witness_waitReady :
    ∀ k, undisturbed (answered k []) ∧ (answered k []).session = none ∧
      answersAfter (answered k []) k [] :=
  fun k => ⟨⟨rfl, rfl⟩, rfl, answersAfter_answered k []⟩

/-- WaitReadyTimesOut with the smallest limit, and RefreshTimeoutSendsNoPowerOff. -/
theorem witness_timeout :
    let s := unanswered (some 1) 1
    undisturbed s ∧ s.session = none ∧ s.csM = true ∧ s.csS = true ∧
      s.cfg.busyPollLimit = some 1 ∧ s.busyIn = List.replicate ((1 : ℕ+) : Nat) false ++ [] :=
  ⟨⟨rfl, rfl⟩, rfl, rfl, rfl, rfl, rfl⟩

/-- UnansweredWaitNeverCompletes. -/
theorem witness_unanswered :
    ∀ m, undisturbed (unanswered none m) ∧ (unanswered none m).session = none ∧
      (unanswered none m).cfg.busyPollLimit = none ∧
      (unanswered none m).busyIn = List.replicate m false :=
  fun _ => ⟨⟨rfl, rfl⟩, rfl, rfl, rfl⟩

/-- SequencerChecksInOrder: an open session, and each chip-select asserted outside one. -/
theorem witness_sequencerChecks :
    inSession.session ≠ none ∧ (selected.session = none ∧ selected.csM = false) ∧
    ({ running with csS := false } : State).csS = false := by decide

/-- ResetRunsThePulseTrain, ConfigureSendsTheTable, InitPowersResetsAndConfigures and
PowerOffAndSleepComplete. -/
theorem witness_sequencer :
    undisturbed running ∧ running.session = none ∧ running.csM = true ∧ running.csS = true :=
  ⟨⟨rfl, rfl⟩, rfl, rfl, rfl⟩

/-- PowerOnFramesAndWaits and RefreshWaitsOnceThenPowersOff. -/
theorem witness_oneWait :
    undisturbed (answered 2 []) ∧ (answered 2 []).session = none ∧ (answered 2 []).csM = true ∧
      (answered 2 []).csS = true ∧ answersAfter (answered 2 []) 2 [] :=
  ⟨⟨rfl, rfl⟩, rfl, rfl, rfl, answersAfter_answered 2 []⟩

/-- DisplayUpdatePowersOnThenRefreshes and ClearStreamsBothHalves: both waits ready at once, and
each one 0 short of the limit. -/
theorem witness_twoWaits :
    ∀ k, let s := answered k (List.replicate k false ++ true :: [])
      undisturbed s ∧ s.session = none ∧ s.csM = true ∧ s.csS = true ∧
      answersAfter s k (List.replicate k false ++ true :: []) ∧
      (∀ n : ℕ+, s.cfg.busyPollLimit = some n → k < (n : Nat)) :=
  fun k => ⟨⟨rfl, rfl⟩, rfl, rfl, rfl, answersAfter_answered k _, (answersAfter_answered k []).2⟩

/-- SplashStreamsRenderedHalves: the same, with a text of the greatest length. -/
theorem witness_splash :
    let s : State := { answered 0 [true] with textlen := #v[64, 0, 0, 0, 0, 64] }
    undisturbed s ∧ s.session = none ∧ s.csM = true ∧ s.csS = true ∧
      (∀ b : Fin 6, (s.textlen[b.val]).toNat ≤ 64) ∧ answersAfter s 0 [true] ∧
      (∀ n : ℕ+, s.cfg.busyPollLimit = some n → 0 < (n : Nat)) :=
  ⟨⟨rfl, rfl⟩, rfl, rfl, rfl, by decide, answersAfter_answered 0 [true], fun n _ => n.pos⟩

/-- BeginFrameEndFrameComplete: outside a session with both lines asserted, and in each session. -/
theorem witness_frame :
    (undisturbed { selected with csS := false } ∧
      ({ selected with csS := false } : State).session = none) ∧
    (undisturbed inSession ∧ inSession.session = some .master) ∧
    undisturbed { running with session := some .slave, csS := false } ∧
    ({ running with session := some .slave, csS := false } : State).session = some .slave := by
  unfold undisturbed; decide

/-- A line that may be sent. -/
def lineReady : State := withArgs (fillLinebuf .c6 inSession) 300 0

/-- WriteLineSendsTheLine, both clauses. -/
theorem witness_writeLine :
    (undisturbed lineReady ∧ lineReady.session = some .master ∧ lineReady.arg0 = 300 ∧
      halfOf? .master = some .master ∧
      ∀ x, x < 600 → linePixel lineReady x ∈ ([0, 1, 2, 3, 5, 6] : List (BitVec 4))) ∧
    (withArgs running 0 0).arg0 = 0 :=
  ⟨⟨⟨rfl, rfl⟩, rfl, rfl, rfl, by decide +kernel⟩, rfl⟩

/-- StreamerChecksInOrder: each clause; 299 and 301 are lengths next to 300, and one nibble 4 in the
last pixel is enough. -/
theorem witness_streamerChecks :
    (halfOf? .none = none ∧ halfOf? .both = none ∧ halfOf? .slave = some .slave) ∧
    (0x0001012C : Word).extractLsb' 16 16 ≠ 0 ∧
    (inSession.session ≠ none ∧ running.session = none ∧
      inSession.session = some (otherHalf .slave)) ∧
    (∀ n ∈ ([299, 301] : List Nat), (BitVec.ofNat 32 n).extractLsb' 16 16 = 0#16 ∧
      ((BitVec.ofNat 32 n).extractLsb' 0 16).toNat ≠ 0 ∧
      ((BitVec.ofNat 32 n).extractLsb' 0 16).toNat ≠ 300) ∧
    (599 < 600 ∧ linePixel (lineReady.writeRam 0x32B [0x64]) 599
      ∉ ([0, 1, 2, 3, 5, 6] : List (BitVec 4))) := by decide +kernel

/-- SessionAdmitsOnlyItsOperations: one operation of each kind, operands passed. -/
theorem witness_sessionAdmits :
    inSession.session ≠ none ∧ isOperation (.sendData .both) = true ∧
    sessionAdmits (.sendData .both) = false ∧ (Instr.sendData .both).wellFormed = true ∧
    payloadLen? (withArgs inSession 256 0).arg0 ≠ none ∧
    (∀ b : Fin 6, (inSession.textlen[b.val]).toNat ≤ 64) ∧
    isOperation .stampGlyph = true ∧ sessionAdmits .stampGlyph = true := by decide

/-- FillLineFillsTheLine, GlyphIndexFollowsTheTable and ComposerChecksInOrder: colors and non-colors,
bytes at the ends of the table's ranges, and an unlisted byte. -/
theorem witness_operands :
    ((6 : Byte) ∈ ([0, 1, 2, 3, 5, 6] : List Byte) ∧
      (4 : Byte) ∉ ([0, 1, 2, 3, 5, 6] : List Byte) ∧
      (7 : Byte) ∉ ([0, 1, 2, 3, 5, 6] : List Byte)) ∧
    (∀ c ∈ ([0x2F, 0x40, 0x5B, 0x60, 0x7B, 0xFF] : List Byte),
      ¬ (0x30 ≤ c.toNat ∧ c.toNat ≤ 0x39) ∧ ¬ (0x41 ≤ c.toNat ∧ c.toNat ≤ 0x5A) ∧
      ¬ (0x61 ≤ c.toNat ∧ c.toNat ≤ 0x7A) ∧
      c ∉ ([0x20, 0x2E, 0x3A, 0x2D, 0x25] : List Byte)) ∧
    (∃ b : Fin 6, 64 < (({ idle with textlen := #v[0, 0, 0, 65, 0, 0] } : State).textlen[b.val]).toNat)
      := by decide

/-- GlyphRowReadsTheRom: the last glyph and row, and one past each. -/
theorem witness_glyphRow :
    (0x00000728 : Word) = 0#16 ++ BitVec.ofNat 8 (7 : Fin 8).val ++ BitVec.ofNat 8 (40 : Fin 41).val ∧
    40 < ((0x00000029 : Word).extractLsb' 0 8).toNat ∧
    7 < ((0x00000828 : Word).extractLsb' 8 8).toNat ∧
    (0x00010000 : Word).extractLsb' 16 16 ≠ 0 := by decide

/-- StampGlyphPaintsExactlyItsPixels: the widest limit, one more, a color and a non-color; a pixel
that is painted and the one before it. -/
theorem witness_stampGlyph :
    ((0x02580000 : Word).extractLsb' 16 16).toNat ≤ 600 ∧
    600 < ((0x02590000 : Word).extractLsb' 16 16).toNat ∧
    (0x00000301 : Word).extractLsb' 8 8 ∈ ([0, 1, 2, 3, 5, 6] : List Byte) ∧
    (0x00000401 : Word).extractLsb' 8 8 ∉ ([0, 1, 2, 3, 5, 6] : List Byte) ∧
    (0x00010001 : Word).extractLsb' 16 16 ≠ 0 ∧
    stampCovers 1 600 0x01 1 ∧ ¬ stampCovers 1 600 0x01 0 :=
  ⟨by decide, by decide, by decide, by decide, by decide,
    ⟨by decide, 0, by decide, by decide, by decide, by decide⟩,
    fun ⟨_, c, _, _, h, _⟩ => by push_cast at h; omega⟩

/-- SplitStampIsLossless: columns on both sides of the boundary. -/
theorem witness_split : (599 : Nat) < 1200 ∧ (600 : Nat) < 1200 ∧
    599 ∈ stampPixels 590 600 0xFF ∧ 600 - 600 ∈ stampPixels (590 - 600) 600 0xFF := by decide

/-- A state with the text "A" in band 0. -/
def lettered : State :=
  { running.writeRam 0x400 [0x41] with textlen := #v[1, 0, 0, 0, 0, 0] }

/-- RenderedLineShowsBandAndText and SplashImageIsReceived: a pixel of the text, and the scanlines
before and after it. -/
theorem witness_textCovers :
    (101 < 1600 ∧ 1599 < 1600 ∧ 599 < 600 ∧ 584 < 1200) ∧
    textCovers lettered 101 584 ∧ ¬ textCovers lettered 100 584 ∧ ¬ textCovers lettered 133 584 :=
  ⟨by decide, ⟨by decide, 0, by decide, 0, 0x41, by decide, by decide, by decide, by decide⟩,
    fun ⟨h, _⟩ => absurd h (by decide),
    fun ⟨_, r, h, _⟩ => absurd r.isLt (by rw [← h]; decide)⟩

/-- PanelCommandsFrameTheirBytes: in the middle of BEGIN_FRAME, and before a wait. -/
theorem witness_panelCommands :
    undisturbed { midway with seq := [.act (.openSession .master)] } ∧
    (undisturbed (answered 1 []) ∧ answersAfter (answered 1 []) 1 []) :=
  ⟨⟨rfl, rfl⟩, ⟨rfl, rfl⟩, answersAfter_answered 1 []⟩

/-- SequencerKeepsItsOperands and NoOperationChecksLife: each way the next move is the sequencer's. -/
theorem witness_sequencerIsNext :
    sequencerIsNext midway ∧ sequencerIsNext { midway with turns := [.sequencer] } ∧
    sequencerIsNext { midway with turns := [.host .waitIdle] } :=
  ⟨.inl rfl, .inr (.inl ⟨_, rfl⟩), .inr (.inr ⟨_, rfl⟩)⟩

/-- OnlyGlyphOperationsWriteResult. -/
theorem witness_result :
    (issued idle 0x00410031).turns = [] ∧
    after (step (issued idle 0x00410031)) (·.result) = some 10 ∧
    (issued idle 0x00410031).result ≠ 10 := by decide

end Sys2Proof.Tests
end

section
/-! SUPPORT. The machine state (spec/10_state.md): how a step is one move of one agent, what a move
of the sequencer is made of, what the host port and the two resets do to single registers, and that
no instruction looks at LIFE. Then the obligations about the state, settled from these. -/

namespace Sys2Proof.Machine

/-! ### The agents' moves -/

/-- A step that answers is a move of the sequencer, a hardware reset, a host read or a host write. A
WAITIDLE that is taken off is a move of the idle sequencer, which changes nothing else (R149). -/
theorem step_agents {s s' : State} (h : step s = .next s') : ∃ ts,
    sequencerTurn (s.withTurns ts) = .next s' ∨
    (s.turns = .hardwareReset :: ts ∧ s' = hardwareReset (s.withTurns ts)) ∨
    (∃ off, s.turns = .host (.read 4 off) :: ts ∧ s' = hostRead off (s.withTurns ts)) ∨
    (∃ off w, s.turns = .host (.write 4 off w) :: ts ∧ s' = hostWrite off w (s.withTurns ts)) := by
  rcases step_cases h with ⟨_, h⟩ | ⟨ts, _, h⟩ | ⟨ts, ht, h⟩ | ⟨ts, _, hr, rfl⟩ |
    ⟨off, ts, ht, _, _, h⟩ | ⟨off, w, ts, ht, _, _, h⟩
  · exact ⟨s.turns, .inl h⟩
  · exact ⟨ts, .inl h⟩
  · exact ⟨ts, .inr (.inl ⟨ht, h⟩)⟩
  · exact ⟨ts, .inl (sequencerTurn_idle hr)⟩
  · exact ⟨ts, .inr (.inr (.inl ⟨off, ht, h⟩))⟩
  · exact ⟨ts, .inr (.inr (.inr ⟨off, w, ht, h⟩))⟩

/-- When the next move is the sequencer's, the step is that move; which turns are left after it
depends on the turns and on RUN alone. -/
theorem step_of_sequencerIsNext {s : State} (h : sequencerIsNext s) : ∃ ts, ∀ t : State,
    t.turns = s.turns → t.run = s.run → step t = sequencerTurn (t.withTurns ts) := by
  rcases h with h | ⟨ts, h⟩ | ⟨ts, h⟩
  · exact ⟨[], fun t ht _ => by
      have e : t.withTurns [] = t := by rw [← h, ← ht]; rfl
      rw [e, step_noTurns (ht.trans h)]⟩
  · exact ⟨ts, fun t ht _ => by simp only [step, takeTurn, ht, h]⟩
  · cases hr : s.run with
    | true =>
      refine ⟨s.turns, fun t ht hrt => ?_⟩
      rw [← ht, show t.withTurns t.turns = t from rfl]
      simp only [step, takeTurn, ht, h, hrt, if_true]
    | false =>
      refine ⟨ts, fun t ht hrt => ?_⟩
      rw [sequencerTurn_idle (s := t.withTurns ts) hrt]
      simp only [step, takeTurn, ht, h, hrt, hostTurn, Bool.false_eq_true, if_false]

/-! ### The driven levels -/

/-- The driven levels of a state (R53, R54). -/
def State.pins (s : State) : Pins := ⟨s.csM, s.csS, s.rstl, s.pwrl⟩

theorem pinsFollowTrace_iff {s : State} : PinsFollowTrace s ↔ s.pins = .ofTrace s.trace := Iff.rfl

/-- An event changes the driven levels as its row of R110 says. -/
theorem pins_emit (s : State) (e : Event) : (s.emit e).pins = s.pins.after e := by
  cases e with
  | setCS l v => cases l <;> rfl
  | tx k b m c => cases k <;> rfl
  | _ => rfl

theorem pins_settle (s : State) (p : List Micro) : (s.settle p).pins = s.pins := by
  simp [State.pins]

theorem ofTrace_concat (tr : List Event) (e : Event) :
    Pins.ofTrace (tr ++ [e]) = (Pins.ofTrace tr).after e := by
  simp [Pins.ofTrace]

theorem PinsFollowTrace.congr {s t : State} (h : PinsFollowTrace s) (hp : t.pins = s.pins)
    (ht : t.trace = s.trace) : PinsFollowTrace t :=
  pinsFollowTrace_iff.2 (by rw [hp, ht, pinsFollowTrace_iff.1 h])

theorem PinsFollowTrace.emit {s : State} (h : PinsFollowTrace s) (e : Event) :
    PinsFollowTrace (s.emit e) :=
  pinsFollowTrace_iff.2 (by
    rw [pins_emit, State.emit_trace, ofTrace_concat, pinsFollowTrace_iff.1 h])

/-! ### A move of the sequencer is made of events and quiet updates -/

/-- t comes from s by events and by updates that leave the driven levels, the trace and RESULT
alone. -/
inductive EmitsFrom (s : State) : State → Prop
  | refl : EmitsFrom s s
  | quiet {t u : State} (h : EmitsFrom s t) (hp : u.pins = t.pins) (ht : u.trace = t.trace)
    (hr : u.result = t.result) : EmitsFrom s u
  | emit {t : State} (h : EmitsFrom s t) (e : Event) : EmitsFrom s (t.emit e)

namespace EmitsFrom

/-- Only events change the driven levels. -/
theorem pinsFollowTrace {s t : State} (h : EmitsFrom s t) (hs : PinsFollowTrace s) :
    PinsFollowTrace t := by
  induction h with
  | refl => exact hs
  | quiet _ hp ht _ ih => exact ih.congr hp ht
  | emit _ e ih => exact ih.emit e

theorem result_eq {s t : State} (h : EmitsFrom s t) : t.result = s.result := by
  induction h with
  | refl => rfl
  | quiet _ _ _ hr ih => exact hr.trans ih
  | emit _ e ih => exact (State.emit_result _ e).trans ih

theorem withSeq {s t : State} (h : EmitsFrom s t) (q : List Micro) : EmitsFrom s (t.withSeq q) :=
  h.quiet rfl rfl rfl

theorem settle {s t : State} (h : EmitsFrom s t) (p : List Micro) : EmitsFrom s (t.settle p) :=
  h.quiet (pins_settle t p) (State.settle_trace p t) (State.settle_result p t)

theorem complete {s t : State} (h : EmitsFrom s t) : EmitsFrom s t.complete := h.quiet rfl rfl rfl

theorem applyAct {s t : State} (h : EmitsFrom s t) (a : Act) : EmitsFrom s (t.applyAct a) := by
  cases a <;> exact h.quiet rfl rfl rfl

theorem deselectAll {s t : State} (h : EmitsFrom s t) : EmitsFrom s t.deselectAll := by
  unfold State.deselectAll
  split
  · exact h.emit _
  · exact h

theorem errorEntry {s t : State} (h : EmitsFrom s t) (c : ErrCode) :
    EmitsFrom s (t.errorEntry c) :=
  h.deselectAll.quiet rfl rfl rfl

theorem lineOnly {s t u : State} (h : EmitsFrom s t) (hl : LineOnly t u) : EmitsFrom s u := by
  obtain ⟨m, rfl, _⟩ := hl
  exact h.quiet rfl rfl rfl

theorem pollAnswer {s t : State} (h : EmitsFrom s t) (lvl : Bool) :
    EmitsFrom s (pollAnswer lvl t) := by
  have hc : EmitsFrom s (t.emit (.pollBusy lvl)).countPoll := (h.emit _).quiet rfl rfl rfl
  unfold Machine.pollAnswer
  simp only
  split
  · exact (h.emit _).withSeq _
  · split
    · exact hc.errorEntry _
    · exact hc.withSeq _

theorem sampleBusy {s t : State} (h : EmitsFrom s t) : EmitsFrom s t.sampleBusy.2 := by
  obtain ⟨lvl, bi, d, e⟩ := sampleBusy_eq t
  rw [e]
  exact h.quiet rfl rfl rfl

theorem pollStep {s t : State} (h : EmitsFrom s t) : EmitsFrom s (pollStep t) :=
  h.sampleBusy.pollAnswer _

theorem rowsStep {s t : State} (h : EmitsFrom s t) (p : Picture) (hf : Half) (y : Nat) :
    EmitsFrom s (rowsStep p hf y t) := by
  unfold Machine.rowsStep
  split
  · cases p with
    | flat => exact h.withSeq _
    | splash => exact (h.lineOnly (lineOnly_renderLine hf y t)).withSeq _
  · exact h.settle _

theorem microStep {s t : State} (h : EmitsFrom s t) (m : Micro) : EmitsFrom s (microStep m t) := by
  cases m with
  | start => exact h
  | wire b => exact h
  | waitReady => exact h.quiet rfl rfl rfl
  | kick => exact (h.emit _).withSeq _
  | poll => exact h.pollStep
  | rows p hf y => exact h.rowsStep p hf y
  | act a => exact (h.applyAct a).settle _
  | _ => exact (h.emit _).settle _

end EmitsFrom

/-- The two operations that write RESULT (R47). -/
def writesResult (i : Instr) : Prop := (∃ ch, i = .glyphIndex ch) ∨ i = .glyphRow

/-- An instruction emits and updates quietly, or is an operation that completes with a new RESULT. -/
theorem EmitsFrom.answers_or_result {i : Instr} {s t u : State} (h : EmitsFrom s t)
    (ha : Answers i t u) :
    EmitsFrom s u ∨ (writesResult i ∧ ∃ v, u = State.complete { t with result := v }) := by
  cases ha with
  | error _ => exact .inl (h.errorEntry _)
  | done _ => exact .inl h.complete
  | line hl _ => exact .inl (h.lineOnly hl).complete
  | result v hi => exact .inr ⟨hi, v, rfl⟩
  | loads _ _ _ => exact .inl (h.settle _)
  | clear _ _ _ _ _ => exact .inl ((h.lineOnly (lineOnly_fillLinebuf _ t)).settle _)
  | panel _ => exact .inl (h.withSeq _)

/-- A panel command writes no RESULT. -/
theorem not_writesResult_of_decodePanel {b : Byte} {i : Instr} (h : decodePanel b = .ok i) :
    ¬ writesResult i := by
  unfold decodePanel at h
  split at h <;> cases h <;> simp [writesResult]

/-- A move of the sequencer emits and updates quietly, or executes an operation that writes
RESULT. -/
theorem sequencerTurn_emitsFrom_or_result {s t : State} (h : sequencerTurn s = .next t) :
    EmitsFrom s t ∨ ((s.seq.head? = some .start ∧ ∃ i, decode s.op = .ok i ∧ writesResult i) ∧
      ∃ v, t = State.complete { s with result := v }) := by
  have taken (r : List Micro) : EmitsFrom s (s.withSeq r) := EmitsFrom.refl.withSeq r
  rcases sequencerTurn_cases h with ⟨_, rfl⟩ | ⟨_, _, rfl⟩ | ⟨r, _, hs, ⟨_, rfl⟩ | ⟨i, hd, he⟩⟩ |
    ⟨b, r, _, _, ⟨_, rfl⟩ | ⟨i, hd, he⟩⟩ | ⟨m, r, _, _, _, _, rfl⟩
  · exact .inl .refl
  · exact .inl EmitsFrom.refl.complete
  · exact .inl ((taken r).errorEntry _)
  · rcases (taken r).answers_or_result (answers_of_exec he) with hq | ⟨hi, hv⟩
    · exact .inl hq
    · exact .inr ⟨⟨by rw [hs]; rfl, i, hd, hi⟩, hv⟩
  · exact .inl ((taken r).microStep (.tx .cmd b))
  · rcases (taken r).answers_or_result (answers_of_exec he) with hq | ⟨hi, _⟩
    · exact .inl hq
    · exact absurd hi (not_writesResult_of_decodePanel hd)
  · exact .inl ((taken r).microStep m)

/-! ### The host port -/

@[simp] theorem hostReg_arg0 : hostReg 0x020 = .arg0 := rfl
@[simp] theorem hostReg_arg1 : hostReg 0x024 = .arg1 := rfl
@[simp] theorem hostReg_op : hostReg 0x028 = .op := rfl

theorem hostWrite_ctrl (w : Word) (s : State) : hostWrite 0x004 w s = ctrlWrite w s := rfl

theorem softReset_cfg (s : State) : (softReset s).cfg = s.cfg := by
  unfold softReset
  simp only
  split <;> simp

/-- A soft reset leaves the levels of its own events (R451). -/
theorem PinsFollowTrace.softReset {s : State} (h : PinsFollowTrace s) :
    PinsFollowTrace (softReset s) := by
  have h1 : PinsFollowTrace s.deselectAll := EmitsFrom.refl.deselectAll.pinsFollowTrace h
  unfold Machine.softReset
  simp only
  split
  · exact h1.congr rfl rfl
  · exact (h1.emit (.setRST true)).congr rfl rfl

/-- A CTRL write without SOFT_RESET touches the error record and OVR alone (R425, R426). -/
theorem ctrlWrite_eq {w : Word} (h : w.getLsbD 0 = false) (s : State) : ctrlWrite w s =
    { s with
      err := if w.getLsbD 1 then false else s.err,
      errcode := if w.getLsbD 1 then none else s.errcode,
      errop := if w.getLsbD 1 then 0 else s.errop,
      ovr := if w.getLsbD 2 then false else s.ovr } := by
  simp only [ctrlWrite, h, Bool.false_eq_true, if_false]
  cases w.getLsbD 1 <;> cases w.getLsbD 2 <;> rfl

theorem ctrlWrite_soft {w : Word} (h : w.getLsbD 0 = true) (s : State) :
    ctrlWrite w s = softReset s := by
  simp only [ctrlWrite, h, if_true]

/-- A CTRL write keeps OVR unless SOFT_RESET or OVR_CLR is set, and never sets it (R50). -/
theorem ctrlWrite_ovr (w : Word) (s : State) :
    (ctrlWrite w s).ovr = (s.ovr && !w.getLsbD 0 && !w.getLsbD 2) := by
  cases h : w.getLsbD 0 with
  | true => simp [ctrlWrite_soft h, softReset]
  | false =>
    rw [ctrlWrite_eq h]
    cases w.getLsbD 2 <;> simp

theorem ctrlWrite_cfg (w : Word) (s : State) : (ctrlWrite w s).cfg = s.cfg := by
  cases h : w.getLsbD 0 with
  | true => rw [ctrlWrite_soft h, softReset_cfg]
  | false => rw [ctrlWrite_eq h]

theorem PinsFollowTrace.ctrlWrite {s : State} (h : PinsFollowTrace s) (w : Word) :
    PinsFollowTrace (ctrlWrite w s) := by
  cases hw : w.getLsbD 0 with
  | true => rw [ctrlWrite_soft hw]; exact h.softReset
  | false => rw [ctrlWrite_eq hw]; exact h.congr rfl rfl

/-- What a host access leaves alone, other than a write to CTRL: the driven levels, the trace, the
parameters, RESULT, a standing OVR, and OP while an operation runs. -/
structure HostKeeps (s t : State) : Prop where
  pins : t.pins = s.pins
  trace : t.trace = s.trace
  cfg : t.cfg = s.cfg
  result : t.result = s.result
  ovr : s.ovr = true → t.ovr = true
  op : s.run = true → t.op = s.op

theorem hostKeeps_hostRead (off : Nat) (s : State) : HostKeeps s (hostRead off s) := by
  obtain ⟨v, d, h, _⟩ := hostRead_eq off s
  rw [h]
  exact ⟨rfl, rfl, rfl, rfl, id, fun _ => rfl⟩

theorem hostWrite_ctrl_or_keeps (off : Nat) (w : Word) (s : State) :
    (off = 0x004 ∧ hostWrite off w s = ctrlWrite w s) ∨ HostKeeps s (hostWrite off w s) := by
  rcases hostWrite_cases off w s with h | h | ⟨_, h⟩ |
    ⟨hr, ⟨_, h⟩ | ⟨_, h⟩ | ⟨_, _, h⟩ | ⟨_, h⟩ | ⟨_, h⟩⟩
  · exact .inr (by rw [h]; exact ⟨rfl, rfl, rfl, rfl, id, fun _ => rfl⟩)
  · exact .inl h
  · exact .inr (by rw [h]; exact ⟨rfl, rfl, rfl, rfl, fun _ => rfl, fun _ => rfl⟩)
  · exact .inr (by rw [h]; exact ⟨rfl, rfl, rfl, rfl, id, fun _ => rfl⟩)
  · exact .inr (by rw [h]; exact ⟨rfl, rfl, rfl, rfl, id, fun _ => rfl⟩)
  · exact .inr (by rw [h]; exact ⟨rfl, rfl, rfl, rfl, id, fun hs => by simp [hr] at hs⟩)
  · exact .inr (by rw [h]; exact ⟨rfl, rfl, rfl, rfl, id, fun _ => rfl⟩)
  · exact .inr (by rw [h]; exact ⟨rfl, rfl, rfl, rfl, id, fun _ => rfl⟩)

/-- The offsets of PAYLOAD, LINEBUF and TEXT (R42). -/
theorem isRam_iff (off : Nat) : isRam off = true ↔
    (0x100 ≤ off ∧ off < 0x200) ∨ (0x200 ≤ off ∧ off < 0x32C) ∨ (0x400 ≤ off ∧ off < 0x580) := by
  simp [isRam, or_assoc]

/-- A write that finds its register busy is dropped (R50). -/
theorem hostWrite_dropped {off : Nat} {s : State} (w : Word)
    (h : (off = 0x028 ∧ (s.run = true ∨ s.err = true)) ∨
      (s.run = true ∧ (off = 0x020 ∨ off = 0x024 ∨ (0x040 ≤ off ∧ off < 0x058) ∨
        isRam off = true))) :
    hostWrite off w s = dropWrite s := by
  rcases h with ⟨rfl, h⟩ | ⟨hr, rfl | rfl | ht | ht⟩
  · simp [hostWrite, h]
  · simp [hostWrite, hr]
  · simp [hostWrite, hr]
  · simp [hostWrite, hostReg_textlen ht, hr]
  · simp [hostWrite, hostReg_ram ht, hr]

/-- A write to a read-only register or a reserved offset is ignored (R42, R43, R105). -/
theorem hostWrite_ignored {off : Nat} (w : Word) (s : State)
    (h : off = 0x000 ∨ off = 0x008 ∨ off = 0x00C ∨ off = 0x010 ∨ off = 0x014 ∨ off = 0x018 ∨
      off = 0x01C ∨ (0x02C ≤ off ∧ off < 0x040) ∨ (0x058 ≤ off ∧ off < 0x100) ∨
      (0x32C ≤ off ∧ off < 0x400) ∨ 0x580 ≤ off) : hostWrite off w s = s := by
  have noRam : isRam off ≠ true := by rw [ne_eq, isRam_iff]; omega
  rcases hostReg_cases off with ⟨_, hr⟩ | ctrl | ⟨_, hr⟩ | ⟨_, hr⟩ | ⟨_, hr⟩ | ⟨_, hr⟩ | ⟨_, hr⟩ |
    arg0 | arg1 | op | textlen | ram | ⟨_, _, hr, _⟩
  · simp only [hostWrite, hr]
  · omega
  · simp only [hostWrite, hr]
  · simp only [hostWrite, hr]
  · simp only [hostWrite, hr]
  · simp only [hostWrite, hr]
  · simp only [hostWrite, hr]
  · omega
  · omega
  · omega
  · omega
  · exact absurd ram.1 noRam
  · simp only [hostWrite, hr]

/-! ### No instruction looks at LIFE (R55) -/

@[simp] theorem withLife_session (s : State) (l : Life) : (s.withLife l).session = s.session := rfl
@[simp] theorem withLife_arg0 (s : State) (l : Life) : (s.withLife l).arg0 = s.arg0 := rfl
@[simp] theorem withLife_arg1 (s : State) (l : Life) : (s.withLife l).arg1 = s.arg1 := rfl

theorem payload_withLife (s : State) (l : Life) : (s.withLife l).payload = s.payload :=
  funext fun n => ramBytes_withLife s l payloadBase n

theorem linebuf_withLife (s : State) (l : Life) : (s.withLife l).linebuf = s.linebuf :=
  ramBytes_withLife s l linebufBase lineBytes

theorem stamp_withLife (ox : Int) (wl : Nat) (bits : Byte) (k : Color) (s : State) (l : Life) :
    stamp ox wl bits k (s.withLife l) = (stamp ox wl bits k s).withLife l :=
  paint_withLife k _ s l

theorem lifeOnly_seqOp (p : List Micro) (s : State) (l : Life) :
    LifeOnly (seqOp p s) (seqOp p (s.withLife l)) :=
  lifeOnly_seqChecked (lifeOnly_load p s l)

theorem lifeOnly_execDeselect (t : Tgt) (s : State) (l : Life) :
    LifeOnly (execDeselect t s) (execDeselect t (s.withLife l)) := by
  unfold execDeselect
  rw [withLife_session]
  cases linesOf? t with
  | none => exact lifeOnly_raise _ s l
  | some ls =>
    simp only
    split
    · exact lifeOnly_raise _ s l
    · exact lifeOnly_load _ s l

theorem lifeOnly_execWaitReady (s : State) (l : Life) :
    LifeOnly (execWaitReady s) (execWaitReady (s.withLife l)) := by
  unfold execWaitReady
  rw [withLife_session]
  split
  · exact lifeOnly_raise _ s l
  · exact lifeOnly_load _ s l

theorem lifeOnly_execBeginFrame (t : Tgt) (s : State) (l : Life) :
    LifeOnly (execBeginFrame t s) (execBeginFrame t (s.withLife l)) := by
  unfold execBeginFrame
  rw [withLife_session]
  cases halfOf? t with
  | none => exact lifeOnly_raise _ s l
  | some h =>
    simp only
    split
    · exact lifeOnly_raise _ s l
    · exact lifeOnly_load _ s l

theorem lifeOnly_execEndFrame (t : Tgt) (s : State) (l : Life) :
    LifeOnly (execEndFrame t s) (execEndFrame t (s.withLife l)) := by
  unfold execEndFrame
  rw [withLife_session]
  cases halfOf? t with
  | none => exact lifeOnly_raise _ s l
  | some h =>
    simp only
    split
    · exact lifeOnly_raise _ s l
    · split
      · exact lifeOnly_raise _ s l
      · exact lifeOnly_load _ s l

theorem lifeOnly_execWriteLine (t : Tgt) (s : State) (l : Life) :
    LifeOnly (execWriteLine t s) (execWriteLine t (s.withLife l)) := by
  unfold execWriteLine linebufValid lineProg
  rw [linebuf_withLife, withLife_session, withLife_arg0]
  cases halfOf? t with
  | none => exact lifeOnly_raise _ s l
  | some h =>
    cases lineLen? s.arg0 with
    | none => exact lifeOnly_raise _ s l
    | some n =>
      simp only
      split
      · exact .next s.complete l
      iterate 4
        split
        · exact lifeOnly_raise _ s l
      exact lifeOnly_load _ s l

theorem lifeOnly_execFillLine (k : Byte) (s : State) (l : Life) :
    LifeOnly (execFillLine k s) (execFillLine k (s.withLife l)) := by
  unfold execFillLine
  cases colorOf? k with
  | none => exact lifeOnly_raise _ s l
  | some c => exact .next (fillLinebuf c s).complete l

theorem lifeOnly_execGlyphRow (s : State) (l : Life) :
    LifeOnly (execGlyphRow s) (execGlyphRow (s.withLife l)) := by
  unfold execGlyphRow
  rw [withLife_arg1]
  cases glyphRowOperands? s.arg1 with
  | none => exact lifeOnly_raise _ s l
  | some g => exact .next (State.complete { s with result := (glyphByte s g.1 g.2).setWidth 32 }) l

theorem lifeOnly_execStampGlyph (s : State) (l : Life) :
    LifeOnly (execStampGlyph s) (execStampGlyph (s.withLife l)) := by
  unfold execStampGlyph
  rw [withLife_arg0, withLife_arg1]
  cases stampOperands? s.arg0 s.arg1 with
  | none => exact lifeOnly_raise _ s l
  | some o =>
    simp only [stamp_withLife]
    exact .next (stamp o.ox o.wl o.bits o.color s).complete l

theorem lifeOnly_execClear (k : Byte) (s : State) (l : Life) :
    LifeOnly (execClear k s) (execClear k (s.withLife l)) := by
  unfold execClear
  cases colorOf? k with
  | none => exact lifeOnly_raise _ s l
  | some c => exact lifeOnly_seqChecked (lifeOnly_load _ (fillLinebuf c s) l)

theorem lifeOnly_execSplash (s : State) (l : Life) :
    LifeOnly (execSplash s) (execSplash (s.withLife l)) := by
  unfold execSplash
  rw [show textlensOk (s.withLife l) = textlensOk s from rfl]
  split
  · exact lifeOnly_seqChecked (lifeOnly_load _ s l)
  · exact lifeOnly_raise _ s l

theorem lifeOnly_prepend (p : List Micro) (s : State) (l : Life) :
    LifeOnly (.next (s.prepend p)) (.next ((s.withLife l).prepend p)) :=
  .next (s.prepend p) l

/-- From two states that differ in LIFE alone every instruction answers alike but for LIFE. -/
theorem lifeOnly_exec (i : Instr) (s : State) (l : Life) :
    LifeOnly (exec i s) (exec i (s.withLife l)) := by
  cases i with
  | nop => exact .next s.complete l
  | select t => exact lifeOnly_framerOp t _ _ s l
  | deselect t => exact lifeOnly_execDeselect t s l
  | sendCmd t c => exact lifeOnly_framerOp t _ _ s l
  | sendData t =>
    simp only [exec, execSendData, payload_withLife]
    exact lifeOnly_framerOp t _ _ s l
  | sendFramed t c =>
    simp only [exec, execSendFramed, payload_withLife]
    exact lifeOnly_framerOp t _ _ s l
  | waitReady => exact lifeOnly_execWaitReady s l
  | reset => exact lifeOnly_seqOp _ s l
  | configure => exact lifeOnly_seqOp _ s l
  | init => exact lifeOnly_seqOp _ s l
  | powerOn => exact lifeOnly_seqOp _ s l
  | refresh => exact lifeOnly_seqOp _ s l
  | powerOff => exact lifeOnly_seqOp _ s l
  | sleep => exact lifeOnly_seqOp _ s l
  | displayUpdate => exact lifeOnly_seqOp _ s l
  | beginFrame t => exact lifeOnly_execBeginFrame t s l
  | writeLine t => exact lifeOnly_execWriteLine t s l
  | endFrame t => exact lifeOnly_execEndFrame t s l
  | fillLine k => exact lifeOnly_execFillLine k s l
  | glyphIndex ch =>
    exact .next (State.complete { s with result := BitVec.ofNat 32 (glyphIndexOf ch).val }) l
  | glyphRow => exact lifeOnly_execGlyphRow s l
  | stampGlyph => exact lifeOnly_execStampGlyph s l
  | clear k => exact lifeOnly_execClear k s l
  | splash => exact lifeOnly_execSplash s l
  | wireLineWrite => exact lifeOnly_prepend _ s l
  | wirePowerOn => exact lifeOnly_prepend _ s l
  | wireDataRefresh => exact lifeOnly_prepend _ s l
  | wirePowerOff => exact lifeOnly_prepend _ s l
  | wireDeepSleep => exact lifeOnly_prepend _ s l

theorem lifeOnly_microStep (m : Micro) (s : State) (l : Life) :
    LifeOnly (.next (microStep m s)) (.next (microStep m (s.withLife l))) := by
  obtain ⟨k, hk⟩ := microStep_withLife m s l
  exact ⟨_, k, rfl, by rw [hk]⟩

/-- The same of every move of the sequencer. -/
theorem lifeOnly_sequencerTurn (s : State) (l : Life) :
    LifeOnly (sequencerTurn s) (sequencerTurn (s.withLife l)) := by
  cases hr : s.run with
  | false =>
    rw [sequencerTurn_idle hr, sequencerTurn_idle (s := s.withLife l) hr]
    exact .next s l
  | true =>
    have hrl : (s.withLife l).run = true := hr
    cases hs : s.seq with
    | nil =>
      rw [sequencerTurn_done hr hs, sequencerTurn_done hrl hs]
      exact .next s.complete l
    | cons m r =>
      have hsl : (s.withLife l).seq = m :: r := hs
      cases m with
      | start =>
        simp only [sequencerTurn, hr, hrl, hs, hsl, if_true]
        rw [show (s.withLife l).op = s.op from rfl]
        cases decode s.op with
        | ok i => exact lifeOnly_exec i (s.withSeq r) l
        | error _ => exact lifeOnly_raise _ (s.withSeq r) l
      | wire b =>
        simp only [sequencerTurn, hr, hrl, hs, hsl, if_true]
        cases decodePanel b with
        | ok i => exact lifeOnly_exec i (s.withSeq r) l
        | error _ => exact lifeOnly_microStep _ (s.withSeq r) l
      | _ =>
        simp only [sequencerTurn, hr, hrl, hs, hsl, if_true]
        exact lifeOnly_microStep _ (s.withSeq r) l

/-- Two such answers agree when LIFE is made the same. -/
theorem LifeOnly.agree {a b : Result} (h : LifeOnly a b) :
    ∃ t t', a = .next t ∧ b = .next t' ∧ { t' with life := t.life } = t := by
  obtain ⟨t, l, ha, hb⟩ := h
  exact ⟨t, t.withLife l, ha, hb, rfl⟩

/-! ### The obligations -/

/-- Settles O4: only events change the driven levels, and the host's moves emit through softReset
alone. -/
theorem stepKeepsPinsFollowTrace : Obligations.StepKeepsPinsFollowTrace := by
  intro s s' hp h
  obtain ⟨ts, h | ⟨_, rfl⟩ | ⟨off, _, rfl⟩ | ⟨off, w, _, rfl⟩⟩ := step_agents h
  · rcases sequencerTurn_emitsFrom_or_result h with he | ⟨_, v, rfl⟩
    · exact he.pinsFollowTrace hp
    · exact hp
  · exact rfl
  · have hk := hostKeeps_hostRead off (s.withTurns ts)
    exact PinsFollowTrace.congr (s := s) hp hk.pins hk.trace
  · rcases hostWrite_ctrl_or_keeps off w (s.withTurns ts) with ⟨_, hw⟩ | hk
    · rw [hw]
      exact PinsFollowTrace.ctrlWrite (s := s.withTurns ts) hp w
    · exact PinsFollowTrace.congr (s := s) hp hk.pins hk.trace

/-- Settles O7, by the agent that moves. -/
theorem stepKeepsParameters : Obligations.StepKeepsParameters := by
  intro s s' h
  obtain ⟨ts, h | ⟨_, rfl⟩ | ⟨off, _, rfl⟩ | ⟨off, w, _, rfl⟩⟩ := step_agents h
  · exact (sequencerTurn_keeps h).cfg
  · rfl
  · exact (hostKeeps_hostRead off (s.withTurns ts)).cfg
  · rcases hostWrite_ctrl_or_keeps off w (s.withTurns ts) with ⟨_, hw⟩ | hk
    · rw [hw, ctrlWrite_cfg, State.withTurns_cfg]
    · exact hk.cfg

/-- Settles O19: a busy register drops the write; of all moves only a CTRL write or a hardware reset
lowers OVR. -/
theorem droppedWritesSetOverrunOnly : Obligations.DroppedWritesSetOverrunOnly := by
  refine ⟨fun s off w ts ht h4 hb => ?_, fun s s' ho h hf => ?_, fun s s' w ts ht h ho => ?_⟩
  · rw [step_write ht h4 (by omega)]
    rw [← isRam_iff] at hb
    rw [hostWrite_dropped (s := s.withTurns ts) w hb]
    rfl
  · obtain ⟨ts, h | ⟨ht, _⟩ | ⟨off, _, rfl⟩ | ⟨off, w, ht, rfl⟩⟩ := step_agents h
    · have := (sequencerTurn_keeps h).ovr
      simp [ho, hf] at this
    · exact .inl ⟨ts, ht⟩
    · have := (hostKeeps_hostRead off (s.withTurns ts)).ovr ho
      simp [hf] at this
    · rcases hostWrite_ctrl_or_keeps off w (s.withTurns ts) with ⟨rfl, hw⟩ | hk
      · rw [hw, ctrlWrite_ovr] at hf
        exact .inr ⟨w, ts, ht, by simpa [ho, or_iff_not_imp_left] using hf⟩
      · have := hk.ovr ho
        simp [hf] at this
  · rw [step_write ht rfl (by decide)] at h
    cases h
    rw [hostWrite_ctrl, ctrlWrite_ovr] at ho
    simp only [Bool.and_eq_true] at ho
    exact ho.1.1

/-- Settles O20: an operation that still runs after the step was not soft reset, and no other move
writes OP while it runs. -/
theorem opWriteLatchesAndStarts : Obligations.OpWriteLatchesAndStarts := by
  refine ⟨fun s w ts ht hr he => ?_, fun s ts ht => ?_, fun s s' hr h hr' => ?_⟩
  · have hw : hostWrite 0x028 w (s.withTurns ts) = opWrite w (s.withTurns ts) := by
      simp [hostWrite, hr, he]
    rw [step_write ht rfl (by decide), hw]
    rfl
  · rw [step_read ht rfl (by decide)]
    simp [hostRead, unstableWhileRunning, regValue,
      State.withTurns]
  · obtain ⟨ts, h | ⟨_, rfl⟩ | ⟨off, _, rfl⟩ | ⟨off, w, _, rfl⟩⟩ := step_agents h
    · exact (sequencerTurn_keeps h).op
    · cases hr'
    · exact (hostKeeps_hostRead off (s.withTurns ts)).op hr
    · rcases hostWrite_ctrl_or_keeps off w (s.withTurns ts) with ⟨_, hw⟩ | hk
      · rw [hw] at hr' ⊢
        cases h0 : w.getLsbD 0 with
        | true => rw [ctrlWrite_soft h0] at hr'; cases hr'
        | false => rw [ctrlWrite_eq h0, State.withTurns_op]
      · exact hk.op hr

/-- Settles O58: events and quiet updates keep RESULT, and so does every host access but a soft
reset. -/
theorem onlyGlyphOperationsWriteResult : Obligations.OnlyGlyphOperationsWriteResult := by
  intro s s' h hne
  obtain ⟨ts, h | ⟨ht, _⟩ | ⟨off, _, rfl⟩ | ⟨off, w, ht, rfl⟩⟩ := step_agents h
  · rcases sequencerTurn_emitsFrom_or_result h with he | ⟨⟨hs, i, hd, hi⟩, _⟩
    · exact absurd he.result_eq hne
    · rcases hi with ⟨ch, rfl⟩ | rfl
      · exact .inl ⟨hs, .inl ⟨ch, hd⟩⟩
      · exact .inl ⟨hs, .inr hd⟩
  · exact .inr (.inr ⟨ts, ht⟩)
  · exact absurd (hostKeeps_hostRead off (s.withTurns ts)).result hne
  · rcases hostWrite_ctrl_or_keeps off w (s.withTurns ts) with ⟨rfl, hw⟩ | hk
    · refine .inr (.inl ⟨w, ts, ht, ?_⟩)
      by_contra h0
      rw [Bool.not_eq_true] at h0
      exact hne (by rw [hw, ctrlWrite_eq h0, State.withTurns_result])
    · exact absurd hk.result hne

/-- Settles O59: the step is one move of the sequencer. -/
theorem sequencerKeepsItsOperands : Obligations.SequencerKeepsItsOperands := by
  intro s s' hn h
  obtain ⟨ts, hstep⟩ := step_of_sequencerIsNext hn
  have hk := sequencerTurn_keeps ((hstep s rfl rfl).symm.trans h)
  exact ⟨hk.op, hk.arg0, hk.arg1, hk.textlen, hk.ovr, hk.boot, hk.hostReads, hk.ram⟩

/-- Settles O60: which turn is taken off does not depend on LIFE, and neither does the move. -/
theorem noOperationChecksLife : Obligations.NoOperationChecksLife := by
  refine ⟨fun i s l => (lifeOnly_exec i s l).agree, fun s l hn => ?_⟩
  obtain ⟨ts, hstep⟩ := step_of_sequencerIsNext hn
  rw [hstep s rfl rfl, hstep { s with life := l } rfl rfl]
  exact (lifeOnly_sequencerTurn (s.withTurns ts) l).agree

/-- Settles O1, field by field. -/
theorem resetStateIsAsSpecified : Obligations.ResetStateIsAsSpecified := by
  have textlens : ∀ b : Fin 6, State.reset.textlen[b.val] = 0 := by decide
  exact ⟨rfl, rfl, rfl, rfl, rfl, rfl, rfl, textlens, rfl, rfl, rfl, rfl, rfl, rfl, rfl, rfl, rfl,
    rfl, rfl, rfl, fun _ => rfl, rfl⟩

/-- The state after reset meets every clause of the invariant: nothing is written, sent, running or
recorded. -/
theorem machineInv_reset : MachineInv State.reset where
  mem_wf := ⟨.nil, fun c hc => by cases hc⟩
  idle_position := fun _ => rfl
  position := rfl
  session_exclusive := rfl
  err_idle := fun _ => rfl
  err_code := rfl
  err_op := fun _ => rfl
  never_transport := by decide
  power := fun h => by cases h
  events := fun e he => by cases he

/-- Settles O2. -/
theorem resetMeetsTheInvariants : Obligations.ResetMeetsTheInvariants := ⟨machineInv_reset, rfl⟩

/-- Settles O21: at each listed offset the write is that of its register, or none. -/
theorem hostWritesStoreTheirRegister : Obligations.HostWritesStoreTheirRegister := by
  intro s off w ts ht h4 hl
  rw [step_write ht h4 hl]
  refine ⟨fun hr => ⟨?_, ?_, fun b hb => ?_⟩, fun hi => ?_⟩
  · rintro rfl
    simp [hostWrite, hr, State.withTurns]
  · rintro rfl
    simp [hostWrite, hr, State.withTurns]
  · have hb' : (⟨(off - 0x040) / 4, by omega⟩ : Fin 6) = b := Fin.ext (by simp; omega)
    simp [hostWrite, hostReg_textlen (off := off) (by omega), hb', hr, State.withTurns]
  · rw [hostWrite_ignored w _ hi]
    rfl

end Sys2Proof.Machine
end

section
/-! SUPPORT. The memory map and the wire (spec/20_memory.md): what a step adds to the trace, the
bytes of a RAM word, the value a host read returns, and which host accesses are refused. Then the
obligations about them, settled from these. -/

namespace Sys2Proof.Machine

/-! ### What a step adds to the trace (R110, R432) -/

@[simp] theorem State.emit_withTurns (s : State) (ts : List Turn) (e : Event) :
    (s.withTurns ts).emit e = (s.emit e).withTurns ts := by
  cases e with
  | setCS l v => cases l <;> rfl
  | tx k b m c => cases k <;> rfl
  | _ => rfl

/-- Which turns are still to come does not matter to what a move adds to the trace. -/
theorem WireStep.of_withTurns {s t : State} {ts : List Turn} (h : WireStep (s.withTurns ts) t) :
    WireStep s t := by
  cases h with
  | silent h => exact .silent h
  | event e h hm hc hd htx =>
    rw [State.emit_withTurns] at hm hc hd
    exact .event e h hm hc hd htx
  | timeout h he => exact .timeout h he

/-- The events of a soft reset: each only where its level does not stand already (R451). -/
def softResetEvents (s : State) : List Event :=
  (if s.anySelected then [.setCS .ms true] else []) ++ (if s.rstl then [] else [.setRST true])

theorem softReset_trace (s : State) : (softReset s).trace = s.trace ++ softResetEvents s := by
  unfold softReset softResetEvents
  simp only [State.deselectAll_rstl]
  cases s.rstl <;> simp [State.deselectAll_trace]

/-- What a step adds to the trace: what a move of the sequencer can add, or, in a CTRL write with
SOFT_RESET, the events of the soft reset; a hardware reset restarts the trace (R450). -/
theorem step_wire {s s' : State} (h : step s = .next s') :
    WireStep s s' ∨ ((∃ ts, s.turns = .hardwareReset :: ts) ∧ s'.trace = []) ∨
    (s'.trace = s.trace ++ softResetEvents s ∧
      ∃ w ts, s.turns = .host (.write 4 0x004 w) :: ts ∧ w.getLsbD 0 = true) := by
  obtain ⟨ts, h | ⟨ht, rfl⟩ | ⟨off, _, rfl⟩ | ⟨off, w, ht, rfl⟩⟩ := step_agents h
  · exact .inl (sequencerTurn_wireStep h).of_withTurns
  · exact .inr (.inl ⟨⟨ts, ht⟩, rfl⟩)
  · exact .inl (.silent (hostKeeps_hostRead off (s.withTurns ts)).trace)
  · rcases hostWrite_ctrl_or_keeps off w (s.withTurns ts) with ⟨rfl, hw⟩ | hk
    · rw [hw]
      cases h0 : w.getLsbD 0 with
      | true => rw [ctrlWrite_soft h0]; exact .inr (.inr ⟨softReset_trace _, w, ts, ht, h0⟩)
      | false => rw [ctrlWrite_eq h0]; exact .inl (.silent rfl)
    · exact .inl (.silent hk.trace)

/-- A soft reset emits no byte. -/
theorem tx_not_mem_softResetEvents (s : State) (k : TxKind) (b : Byte) (m c : Bool) :
    .tx k b m c ∉ softResetEvents s := by
  unfold softResetEvents
  cases s.anySelected <;> cases s.rstl <;> simp

/-- A byte changes neither chip-select, and leaves DC at the level of its kind (R112). -/
theorem emit_tx (s : State) (k : TxKind) (b : Byte) (m c : Bool) :
    (s.emit (.tx k b m c)).csM = s.csM ∧ (s.emit (.tx k b m c)).csS = s.csS ∧
    (k = .cmd → (s.emit (.tx k b m c)).dc = false) ∧
    (k = .data → (s.emit (.tx k b m c)).dc = true) := by
  cases k <;> exact ⟨rfl, rfl, by simp [State.emit], by simp [State.emit]⟩

/-! ### RAM words (R102) -/

/-- A word written to a RAM sets its four bytes, least significant first, and no other. -/
theorem ram_writeRam_word (s : State) (off : Nat) (w : Word) (a : Nat) :
    (s.writeRam off (wordBytes w)).ram a =
      if a = off then w.extractLsb' 0 8
      else if a = off + 1 then w.extractLsb' 8 8
      else if a = off + 2 then w.extractLsb' 16 8
      else if a = off + 3 then w.extractLsb' 24 8
      else s.ram a := by
  have hlen : (wordBytes w).length = 4 := rfl
  rw [State.ram_writeRam]
  by_cases hin : off ≤ a ∧ a < off + (wordBytes w).length
  · rw [dif_pos hin]
    obtain ⟨i, rfl⟩ := Nat.exists_eq_add_of_le hin.1
    have hi : i < 4 := by omega
    interval_cases i <;> simp [wordBytes]
  · rw [dif_neg hin]
    iterate 4 rw [if_neg (by omega)]

/-- Between operations a host write to a RAM word is stored (R101). -/
theorem hostWrite_ram {off : Nat} {s : State} (w : Word) (hram : isRam off = true)
    (hr : s.run = false) : hostWrite off w s = s.writeRam off (wordBytes w) := by
  simp [hostWrite, hostReg_ram hram, hr]

/-! ### Host reads (R105, R106, R120) -/

/-- Only RESULT, LINECNT and LINEBUF are any value while an operation runs (R120). -/
theorem offset_of_unstable {off : Nat} (h : unstableWhileRunning (hostReg off) = true) :
    off = 0x014 ∨ off = 0x018 ∨ (0x200 ≤ off ∧ off < 0x32C) := by
  rcases hostReg_cases off with ⟨_, hr⟩ | ⟨_, hr⟩ | ⟨_, hr⟩ | ⟨_, hr⟩ | ⟨_, hr⟩ | ⟨ho, hr⟩ |
    ⟨ho, hr⟩ | ⟨_, hr⟩ | ⟨_, hr⟩ | ⟨_, hr⟩ | ⟨_, _, _, _, hr⟩ | ⟨_, hr⟩ | ⟨_, _, hr, _⟩
  all_goals simp only [hr, unstableWhileRunning, decide_eq_true_eq, Bool.false_eq_true] at h
  · exact .inl ho
  · exact .inr (.inl ho)
  · exact .inr (.inr h)

/-- A read of a stable register or RAM word returns its value and draws nothing. -/
theorem hostRead_stable {off : Nat} {s : State}
    (h : s.run = false ∨ unstableWhileRunning (hostReg off) = false) : hostRead off s =
    { s with hostReads := s.hostReads ++ [(off, regValue (hostReg off) s)] } := by
  obtain ⟨v, d, hread, hstable⟩ := hostRead_eq off s
  obtain ⟨rfl, rfl⟩ := hstable h
  exact hread

theorem hostReg_reserved {off : Nat} (h : off = 0x01C ∨ (0x02C ≤ off ∧ off < 0x040) ∨
    (0x058 ≤ off ∧ off < 0x100) ∨ (0x32C ≤ off ∧ off < 0x400) ∨ 0x580 ≤ off) :
    hostReg off = .reserved := by
  unfold hostReg
  iterate 10 rw [if_neg (by omega)]
  rw [dif_neg (by omega), if_neg (by rw [isRam_iff]; omega)]

/-- The codes of LIFE (R55). -/
theorem lifeBits_code : ∀ p ∈ ([(.unpowered, 0), (.resetting, 1), (.initialized, 2),
    (.displaying, 3), (.sleeping, 4)] : List (Life × BitVec 3)), lifeBits p.1 = p.2 := by decide

/-- The numbers of the error codes as ERRCODE shows them (R46, R410). -/
theorem errByte_number : ∀ p ∈ ([(.illegalOp, 1), (.badOperand, 2), (.sessionOpen, 3),
    (.noSession, 4), (.wrongHalf, 5), (.wrongLength, 6), (.badPixel, 7), (.csConflict, 8),
    (.handshakeTimeout, 9), (.transportFailure, 10)] : List (ErrCode × Word)),
    (errByte p.1).setWidth 32 = p.2 := by decide

/-! ### Accesses outside the interface (R103) -/

theorem accessRefusal_of_undefined {width off : Nat}
    (h : width ≠ 4 ∨ off % 4 ≠ 0 ∨ 0x1000 ≤ off) : ∃ r, accessRefusal width off = some r ∧
      (r = .hostAccessWidth ∨ r = .hostAccessUnaligned ∨ r = .hostAccessOutsideWindow) := by
  unfold accessRefusal
  split
  · exact ⟨_, rfl, .inl rfl⟩
  · split
    · exact ⟨_, rfl, .inr (.inl rfl)⟩
    · rw [if_pos (by omega)]
      exact ⟨_, rfl, .inr (.inr rfl)⟩

/-- An access that the interface does not define stops the step of a read and of a write alike. -/
theorem step_refused {s : State} {width off : Nat} {w : Word} {ts : List Turn} {r : Refusal}
    (ht : s.turns = .host (.read width off) :: ts ∨ s.turns = .host (.write width off w) :: ts)
    (hr : accessRefusal width off = some r) : step s = .refused r := by
  rcases ht with ht | ht <;> simp only [step, takeTurn, ht, hostTurn, hr]

/-! ### The obligations -/

/-- Settles O5, by what a step adds to the trace; a soft reset adds each of its two events or
neither. -/
theorem traceIsAppendOnly : Obligations.TraceIsAppendOnly := by
  intro s s' h
  rcases step_wire h with hw | hreset | ⟨htr, hctrl⟩
  · refine .inr ?_
    cases hw with
    | silent h => exact ⟨[], by simpa using h, .inl rfl⟩
    | event e h _ _ _ _ => exact ⟨[e], h, .inr (.inl ⟨e, rfl⟩)⟩
    | timeout h he => exact ⟨_, h, .inr (.inr (.inl ⟨rfl, he⟩))⟩
  · exact .inl hreset
  · refine .inr ⟨_, htr, ?_⟩
    unfold softResetEvents
    cases s.anySelected <;> cases s.rstl
    · exact .inr (.inl ⟨_, rfl⟩)
    · exact .inl rfl
    · exact .inr (.inr (.inr ⟨rfl, hctrl⟩))
    · exact .inr (.inl ⟨_, rfl⟩)

/-- Settles O6: only a move of the sequencer with one event adds a single byte. -/
theorem transmittedBytesCarryTheLevels : Obligations.TransmittedBytesCarryTheLevels := by
  intro s s' k b m c h htr
  rcases step_wire h with hw | ⟨_, hreset⟩ | ⟨hsoft, _⟩
  · cases hw with
    | silent h => simp [htr] at h
    | event e h hm hc hd htx =>
      obtain rfl : .tx k b m c = e := by simpa [htr] using h
      obtain ⟨rfl, rfl⟩ := htx k b m c rfl
      obtain ⟨heM, heS, hcmd, hdata⟩ := emit_tx s k b s.csM s.csS
      exact ⟨rfl, rfl, hm.trans heM, hc.trans heS, fun hk => hd.trans (hcmd hk),
        fun hk => hd.trans (hdata hk)⟩
    | timeout h _ => simp [htr] at h
  · simp [htr] at hreset
  · have hes : [.tx k b m c] = softResetEvents s := by simpa [htr] using hsoft
    exact absurd (hes ▸ List.mem_singleton_self _) (tx_not_mem_softResetEvents s k b m c)

/-- Settles O23: in the idle state every RAM word is stored and read as it stands. -/
theorem ramWordsAreLittleEndian : Obligations.RamWordsAreLittleEndian := by
  intro s off w ts hr h4 hoff
  have hram : isRam off = true := (isRam_iff off).2 hoff
  refine ⟨fun ht => ⟨_, ?_, ram_writeRam_word (s.withTurns ts) off w⟩, fun ht => ?_⟩
  · rw [step_write ht h4 (by omega), hostWrite_ram (s := s.withTurns ts) w hram hr]
    rfl
  · rw [step_read ht h4 (by omega), hostRead_stable (s := s.withTurns ts) (.inl hr),
      hostReg_ram hram]
    rfl

/-- Settles O24: each offset names its register, whose value is read unless an operation makes it
any value. -/
theorem hostReadsHaveNoSideEffect : Obligations.HostReadsHaveNoSideEffect := by
  intro s off ts ht h4 hl
  obtain ⟨v, d, hread, hstable⟩ := hostRead_eq off (s.withTurns ts)
  have value {r : HostReg} (hr : hostReg off = r)
      (h : s.run = false ∨ unstableWhileRunning r = false) : v = regValue r (s.withTurns ts) :=
    (hstable (hr ▸ h)).1.trans (by rw [hr])
  refine ⟨v, d, by rw [step_read ht h4 hl, hread]; rfl, fun hst => ?_, ?_, ?_, ?_, ?_, ?_, ?_, ?_,
    ?_, fun b hb => ?_, ?_, ?_, fun hram => ?_, fun hres => ?_⟩
  · refine (hstable ?_).2
    by_contra hu
    simp only [not_or, Bool.not_eq_false] at hu
    exact hst ⟨hu.1, offset_of_unstable hu.2⟩
  · rintro rfl; exact value rfl (.inr rfl)
  · rintro rfl; exact value rfl (.inr rfl)
  · rintro rfl
    obtain rfl : v = statusWord s := value rfl (.inr rfl)
    obtain ⟨run, err, ovr, zero3, session, zero6, life, zero11, csM, csS, rstl, pwrl, busys,
      zero17⟩ := statusWord_fields s
    exact ⟨run, err, ovr, zero3, fun h => by rw [session, h]; rfl, fun h => by rw [session, h]; rfl,
      fun h => by rw [session, h]; rfl, zero6,
      fun p hp h => by rw [life, h]; exact lifeBits_code p hp,
      zero11, csM, csS, rstl, pwrl, busys, zero17⟩
  · rintro rfl
    obtain rfl : v = errcodeWord s := value rfl (.inr rfl)
    exact ⟨fun h => by simp [errcodeWord, h],
      fun p hp h => by simpa [errcodeWord, h] using errByte_number p hp⟩
  · rintro rfl; exact value rfl (.inr rfl)
  · rintro rfl; exact value rfl (.inr rfl)
  · rintro rfl; exact value rfl (.inr rfl)
  · rintro rfl; exact value rfl (.inr rfl)
  · have hb' : (⟨(off - 0x040) / 4, by omega⟩ : Fin 6) = b := Fin.ext (by simp; omega)
    exact value ((hostReg_textlen (by omega)).trans (by rw [hb'])) (.inr rfl)
  · rintro hr rfl; exact value rfl (.inl hr)
  · rintro hr rfl; exact value rfl (.inl hr)
  · refine value (hostReg_ram ((isRam_iff off).2 (by omega))) ?_
    rcases hram with h | h | ⟨hr, _⟩
    · exact .inr (decide_eq_false (by omega))
    · exact .inr (decide_eq_false (by omega))
    · exact .inl hr
  · exact value (hostReg_reserved hres) (.inr rfl)

/-- Settles O22: the host port refuses the access under one of its three names. -/
theorem undefinedHostAccessIsRefused : Obligations.UndefinedHostAccessIsRefused := by
  intro s width off w ts ht hbad
  obtain ⟨r, hr, hname⟩ := accessRefusal_of_undefined hbad
  exact ⟨r, step_refused ht hr, hname⟩

end Sys2Proof.Machine
end

section
/-! SUPPORT. The encodings (spec/30_encoding.md): the fields of an operation word, the rows of the
operation map and what they decode to, and the starts of an operation and of a panel command. Then
the obligations about them, settled from these. -/

namespace Sys2Proof

/-! ### The fields of an operation word (R140, R141) -/

@[simp] theorem Tgt.ofBits_bits (t : Tgt) : Tgt.ofBits t.bits = t := by
  cases t <;> rfl

@[simp] theorem Tgt.bits_ofBits (b : BitVec 2) : (Tgt.ofBits b).bits = b := by
  revert b
  decide

@[simp] theorem Tgt.bits_none : Tgt.bits .none = 0#2 := rfl

@[simp] theorem opcField_opwOf (opc : Byte) (t : Tgt) (imm : Byte) :
    opcField (opwOf opc t imm) = opc := by
  ext i hi
  simp only [opcField, opwOf, BitVec.getElem_extractLsb', BitVec.getLsbD_append]
  grind

@[simp] theorem tgtField_opwOf (opc : Byte) (t : Tgt) (imm : Byte) :
    tgtField (opwOf opc t imm) = t.bits := by
  ext i hi
  simp only [tgtField, opwOf, BitVec.getElem_extractLsb', BitVec.getLsbD_append]
  grind

@[simp] theorem immField_opwOf (opc : Byte) (t : Tgt) (imm : Byte) :
    immField (opwOf opc t imm) = imm := by
  ext i hi
  simp only [immField, opwOf, BitVec.getElem_extractLsb', BitVec.getLsbD_append]
  grind

/-- The word made of the fields of a word: its reserved bits are cleared (R140). -/
theorem opwOf_fields (w : Word) :
    opwOf (opcField w) (Tgt.ofBits (tgtField w)) (immField w) =
      w &&& (0x00FF0300 ||| 0xFF) := by
  refine BitVec.eq_of_getLsbD_eq fun i hi => ?_
  simp only [opwOf, Tgt.bits_ofBits, opcField, tgtField, immField, BitVec.getLsbD_append]
  interval_cases i <;> simp

/-! ### The rows of the operation map (R144, R145) -/

/-- No two rows of the map share an OPC. -/
theorem opTable_opcodes_nodup : (opTable.map fun r => opcField r.code).Nodup := by decide

/-- The row of an OPC is the row of the map with that OPC. -/
theorem opRow?_eq_some {opc : Byte} {r : OpRow} :
    opRow? opc = some r ↔ r ∈ opTable ∧ opcField r.code = opc := by
  have row_of_find {r' : OpRow} (h : opRow? opc = some r') :
      r' ∈ opTable ∧ opcField r'.code = opc :=
    ⟨List.mem_of_find?_eq_some h, by simpa using List.find?_some h⟩
  refine ⟨row_of_find, fun ⟨hr, ho⟩ => ?_⟩
  obtain ⟨r', hf⟩ : ∃ r', opRow? opc = some r' :=
    Option.isSome_iff_exists.1 (List.find?_isSome.2 ⟨r, hr, by simpa using ho⟩)
  obtain ⟨hr', ho'⟩ := row_of_find hf
  rw [hf, List.inj_on_of_nodup_map opTable_opcodes_nodup hr' hr (ho'.trans ho.symm)]

/-- A word decodes to what its row builds from its fields, if its masked bits are the row's. -/
theorem decode_eq_ok {w : Word} {i : Instr} : decode w = .ok i ↔
    ∃ r, opRow? (opcField w) = some r ∧ w &&& r.mask = r.code ∧
      r.build (Tgt.ofBits (tgtField w)) (immField w) = i := by
  unfold decode
  cases opRow? (opcField w) with
  | none => simp
  | some r => by_cases hm : w &&& r.mask = r.code <;> simp [hm]

/-- The word of an OPC and fields that fit its row decodes to what the row builds from them. -/
theorem decode_opwOf {opc : Byte} {t : Tgt} {imm : Byte} {code mask : Word}
    {build : Tgt → Byte → Instr} (hr : opRow? opc = some ⟨code, mask, build⟩)
    (hm : opwOf opc t imm &&& mask = code) :
    decodeCode (.opw (opwOf opc t imm)) = .ok (build t imm) :=
  decode_eq_ok.2 ⟨_, by simpa using hr, hm, by simp⟩

/-- Every match word of the map is its OPC alone, and every mask leaves open bits of TGT and IMM
only (R145). -/
theorem opTable_codes_masks : ∀ r ∈ opTable,
    r.code &&& ~~~0xFF = 0#32 ∧ ~~~r.mask &&& ~~~0x00FF0300 = 0#32 := by decide

/-- A word whose masked bits are its row's has no set bit but in OPC and where the mask is open. -/
theorem open_bits_of_masked {w : Word} {r : OpRow} (hr : r ∈ opTable)
    (hm : w &&& r.mask = r.code) : w &&& (0x00FF0300 ||| 0xFF) &&& (~~~r.mask ||| 0xFF) = w := by
  obtain ⟨hcode, hopen⟩ := opTable_codes_masks r hr
  rw [← hm] at hcode
  refine BitVec.eq_of_getElem_eq fun i hi => ?_
  have hc := congrArg (·[i]) hcode
  have ho := congrArg (·[i]) hopen
  simp only [BitVec.getElem_and, BitVec.getElem_or, BitVec.getElem_not, BitVec.getElem_zero]
    at hc ho ⊢
  revert hc ho
  generalize w[i] = b, r.mask[i] = m, (0xFF : Word)[i] = l, (0x00FF0300 : Word)[i] = f
  revert b m l f
  decide

/-- The instruction that a row builds is encoded as the row's OPC and, of its fields, the bits that
the mask leaves open. -/
theorem encode_build {r : OpRow} (hr : r ∈ opTable) (t : Tgt) (imm : Byte) :
    encode (r.build t imm) = .opw (opwOf (opcField r.code) t imm &&& (~~~r.mask ||| 0xFF)) := by
  simp only [opTable, framerRows, handshakeRows, sequencerRows, streamerRows, rasterRows,
    composerRows, List.cons_append, List.nil_append] at hr
  have tgt_open : t.bits &&& 3#2 = t.bits := BitVec.and_allOnes
  have imm_open : imm &&& 255#8 = imm := BitVec.and_allOnes
  rw [Laws.RowMatch.opw_masked]
  fin_cases hr <;> simp [encode, opwOf, opcField, tgt_open, imm_open]

/-- Settles O10: every encoding has its row's OPC and masked bits, and its fields give the operands
back; the panel command bytes by evaluation. -/
theorem decodeOfEncodeIsTheInstruction : Obligations.DecodeOfEncodeIsTheInstruction := by
  intro i
  cases i with
  | nop => exact decode_opwOf rfl Laws.RowMatch.nop
  | select t => exact decode_opwOf rfl (Laws.RowMatch.select t)
  | deselect t => exact decode_opwOf rfl (Laws.RowMatch.deselect t)
  | sendCmd t c => exact decode_opwOf rfl (Laws.RowMatch.sendCmd t c)
  | sendData t => exact decode_opwOf rfl (Laws.RowMatch.sendData t)
  | sendFramed t c => exact decode_opwOf rfl (Laws.RowMatch.sendFramed t c)
  | waitReady => exact decode_opwOf rfl Laws.RowMatch.waitReady
  | reset => exact decode_opwOf rfl Laws.RowMatch.reset
  | configure => exact decode_opwOf rfl Laws.RowMatch.configure
  | init => exact decode_opwOf rfl Laws.RowMatch.init
  | powerOn => exact decode_opwOf rfl Laws.RowMatch.powerOn
  | refresh => exact decode_opwOf rfl Laws.RowMatch.refresh
  | powerOff => exact decode_opwOf rfl Laws.RowMatch.powerOff
  | sleep => exact decode_opwOf rfl Laws.RowMatch.sleep
  | displayUpdate => exact decode_opwOf rfl Laws.RowMatch.displayUpdate
  | beginFrame h => exact decode_opwOf rfl (Laws.RowMatch.beginFrame h)
  | writeLine h => exact decode_opwOf rfl (Laws.RowMatch.writeLine h)
  | endFrame h => exact decode_opwOf rfl (Laws.RowMatch.endFrame h)
  | fillLine k => exact decode_opwOf rfl (Laws.RowMatch.fillLine k)
  | glyphIndex ch => exact decode_opwOf rfl (Laws.RowMatch.glyphIndex ch)
  | glyphRow => exact decode_opwOf rfl Laws.RowMatch.glyphRow
  | stampGlyph => exact decode_opwOf rfl Laws.RowMatch.stampGlyph
  | clear k => exact decode_opwOf rfl (Laws.RowMatch.clear k)
  | splash => exact decode_opwOf rfl Laws.RowMatch.splash
  | wireLineWrite => rfl
  | wirePowerOn => rfl
  | wireDataRefresh => rfl
  | wirePowerOff => rfl
  | wireDeepSleep => rfl

/-- A word that decodes is the encoding of its instruction: its row's mask leaves no bit open that
the instruction does not hold. -/
theorem encode_of_decode {w : Word} {i : Instr} (h : decode w = .ok i) : encode i = .opw w := by
  obtain ⟨r, hrow, hm, rfl⟩ := decode_eq_ok.1 h
  obtain ⟨hr, ho⟩ := opRow?_eq_some.1 hrow
  rw [encode_build hr, ho, opwOf_fields, open_bits_of_masked hr hm]

theorem encode_of_decodePanel {b : Byte} {i : Instr} (h : decodePanel b = .ok i) :
    encode i = .panel b := by
  unfold decodePanel at h
  split at h <;> cases h
  all_goals
    rename_i hb
    exact congrArg Code.panel (BitVec.eq_of_toNat_eq hb.symm)

/-- Settles O11, for each of the two encodings. -/
theorem onlyTheEncodingDecodes : Obligations.OnlyTheEncodingDecodes := by
  intro c i h
  cases c with
  | opw w => exact encode_of_decode h
  | panel b => exact encode_of_decodePanel h

/-- Settles O12, word by word. -/
theorem specWordsDecodeAsWritten : Obligations.SpecWordsDecodeAsWritten :=
  ⟨rfl, rfl, rfl, rfl, rfl, rfl, rfl, rfl, rfl, rfl⟩

/-! ### Words that are illegal (R146) -/

/-- The OPC values of R146: those that no row of the map has. -/
abbrev isUnlistedOpc (n : Nat) : Prop :=
  n = 0x06 ∨ n = 0x07 ∨ (0x09 ≤ n ∧ n ≤ 0x0F) ∨ (0x18 ≤ n ∧ n ≤ 0x1F) ∨ (0x23 ≤ n ∧ n ≤ 0x2F) ∨
    (0x34 ≤ n ∧ n ≤ 0x3F) ∨ (0x42 ≤ n ∧ n ≤ 0xFF)

theorem not_isUnlistedOpc_of_mem :
    ∀ r ∈ opTable, ¬ isUnlistedOpc (opcField r.code).toNat := by decide

theorem decode_unlisted {w : Word} (h : isUnlistedOpc (opcField w).toNat) :
    decode w = .error (.unlistedOpcode (opcField w)) := by
  have hnone : opRow? (opcField w) = none := by
    refine List.find?_eq_none.2 fun r hr ho => not_isUnlistedOpc_of_mem r hr ?_
    rwa [eq_of_beq ho]
  simp [decode, hnone]

theorem decode_masked {w : Word} {r : OpRow} (hr : r ∈ opTable)
    (ho : opcField r.code = opcField w) (hm : w &&& r.mask ≠ r.code) :
    decode w = .error (.reservedField w) := by
  simp [decode, opRow?_eq_some.2 ⟨hr, ho⟩, hm]

namespace Machine

/-- An operation word that does not decode raises ILLEGAL_OP (R144). -/
theorem sequencerTurn_illegal {s : State} {rest : List Micro} {e : DecodeError}
    (h : s.run = true) (hs : s.seq = .start :: rest) (hd : decode s.op = .error e) :
    sequencerTurn s = .next (s.errorEntry .illegalOp) := by
  simp [sequencerTurn, h, hs, hd, raiseError]

/-- Settles O9: neither kind of word decodes. -/
theorem reservedEncodingsRaiseIllegalOp : Obligations.ReservedEncodingsRaiseIllegalOp := by
  intro s rest hrun hturns hseq hbad
  have hkind : isUnlistedOpc (opcField s.op).toNat ∨
      ∃ r ∈ opTable, opcField r.code = opcField s.op ∧ s.op &&& r.mask ≠ r.code := by
    simpa only [isUnlistedOpc, or_assoc] using hbad
  obtain ⟨e, hd⟩ : ∃ e, decode s.op = .error e := by
    rcases hkind with hopc | ⟨r, hr, ho, hm⟩
    · exact ⟨_, decode_unlisted hopc⟩
    · exact ⟨_, decode_masked hr ho hm⟩
  rw [step_noTurns hturns, sequencerTurn_illegal hrun hseq hd]

/-! ### Placing an instruction and running it (R49; log entry 7) -/

theorem step_sequencer {s : State} {ts : List Turn} (h : s.turns = .sequencer :: ts) :
    step s = sequencerTurn (s.withTurns ts) := by
  simp [step, takeTurn, h]

theorem decodeTableWord_eq_some {n w : Nat} {i : Instr} :
    decodeTableWord n w = some i ↔ decodeCode (tableCode n w) = .ok i := by
  unfold decodeTableWord
  cases decodeCode (tableCode n w) <;> simp

theorem tableCode_32 (w : Nat) : tableCode 32 w = .opw (BitVec.ofNat 32 w) := by
  simp only [tableCode, Nat.reduceLeDiff, if_false]
  exact congrArg Code.opw (BitVec.eq_of_toNat_eq (by simp))

theorem tableCode_8 (w : Nat) : tableCode 8 w = .panel (BitVec.ofNat 8 w) := rfl

/-- A placed operation word is the one that the next step decodes and executes. -/
theorem step_placeCode_opw (s : State) {v : Word} {i : Instr} (hd : decode v = .ok i) :
    step (s.placeCode (.opw v)) = exec i { s with op := v, run := true, seq := [] } :=
  (step_sequencer rfl).trans (sequencerTurn_start rfl rfl hd)

/-- A placed panel command byte is the one that the next step executes. -/
theorem step_placeCode_panel (s : State) {b : Byte} {i : Instr} (hd : decodePanel b = .ok i) :
    step (s.placeCode (.panel b)) = exec i { s with run := true, seq := [] } :=
  (step_sequencer rfl).trans (sequencerTurn_wire rfl rfl hd)

/-- Settles O8: which turn is taken, and then what the sequencer's move executes. -/
theorem stepRunsTheDecodedInstruction : Obligations.StepRunsTheDecodedInstruction := by
  refine ⟨?_, ?_, ?_, ?_, ?_⟩
  · intro s rest i hrun hturns hseq hd
    exact (step_noTurns hturns).trans (sequencerTurn_start hrun hseq hd)
  · intro s ts rest i hrun hturns hseq hd
    exact (step_sequencer hturns).trans (sequencerTurn_start hrun hseq hd)
  · intro s b rest i hrun hturns hseq hd
    exact (step_noTurns hturns).trans (sequencerTurn_wire hrun hseq hd)
  · intro s w i h
    rw [decodeTableWord_eq_some, tableCode_32] at h
    rw [State.withFetchWord, tableCode_32, step_placeCode_opw s h]
  · intro s w i h
    rw [decodeTableWord_eq_some, tableCode_8] at h
    rw [State.withFetchWord, tableCode_8, step_placeCode_panel s h]

/-! ### The panel commands (R155 to R160) -/

theorem Moving.plainEmit {s : State} (h : Moving s) (m : Micro) : Moving (plainEmit s m) :=
  ⟨by simpa using h.run, by simpa using h.turns⟩

/-- A plain item is one step: its event, and the assignments before the next event. -/
theorem RunsTo.settlePlainItem {s : State} (h : Moving s) {m : Micro} (hm : isPlain m = true)
    (r : List Micro) : RunsTo 1 (s.settle (m :: r)) ((plainEmit s m).settle r) := by
  have event (e : Event) (he : eventOf? m s = some e)
      (hsettle : s.settle (m :: r) = s.withSeq (m :: r)) :
      RunsTo 1 (s.settle (m :: r)) ((plainEmit s m).settle r) := by
    have h1 := RunsTo.event (s := s.withSeq (m :: r)) (e := e) h.turns h.run rfl
      (by rw [← he]; cases m <;> rfl)
    rw [hsettle, plainEmit, he]
    simpa using h1
  cases m with
  | setCS l v => exact event _ rfl rfl
  | tx k b => exact event _ rfl rfl
  | setRST v => exact event _ rfl rfl
  | setPWR v => exact event _ rfl rfl
  | delay ms => exact event _ rfl rfl
  | _ => simp [isPlain] at hm

/-- A list of plain items takes one step each. -/
theorem RunsTo.settlePlain (p : List Micro) {s : State} (h : Moving s)
    (hp : p.all isPlain = true) (r : List Micro) :
    RunsTo p.length (s.settle (p ++ r)) ((p.foldl plainEmit s).settle r) := by
  induction p generalizing s with
  | nil => exact RunsTo.refl _
  | cons m p ih =>
    obtain ⟨hm, hp⟩ : isPlain m = true ∧ p.all isPlain = true := by simpa using hp
    have h1 := (RunsTo.settlePlainItem h hm (p ++ r)).trans (ih (h.plainEmit m) hp)
    rwa [Nat.add_comm] at h1

/-- What a frame to both halves leaves, its events emitted one after another (R271). -/
theorem foldl_plainEmit_frameBoth (c : Byte) (bs : List Byte) (s : State) :
    (frameBoth c bs).foldl plainEmit s = s.framed c bs := by
  simp only [frameBoth, List.foldl_append, List.foldl_cons, List.foldl_nil, foldl_plainEmit_data]
  simp [plainEmit, eventOf?, State.emit, State.framed, frameBothEvents, dataEvents]

/-- A frame to both halves and a busy wait that the panel answers. -/
theorem Reaches.settleFrameWait {s : State} (h : Moving s) (c : Byte) (bs : List Byte) {k : Nat}
    {rest : List Bool} (ha : answersAfter s k rest) (r : List Micro) :
    Reaches (s.settle (Machine.frameBoth c bs ++ .waitReady :: r))
      (((s.framed c bs).polled rest true k (waitEvents k)).settle r) :=
  (Reaches.settleFrame h c bs (.waitReady :: r)).trans (Reaches.settleWait (h.framed c bs) ha r)

/-- Settles O57: each command puts plain items, or a frame and a busy wait, before the rest. -/
theorem panelCommandsFrameTheirBytes : Obligations.PanelCommandsFrameTheirBytes := by
  intro s ⟨hrun, hturns⟩
  have h : Moving s := ⟨hrun, hturns⟩
  refine ⟨⟨_, rfl, ?_⟩, ⟨_, rfl, ?_⟩, ⟨_, rfl, ?_⟩, fun k rest ha => ⟨⟨_, rfl, ?_⟩, ⟨_, rfl, ?_⟩⟩⟩
  · exact RunsTo.settlePlain [.tx .cmd 0x10] h rfl s.seq
  · have h4 := RunsTo.settlePlain (frameBoth 0x02 [0x00]) h rfl s.seq
    rwa [foldl_plainEmit_frameBoth] at h4
  · have h5 := RunsTo.settlePlain (frameBoth 0x07 [0xA5] ++ [.delay tSleep]) h rfl s.seq
    rwa [List.foldl_append, foldl_plainEmit_frameBoth] at h5
  · obtain ⟨n, hn⟩ := Reaches.settleFrameWait h 0x04 [] ha s.seq
    exact ⟨n, k, hn⟩
  · obtain ⟨n, hn⟩ := Reaches.settleFrameWait h 0x12 [0x00] ha s.seq
    exact ⟨n, k, hn⟩

end Machine
end Sys2Proof
end

section
/-! SUPPORT. The command framer (spec/40_framer.md): each check of R200 as an equation, the length
operand, the bytes of PAYLOAD, and how an event list of plain items runs to its end. Then the
obligations about them, settled from these. -/

namespace Sys2Proof.Machine

/-! ### The checks (R200, R201, R203) -/

theorem linesOf?_eq_some_of_ne {t : Tgt} (h : t ≠ .none) : ∃ l, linesOf? t = some l := by
  cases t with
  | none => exact absurd rfl h
  | master => exact ⟨.m, rfl⟩
  | slave => exact ⟨.s, rfl⟩
  | both => exact ⟨.ms, rfl⟩

/-- The conflict check passes when the other half is deselected, and always for both lines. -/
theorem csConflict_eq_false_iff {l : Lines} {s : State} :
    csConflict l s = false ↔ (l = .m → s.csS = true) ∧ (l = .s → s.csM = true) := by
  cases l <;> simp [csConflict]

section
variable {α : Type} {t : Tgt} {arg : Option α} {prog : Lines → α → List Micro} {s : State}
  {l : Lines} {a : α}

theorem framerOp_badOperand (h : linesOf? t = none ∨ arg = none) :
    framerOp t arg prog s = .next (s.errorEntry .badOperand) := by
  rcases framerOp_cases t arg prog s with ⟨_, he⟩ | ⟨l, a, hl, ha, _⟩
  · exact he
  · simp [hl, ha] at h

theorem framerOp_sessionOpen (hl : linesOf? t = some l) (ha : arg = some a)
    (hs : s.session ≠ none) : framerOp t arg prog s = .next (s.errorEntry .sessionOpen) := by
  simp [framerOp, raiseError, hl, ha, Option.isSome_iff_ne_none.2 hs]

theorem framerOp_csConflict (hl : linesOf? t = some l) (ha : arg = some a) (hs : s.session = none)
    (hc : csConflict l s = true) : framerOp t arg prog s = .next (s.errorEntry .csConflict) := by
  simp [framerOp, raiseError, hl, ha, hs, hc]

/-- Both lines outside a session, whatever the chip-selects: the operation begins, and its first
event drives them low (R203). -/
theorem framerOp_bothLines {r : List Micro} (hl : linesOf? t = some .ms) (ha : arg = some a)
    (hs : s.session = none) (hp : prog .ms a = .setCS .ms false :: r) :
    ∃ u, framerOp t arg prog s = .next u ∧ u.seq.head? = some (.setCS .ms false) ∧
      u.run = s.run ∧ u.err = s.err := by
  refine ⟨_, framerOp_ok hl ha hs rfl, ?_⟩
  rw [hp]
  exact ⟨rfl, rfl, rfl⟩

end

theorem execDeselect_sessionOpen {t : Tgt} {l : Lines} {s : State} (hl : linesOf? t = some l)
    (hs : s.session ≠ none) : execDeselect t s = .next (s.errorEntry .sessionOpen) := by
  simp [execDeselect, raiseError, hl, Option.isSome_iff_ne_none.2 hs]

theorem execDeselect_ok {t : Tgt} {l : Lines} {s : State} (hl : linesOf? t = some l)
    (hs : s.session = none) : execDeselect t s = .next (s.load [.setCS l true]) := by
  simp [execDeselect, hl, hs]

/-! ### Answers that are no CS_CONFLICT -/

theorem next_errorEntry_ne (s : State) {c d : ErrCode} (h : c ≠ d) :
    (.next (s.errorEntry c) : Result) ≠ .next (s.errorEntry d) := by
  intro he
  have hcode := congrArg State.errcode (Host.Outcome.next.inj he)
  simp [h] at hcode

/-- An operation that has begun still has its position, which an error entry discards. -/
theorem next_load_ne_errorEntry {s : State} {l : Lines} {v : Bool} {r : List Micro} {c : ErrCode} :
    (.next (s.load (.setCS l v :: r)) : Result) ≠ .next (s.errorEntry c) := by
  intro he
  have hseq := congrArg State.seq (Host.Outcome.next.inj he)
  simp [State.load] at hseq

theorem framerOp_bothLines_ne_csConflict {α : Type} {t : Tgt} {arg : Option α}
    {prog : Lines → α → List Micro} {s : State} (hl : linesOf? t = some .ms)
    (hp : ∀ a, ∃ r, prog .ms a = .setCS .ms false :: r) :
    framerOp t arg prog s ≠ .next (s.errorEntry .csConflict) := by
  rcases framerOp_cases t arg prog s with ⟨_, h⟩ | ⟨l, a, hl', _, ⟨_, h⟩ | ⟨_, hc, _⟩ | ⟨_, _, h⟩⟩
  · exact h ▸ next_errorEntry_ne s (by decide)
  · exact h ▸ next_errorEntry_ne s (by decide)
  · cases hl.symm.trans hl'
    cases hc
  · cases hl.symm.trans hl'
    obtain ⟨r, hr⟩ := hp a
    rw [h, hr]
    exact next_load_ne_errorEntry

theorem execDeselect_ne_csConflict (t : Tgt) (s : State) :
    execDeselect t s ≠ .next (s.errorEntry .csConflict) := by
  by_cases ht : t = .none
  · subst ht
    exact next_errorEntry_ne s (by decide)
  · obtain ⟨l, hl⟩ := linesOf?_eq_some_of_ne ht
    by_cases hs : s.session = none
    · rw [execDeselect_ok hl hs]
      exact next_load_ne_errorEntry
    · rw [execDeselect_sessionOpen hl hs]
      exact next_errorEntry_ne s (by decide)

/-! ### The length operand and the payload (R143, R207) -/

theorem payloadLen?_eq_none_iff {w : Word} : payloadLen? w = none ↔
    w.extractLsb' 9 23 ≠ 0 ∨ 256 < (w.extractLsb' 0 9).toNat := by
  have hmax : payloadSize = 256 := rfl
  unfold payloadLen?
  rw [ite_eq_right_iff]
  simp [hmax, imp_iff_not_or]

theorem payloadLen?_ofNat {n : Nat} (hn : n ≤ 256) : payloadLen? (BitVec.ofNat 32 n) = some n := by
  have hlow : ((BitVec.ofNat 32 n).extractLsb' 0 9).toNat = n := by
    simp only [BitVec.extractLsb'_toNat, BitVec.toNat_ofNat, Nat.shiftRight_zero]
    omega
  have hhigh : (BitVec.ofNat 32 n).extractLsb' 9 23 = 0#23 := by
    refine BitVec.eq_of_toNat_eq ?_
    rw [BitVec.extractLsb'_toNat, BitVec.toNat_ofNat, Nat.shiftRight_eq_div_pow, BitVec.toNat_zero]
    omega
  simp [payloadLen?, payloadSize, hlow, hhigh, hn]

theorem payload_eq_map (s : State) (n : Nat) :
    s.payload n = (List.range n).map fun i => s.ram (0x100 + i) := by
  refine List.ext_getElem? fun i => ?_
  rw [State.payload, State.ramBytes_get]
  by_cases hi : i < n <;> simp [hi, payloadBase]

@[simp] theorem payload_length (s : State) (n : Nat) : (s.payload n).length = n :=
  s.ramBytes_length _ _

theorem payload_eq_nil_iff {s : State} {n : Nat} : s.payload n = [] ↔ n = 0 := by
  rw [← List.length_eq_zero_iff, payload_length]

/-! ### Running an event list of plain items to its end -/

theorem Moving.foldl_plainEmit {s : State} (h : Moving s) (p : List Micro) :
    Moving (p.foldl Machine.plainEmit s) := by
  induction p generalizing s with
  | nil => exact h
  | cons m p ih => exact ih (h.plainEmit m)

/-- An operation that loads plain items takes a step for each and one to complete. -/
theorem RunsTo.loadPlain {s : State} (h : Moving s) (p : List Micro)
    (hp : p.all isPlain = true) :
    RunsTo (p.length + 1) (s.load p) (p.foldl plainEmit s).complete := by
  have hitems := RunsTo.settlePlain p h hp []
  have hend := h.foldl_plainEmit p
  rw [List.append_nil] at hitems
  exact hitems.trans (RunsTo.done (s := (p.foldl plainEmit s).settle []) hend.turns hend.run rfl)

theorem all_isPlain_data (bs : List Byte) : (bs.map (Micro.tx .data)).all isPlain = true := by
  simp [isPlain]

/-- A chip-select event drives the lines of its set and no other (R110). -/
theorem plainEmit_setCS (s : State) (l : Lines) (v : Bool) : plainEmit s (.setCS l v) =
    { s with
      csM := if l.has .master then v else s.csM, csS := if l.has .slave then v else s.csS,
      trace := s.trace ++ [.setCS l v] } := by
  cases l <;> rfl

theorem plainEmit_cmd (s : State) (c : Byte) : plainEmit s (.tx .cmd c) =
    { s with dc := false, trace := s.trace ++ [.tx .cmd c s.csM s.csS] } := rfl

/-- The payload bytes of u sent from t, in order, at the levels of t. -/
theorem foldl_plainEmit_payload (u t : State) (n : Nat) :
    ((u.payload n).map (Micro.tx .data)).foldl plainEmit t =
      { t with
        dc := if n = 0 then t.dc else true,
        trace := t.trace ++ (List.range n).map fun i =>
          .tx .data (u.ram (0x100 + i)) t.csM t.csS } := by
  simp only [foldl_plainEmit_data, payload_eq_nil_iff, dataEvents]
  rw [payload_eq_map, List.map_map]
  rfl

/-! ### The obligations -/

/-- Settles O25: NOP has no checks and no events. -/
theorem nopOnlyCompletes : Obligations.NopOnlyCompletes := fun _ => rfl

/-- Settles O26: the checks pass, and the items of the event list run one step each. -/
theorem selectDeselectSendCmdComplete : Obligations.SelectDeselectSendCmdComplete := by
  intro s t l ⟨hrun, hturns⟩ hs hl
  have h : Moving s := ⟨hrun, hturns⟩
  refine ⟨fun hc => ?_, _, execDeselect_ok hl hs, ?_⟩
  · rw [← csConflict_eq_false_iff] at hc
    refine ⟨⟨_, framerOp_ok hl rfl hs hc, ?_⟩, fun c => ⟨_, framerOp_ok hl rfl hs hc, ?_⟩⟩
    · simpa [plainEmit_setCS, State.complete] using RunsTo.loadPlain h [.setCS l false] rfl
    · simpa [plainEmit_setCS, plainEmit_cmd, State.complete] using
        RunsTo.loadPlain h [.setCS l false, .tx .cmd c] rfl
  · simpa [plainEmit_setCS, State.complete] using RunsTo.loadPlain h [.setCS l true] rfl

/-- Settles O27: the same with the bytes of PAYLOAD after the select or the command byte. -/
theorem sendDataSendFramedComplete : Obligations.SendDataSendFramedComplete := by
  intro s t l c n ⟨hrun, hturns⟩ hs hl hc hn harg
  have h : Moving s := ⟨hrun, hturns⟩
  have hlen : payloadLen? s.arg0 = some n := harg ▸ payloadLen?_ofNat hn
  have hdata := all_isPlain_data (s.payload n)
  rw [← csConflict_eq_false_iff] at hc
  refine ⟨⟨_, framerOp_ok hl hlen hs hc, ?_⟩, ⟨_, framerOp_ok hl hlen hs hc, ?_⟩⟩
  · simpa [plainEmit_setCS, foldl_plainEmit_payload, State.complete] using
      RunsTo.loadPlain h (.setCS l false :: (s.payload n).map (.tx .data)) hdata
  · simpa [plainEmit_setCS, plainEmit_cmd, foldl_plainEmit_payload, State.complete] using
      RunsTo.loadPlain h (.setCS l false :: .tx .cmd c :: (s.payload n).map (.tx .data)) hdata

/-- Settles O28: one check after another. -/
theorem framerChecksInOrder : Obligations.FramerChecksInOrder := by
  intro s t c
  simp only [← payloadLen?_eq_none_iff, List.forall_mem_cons, List.not_mem_nil, false_imp_iff,
    implies_true, and_true]
  refine ⟨?_, ?_, ?_, ?_, ?_, ?_, execDeselect_ne_csConflict t s⟩
  · rintro rfl
    exact ⟨rfl, rfl, rfl, rfl, rfl⟩
  · intro _ hbad
    exact ⟨framerOp_badOperand (.inr hbad), framerOp_badOperand (.inr hbad)⟩
  · intro ht hs
    obtain ⟨l, hl⟩ := linesOf?_eq_some_of_ne ht
    refine ⟨⟨execDeselect_sessionOpen hl hs, framerOp_sessionOpen hl rfl hs,
      framerOp_sessionOpen hl rfl hs⟩, fun hgood => ?_⟩
    obtain ⟨n, hn⟩ := Option.ne_none_iff_exists'.1 hgood
    exact ⟨framerOp_sessionOpen hl hn hs, framerOp_sessionOpen hl hn hs⟩
  · intro hs hother
    obtain ⟨l, hl, hc⟩ : ∃ l, linesOf? t = some l ∧ csConflict l s = true := by
      rcases hother with ⟨rfl, h⟩ | ⟨rfl, h⟩
      · exact ⟨.m, rfl, by simp [csConflict, h]⟩
      · exact ⟨.s, rfl, by simp [csConflict, h]⟩
    refine ⟨⟨framerOp_csConflict hl rfl hs hc, framerOp_csConflict hl rfl hs hc⟩, fun hgood => ?_⟩
    obtain ⟨n, hn⟩ := Option.ne_none_iff_exists'.1 hgood
    exact ⟨framerOp_csConflict hl hn hs hc, framerOp_csConflict hl hn hs hc⟩
  · intro ht hs
    have hl : linesOf? t = some .ms := ht ▸ rfl
    refine ⟨⟨framerOp_bothLines hl rfl hs rfl, framerOp_bothLines hl rfl hs rfl⟩, fun hgood => ?_⟩
    obtain ⟨n, hn⟩ := Option.ne_none_iff_exists'.1 hgood
    exact ⟨framerOp_bothLines hl hn hs rfl, framerOp_bothLines hl hn hs rfl⟩
  · intro ht
    have hl : linesOf? t = some .ms := ht ▸ rfl
    exact ⟨framerOp_bothLines_ne_csConflict hl fun _ => ⟨_, rfl⟩,
      framerOp_bothLines_ne_csConflict hl fun _ => ⟨_, rfl⟩,
      framerOp_bothLines_ne_csConflict hl fun _ => ⟨_, rfl⟩,
      framerOp_bothLines_ne_csConflict hl fun _ => ⟨_, rfl⟩⟩

end Sys2Proof.Machine
end

section
/-! SUPPORT. The busy-line handshake (spec/41_handshake.md): each item of the loop of wait_ready as an
equation of step, and the states of a wait that the panel does not answer. Then the obligations
about them, settled from these. -/

namespace Sys2Proof.Machine

/-! ### The busy sample (R115) -/

/-- The relation of the statements is what sampleBusy computes. -/
theorem sampleGives_iff {s t : State} {lvl : Bool} :
    sampleGives s lvl t ↔ s.sampleBusy = (lvl, t) := by
  unfold sampleGives State.sampleBusy
  cases s.busyIn with
  | nil => simp [eq_comm]
  | cons l r => simp [eq_comm]

theorem sampleBusy_withSeq (s : State) (q : List Micro) :
    (s.withSeq q).sampleBusy = (s.sampleBusy.1, s.sampleBusy.2.withSeq q) := by
  unfold State.sampleBusy
  cases h : s.busyIn <;> simp [h] <;> rfl

/-- A sample leaves the parameters, the count and the trace alone. -/
theorem sampleGives_keeps {s t : State} {lvl : Bool} (h : sampleGives s lvl t) :
    t.cfg = s.cfg ∧ t.hcount = s.hcount ∧ t.trace = s.trace := by
  rcases h with ⟨_, _, rfl⟩ | ⟨_, _, rfl⟩ <;> exact ⟨rfl, rfl, rfl⟩

/-! ### The items of the loop (R231 to R234) -/

/-- A counted 0 below the limit leads to the delay and the next iteration. -/
theorem pollAnswer_zero_below {s : State}
    (hl : ∀ n : ℕ+, s.cfg.busyPollLimit = some n → s.hcount + 1 < n) :
    pollAnswer false s =
      ((s.emit (.pollBusy false)).countPoll).withSeq (.delay tPoll :: .kick :: s.seq) := by
  have hlim : ¬ pollLimitReached (s.emit (.pollBusy false)).countPoll = true := by
    rw [pollLimitReached_iff]
    rintro ⟨n, hn, hle⟩
    exact absurd (hl n hn) (Nat.not_lt.2 hle)
  simp [pollAnswer, hlim]

/-- A counted 0 at the limit leads to the error entry, which discards the rest of the operation. -/
theorem pollAnswer_zero_limit {s : State} {n : ℕ+} (hn : s.cfg.busyPollLimit = some n)
    (hle : n ≤ s.hcount + 1) (rest : List Micro) :
    pollAnswer false (s.withSeq rest) =
      ((s.emit (.pollBusy false)).countPoll).errorEntry .handshakeTimeout := by
  have hlim : pollLimitReached ((s.withSeq rest).emit (.pollBusy false)).countPoll = true :=
    (pollLimitReached_iff _).2 ⟨n, hn, hle⟩
  calc pollAnswer false (s.withSeq rest)
    _ = ((s.withSeq rest).emit (.pollBusy false)).countPoll.errorEntry .handshakeTimeout := by
      simp only [pollAnswer, hlim, Bool.false_eq_true, if_false, if_true]
    _ = _ := State.errorEntry_withSeq (s.emit (.pollBusy false)).countPoll rest _

section
variable {s t : State} {rest : List Micro}

theorem step_waitReady (h : Moving s) (hs : s.seq = .waitReady :: rest) :
    step s = .next { s with hcount := 0, seq := .kick :: rest } :=
  (step_noTurns h.turns).trans (sequencerTurn_waitReady h.run hs)

theorem step_kick (h : Moving s) (hs : s.seq = .kick :: rest) :
    step s = .next { s with trace := s.trace ++ [.wdtKick], seq := .poll :: rest } :=
  (step_noTurns h.turns).trans (sequencerTurn_kick h.run hs)

theorem step_poll {lvl : Bool} (h : Moving s) (hs : s.seq = .poll :: rest)
    (hg : sampleGives s lvl t) : step s = .next (pollAnswer lvl (t.withSeq rest)) := by
  rw [step_noTurns h.turns, sequencerTurn_poll h.run hs, pollStep, sampleBusy_withSeq,
    sampleGives_iff.1 hg]

theorem step_poll_one (h : Moving s) (hs : s.seq = .poll :: rest) (hg : sampleGives s true t) :
    step s = .next { t with
      busys := true, trace := s.trace ++ [.pollBusy true], seq := .delay 20 :: rest } := by
  obtain ⟨-, -, htrace⟩ := sampleGives_keeps hg
  rw [step_poll h hs hg, ← htrace]
  rfl

theorem step_poll_zero_below (h : Moving s) (hs : s.seq = .poll :: rest)
    (hg : sampleGives s false t)
    (hl : ∀ n : ℕ+, s.cfg.busyPollLimit = some n → s.hcount + 1 < n) :
    step s = .next { t with
      busys := false, hcount := s.hcount + 1,
      trace := s.trace ++ [.pollBusy false], seq := .delay 10 :: .kick :: rest } := by
  obtain ⟨hcfg, hcount, htrace⟩ := sampleGives_keeps hg
  rw [← hcfg, ← hcount] at hl
  rw [step_poll h hs hg, pollAnswer_zero_below (s := t.withSeq rest) hl, ← hcount, ← htrace]
  rfl

theorem step_poll_zero_limit (h : Moving s) (hs : s.seq = .poll :: rest)
    (hg : sampleGives s false t) {n : ℕ+} (hn : s.cfg.busyPollLimit = some n)
    (hle : n ≤ s.hcount + 1) :
    step s = .next (State.errorEntry .handshakeTimeout { t with
      busys := false, hcount := s.hcount + 1, trace := s.trace ++ [.pollBusy false] }) := by
  obtain ⟨hcfg, hcount, htrace⟩ := sampleGives_keeps hg
  rw [← hcfg] at hn
  rw [← hcount] at hle
  rw [step_poll h hs hg, pollAnswer_zero_limit hn hle rest, ← hcount, ← htrace]
  rfl

theorem step_delay {ms : Nat} (h : Moving s) (hs : s.seq = .delay ms :: rest) :
    step s = .next (State.settle rest { s with trace := s.trace ++ [.delay ms] }) :=
  (step_noTurns h.turns).trans (sequencerTurn_event h.run hs rfl)

end

/-! ### WAIT_READY (R235) and its timeout (R420) -/

theorem execWaitReady_ok {s : State} (hs : s.session = none) :
    exec .waitReady s = .next (s.settle [.waitReady]) := by
  simp [exec, execWaitReady, State.load, hs]

/-- The error entry, field by field. -/
theorem errorEntry_eq (s : State) (c : ErrCode) :
    s.errorEntry c = { s with
      csM := true, csS := true, session := none,
      trace := s.trace ++ (if s.csM = false ∨ s.csS = false then [.setCS .ms true] else []),
      errcode := some c, errop := s.op, err := true, run := false, seq := [] } := by
  unfold State.errorEntry State.deselectAll State.anySelected
  cases hm : s.csM <;> cases hc : s.csS <;> simp [State.emit, hm, hc]

/-! ### A wait that the panel does not answer (R236) -/

/-- The events of j iterations whose samples read 0. -/
def unansweredRounds (j : Nat) : List Event :=
  (List.replicate j [.wdtKick, .pollBusy false, .delay 10]).flatten

theorem unansweredRounds_succ (j : Nat) :
    unansweredRounds (j + 1) = unansweredRounds j ++ [.wdtKick, .pollBusy false, .delay 10] := by
  simp [unansweredRounds, List.replicate_succ']

/-- v stands at the head of an iteration of WAIT_READY begun in s with no limit, after j samples that
read 0 and with `left` more scripted. -/
structure Unanswered (s : State) (j left : Nat) (v : State) : Prop where
  moving : Moving v
  err : v.err = s.err
  noLimit : v.cfg.busyPollLimit = none
  seq : v.seq = [.kick]
  busyIn : v.busyIn = List.replicate left false
  trace : v.trace = s.trace ++ unansweredRounds j

/-- The kick, the sample and the delay of one more iteration: the operation runs throughout. -/
theorem Unanswered.round {s v : State} {j left : Nat} (h : Unanswered s j (left + 1) v) :
    ∃ v1 v2 v3, step v = .next v1 ∧ step v1 = .next v2 ∧ step v2 = .next v3 ∧
      (v1.run = true ∧ v1.err = s.err) ∧ (v2.run = true ∧ v2.err = s.err) ∧
      Unanswered s (j + 1) left v3 := by
  obtain ⟨⟨hrun, hturns⟩, herr, hlim, hseq, hbusy, htrace⟩ := h
  have hbelow : ∀ n : ℕ+, v.cfg.busyPollLimit = some n → v.hcount + 1 < n :=
    fun n hn => nomatch hlim.symm.trans hn
  refine ⟨_, _, _, step_kick ⟨hrun, hturns⟩ hseq,
    step_poll_zero_below ⟨hrun, hturns⟩ rfl (.inl ⟨_, hbusy, rfl⟩) hbelow,
    step_delay ⟨hrun, hturns⟩ rfl, ⟨hrun, herr⟩, ⟨hrun, herr⟩,
    ⟨hrun, hturns⟩, herr, hlim, rfl, rfl, ?_⟩
  simp [unansweredRounds_succ, htrace]

/-- WAIT_READY clears HCOUNT and stands before its first iteration. -/
theorem Unanswered.begin {s : State} {m : Nat} (h : Moving s) (hl : s.cfg.busyPollLimit = none)
    (hb : s.busyIn = List.replicate m false) :
    ∃ v, RunsTo 1 (s.settle [.waitReady]) v ∧ Unanswered s 0 m v :=
  ⟨_, RunsTo.head (step_waitReady (s := s.settle [.waitReady]) ⟨h.run, h.turns⟩ rfl) (RunsTo.refl _),
    ⟨h.run, h.turns⟩, rfl, hl, rfl, hb, (List.append_nil _).symm⟩

/-- j iterations take 3j steps. -/
theorem Unanswered.rounds {s : State} (j : Nat) {m : Nat} (h : Moving s)
    (hl : s.cfg.busyPollLimit = none) (hb : s.busyIn = List.replicate m false) (hj : j ≤ m) :
    ∃ v, RunsTo (1 + 3 * j) (s.settle [.waitReady]) v ∧ Unanswered s j (m - j) v := by
  induction j with
  | zero => exact Unanswered.begin h hl hb
  | succ j ih =>
    obtain ⟨v, hv, hunanswered⟩ := ih (by omega)
    rw [show m - j = m - (j + 1) + 1 by omega] at hunanswered
    obtain ⟨v1, v2, v3, hstep1, hstep2, hstep3, -, -, hnext⟩ := hunanswered.round
    exact ⟨v3, hv.trans (.head hstep1 (.head hstep2 (.head hstep3 (.refl v3)))), hnext⟩

/-- Within an iteration the operation runs. -/
theorem Unanswered.running {s v : State} {j left i : Nat} (h : Unanswered s j (left + 1) v)
    (hi : i < 3) : ∃ w, RunsTo i v w ∧ w.run = true ∧ w.err = s.err := by
  obtain ⟨v1, v2, _, hstep1, hstep2, -, hv1, hv2, -⟩ := h.round
  match i, hi with
  | 0, _ => exact ⟨v, .refl v, h.moving.run, h.err⟩
  | 1, _ => exact ⟨v1, .head hstep1 (.refl v1), hv1⟩
  | 2, _ => exact ⟨v2, .head hstep1 (.head hstep2 (.refl v2)), hv2⟩

/-! ### The obligations -/

/-- Settles O29: each clause is the step equation of its item. -/
theorem everyWaitFollowsTheLoop : Obligations.EveryWaitFollowsTheLoop := by
  intro s rest ⟨hrun, hturns⟩
  have h : Moving s := ⟨hrun, hturns⟩
  refine ⟨step_waitReady h, step_kick h, fun hs => ⟨fun t => step_poll_one h hs, fun t hg => ?_, ?_⟩,
    fun ms => step_delay h⟩
  · exact ⟨step_poll_zero_below h hs hg, fun n => step_poll_zero_limit h hs hg⟩
  · exact ⟨_, _, sampleGives_iff.2 rfl⟩

/-- Settles O30: the answered wait, and then nothing is left but to complete. -/
theorem waitReadyPollsUntilReady : Obligations.WaitReadyPollsUntilReady := by
  intro s k rest ⟨hrun, hturns⟩ hs ha
  have h : Moving s := ⟨hrun, hturns⟩
  obtain ⟨n, hn⟩ := (Reaches.settleWait h ha []).trans
    (Reaches.settleFin (h.polled rest true k (waitEvents k)))
  exact ⟨_, execWaitReady_ok hs, n, k, hn⟩

/-- Settles O31: the unanswered samples up to the limit, and then the error entry field by field. -/
theorem waitReadyTimesOut : Obligations.WaitReadyTimesOut := by
  intro s n rest ⟨hrun, hturns⟩ hs hlim hb
  obtain ⟨m, hm⟩ := Reaches.settleTimeout ⟨hrun, hturns⟩ hlim hb []
  refine ⟨_, execWaitReady_ok hs, m, n, ?_⟩
  rw [errorEntry_eq] at hm
  simpa [State.polled, hs] using hm

/-- Settles O32: after the step that clears HCOUNT, three steps for each iteration; a number of steps
up to 3m ends within one of the first m. -/
theorem unansweredWaitNeverCompletes : Obligations.UnansweredWaitNeverCompletes := by
  intro s m ⟨hrun, hturns⟩ hs hlim hb
  have h : Moving s := ⟨hrun, hturns⟩
  refine ⟨_, execWaitReady_ok hs, fun n hn => ?_, fun j hj => ?_⟩
  · cases n with
    | zero => exact ⟨_, .refl _, hrun, rfl⟩
    | succ n =>
      obtain ⟨v, hv, hunanswered⟩ := Unanswered.rounds (n / 3) h hlim hb (by omega)
      rw [show m - n / 3 = m - n / 3 - 1 + 1 by omega] at hunanswered
      obtain ⟨w, hw, hrunning⟩ := hunanswered.running (Nat.mod_lt n (by decide : 3 > 0))
      have hsteps := hv.trans hw
      rw [show 1 + 3 * (n / 3) + n % 3 = n + 1 by omega] at hsteps
      exact ⟨w, hsteps, hrunning⟩
  · obtain ⟨v, hv, hunanswered⟩ := Unanswered.rounds j h hlim hb hj
    exact ⟨v, hv, hunanswered.moving.run, hunanswered.trace⟩

end Sys2Proof.Machine
end

section
/-! SUPPORT. The init/power sequencer (spec/42_sequencer.md): its checks, the configuration list cut
into runs, and what power_on() and refresh() leave. Then the obligations about them, settled from
these. -/

namespace Sys2Proof.Machine

/-! ### The checks (R250) -/

theorem seqChecked_sessionOpen {s : State} (ok : Result) (hs : s.session ≠ none) :
    seqChecked s ok = .next (s.errorEntry .sessionOpen) := by
  simp [seqChecked, raiseError, Option.isSome_iff_ne_none, hs]

theorem seqChecked_csConflict {s : State} (ok : Result) (hs : s.session = none)
    (hsel : s.csM = false ∨ s.csS = false) :
    seqChecked s ok = .next (s.errorEntry .csConflict) := by
  simp [seqChecked, raiseError, State.anySelected, hs, hsel]

theorem seqOp_ok {s : State} {prog : List Micro} (hs : s.session = none) (hm : s.csM = true)
    (hc : s.csS = true) : seqOp prog s = .next (s.settle prog) := seqChecked_ok hs hm hc

/-- Every operation of the sequencer is one that makes these checks first. -/
theorem exec_eq_seqChecked (s : State) : ∀ i ∈ ([.reset, .configure, .init, .powerOn, .refresh,
    .powerOff, .sleep, .displayUpdate] : List Instr), ∃ ok, exec i s = seqChecked s ok := by
  simp only [List.forall_mem_cons, List.not_mem_nil, false_imp_iff, implies_true, and_true]
  exact ⟨⟨_, rfl⟩, ⟨_, rfl⟩, ⟨_, rfl⟩, ⟨_, rfl⟩, ⟨_, rfl⟩, ⟨_, rfl⟩, ⟨_, rfl⟩, ⟨_, rfl⟩⟩

/-! ### The end of an operation -/

/-- After the last event LIFE is set, and the operation completes. -/
theorem Reaches.settleSetLife {s : State} (h : Moving s) (l : Life) :
    Reaches (s.settle [.act (.setLife l)]) { s with life := l, run := false, seq := [] } :=
  Reaches.settleFin (h.applyAct (.setLife l))

/-! ### The power pin and the reset train (R270, R251) -/

/-- The state after the power pin, when there is one, is driven to 1. -/
def State.powered (s : State) : State :=
  { s with
    pwrl := s.cfg.hasPwr || s.pwrl,
    trace := s.trace ++ if s.cfg.hasPwr then [.setPWR true] else [] }

theorem Reaches.settlePower {s : State} (h : Moving s) (r : List Micro) :
    Reaches (s.settle ((if s.cfg.hasPwr then [.setPWR true] else []) ++ r))
      (s.powered.settle r) := by
  cases hpin : s.cfg.hasPwr with
  | false => simpa [State.powered, hpin] using Reaches.refl (s.settle r)
  | true =>
    simpa [State.powered, State.emit, hpin] using
      Reaches.settleEvent (m := .setPWR true) h rfl r

/-- The state after LIFE <- Resetting and the ten events of the train (R252). -/
def State.afterReset (s : State) : State :=
  { s with life := .resetting, rstl := true, trace := s.trace ++ resetTrainEvents }

theorem foldl_plainEmit_resetTrain (s : State) :
    resetTrain.foldl plainEmit (s.applyAct (.setLife .resetting)) = s.afterReset := by
  simp [resetTrain, plainEmit, eventOf?, State.emit, State.applyAct, State.afterReset,
    resetTrainEvents, tRstPhase]

theorem Reaches.settleReset {s : State} (h : Moving s) (r : List Micro) :
    Reaches (s.settle (.act (.setLife .resetting) :: (resetTrain ++ r))) (s.afterReset.settle r) :=
  ⟨_, foldl_plainEmit_resetTrain s ▸ RunsTo.settlePlain resetTrain (h.applyAct _) rfl r⟩

/-! ### The configuration list (R254): the table as runs of equal grp -/

/-- A run of entries of equal grp ends where grp changes, and the events are cut there. -/
theorem configureEvents_cut (g : Bool) (table : List ConfigEntry) :
    configureEvents table = configureEvents (table.takeWhile (·.grp == g)) ++
      configureEvents (table.dropWhile (·.grp == g)) := by
  have hcut : ∀ a ∈ (table.takeWhile (·.grp == g)).getLast?,
      ∀ b ∈ (table.dropWhile (·.grp == g)).head?, (a.grp == b.grp) = false := by
    intro a ha b hb
    have hrun := List.mem_takeWhile_imp (List.mem_of_mem_getLast? ha)
    have hrest := List.head?_dropWhile_not (fun e : ConfigEntry => e.grp == g) table
    rw [Option.mem_def.1 hb] at hrest
    rwa [beq_iff_eq.1 hrun, BEq.comm]
  conv_lhs => rw [← List.takeWhile_append_dropWhile (p := (·.grp == g)) (l := table)]
  rw [configureEvents, List.splitBy_append hcut, List.flatMap_append]
  rfl

/-- Entries of equal grp are one run. -/
theorem splitBy_grp_eq_singleton {g : Bool} {run : List ConfigEntry} (hne : run ≠ [])
    (hrun : ∀ e ∈ run, e.grp = g) : run.splitBy (fun a b => a.grp == b.grp) = [run] :=
  List.splitBy_of_isChain hne (List.Pairwise.isChain
    (List.pairwise_of_forall_mem_list fun a ha b hb => by simp [hrun a ha, hrun b hb]))

theorem configureEvents_ungrouped {run : List ConfigEntry} (hrun : ∀ e ∈ run, e.grp = false) :
    configureEvents run = run.flatMap fun e => frameBothEvents e.cmd e.payload := by
  rcases eq_or_ne run [] with rfl | hne
  · rfl
  · have hany : ¬ run.any (·.grp) = true := by simpa using hrun
    rw [configureEvents, splitBy_grp_eq_singleton hne hrun, List.flatMap_singleton, if_neg hany]

theorem configureEvents_grouped {run : List ConfigEntry} (hne : run ≠ [])
    (hrun : ∀ e ∈ run, e.grp = true) : configureEvents run =
      [.setCS .m false] ++ run.flatMap groupedEntryEvents ++ [.setCS .m true] := by
  obtain ⟨e, he⟩ := List.exists_mem_of_ne_nil run hne
  have hany : run.any (·.grp) = true := List.any_eq_true.2 ⟨e, he, hrun e he⟩
  rw [configureEvents, splitBy_grp_eq_singleton hne hrun, List.flatMap_singleton, if_pos hany]

theorem grp_of_mem_takeWhile {g : Bool} {table : List ConfigEntry} :
    ∀ e ∈ table.takeWhile (·.grp == g), e.grp = g :=
  fun _ he => by simpa using List.mem_takeWhile_imp he

/-- The events of configure() from a point of CONFIG_TABLE that is inside a master-only group or not:
inside one, the rest of the group, its deselect, and then the rest of the table. -/
def configureEventsFrom : (inGroup : Bool) → List ConfigEntry → List Event
  | false, table => configureEvents table
  | true, table =>
    (table.takeWhile (·.grp == true)).flatMap groupedEntryEvents ++
      .setCS .m true :: configureEvents (table.dropWhile (·.grp == true))

section
variable {e : ConfigEntry} {es : List ConfigEntry}

/-- An ungrouped entry is framed by itself. -/
theorem configureEvents_cons_ungrouped (he : e.grp = false) :
    configureEvents (e :: es) = frameBothEvents e.cmd e.payload ++ configureEvents es := by
  rw [configureEvents_cut false (e :: es), configureEvents_cut false es,
    configureEvents_ungrouped grp_of_mem_takeWhile, configureEvents_ungrouped grp_of_mem_takeWhile]
  simp [he]

/-- A grouped entry outside a group begins one. -/
theorem configureEvents_cons_grouped (he : e.grp = true) :
    configureEvents (e :: es) =
      .setCS .m false :: (groupedEntryEvents e ++ configureEventsFrom true es) := by
  rw [configureEvents_cut true (e :: es),
    configureEvents_grouped (by simp [he]) grp_of_mem_takeWhile]
  simp [he, configureEventsFrom]

/-- Inside a group a grouped entry is sent under the assertion that stands. -/
theorem configureEventsFrom_group_grouped (he : e.grp = true) :
    configureEventsFrom true (e :: es) = groupedEntryEvents e ++ configureEventsFrom true es := by
  simp [configureEventsFrom, he]

/-- Inside a group an ungrouped entry ends it. -/
theorem configureEventsFrom_group_ungrouped (he : e.grp = false) :
    configureEventsFrom true (e :: es) = .setCS .m true :: configureEvents (e :: es) := by
  simp [configureEventsFrom, he]

end

/-- The plain items p, carried out from s, add exactly the events es and leave both lines high and
everything else but DC as it was. -/
def SendsToIdle (s : State) (p : List Micro) (es : List Event) : Prop :=
  ∃ d, p.foldl plainEmit s =
    { s with csM := true, csS := true, dc := d, trace := s.trace ++ es }

section
variable {s : State} {p : List Micro} {es : List Event}

theorem SendsToIdle.nil (hm : s.csM = true) (hc : s.csS = true) : SendsToIdle s [] [] :=
  ⟨s.dc, by cases s; simp_all⟩

theorem SendsToIdle.setCS {v : Bool} (h : SendsToIdle (plainEmit s (.setCS .m v)) p es) :
    SendsToIdle s (.setCS .m v :: p) (.setCS .m v :: es) := by
  obtain ⟨d, hd⟩ := h
  exact ⟨d, by simpa [plainEmit_setCS] using hd⟩

theorem SendsToIdle.frameBoth {c : Byte} {bs : List Byte} (h : SendsToIdle (s.framed c bs) p es) :
    SendsToIdle s (Machine.frameBoth c bs ++ p) (frameBothEvents c bs ++ es) := by
  obtain ⟨d, hd⟩ := h
  refine ⟨d, ?_⟩
  rw [List.foldl_append, foldl_plainEmit_frameBoth, hd]
  simp [State.framed]

/-- The bytes of an entry under the master-only assertion, whatever DC they leave. -/
theorem SendsToIdle.entry {e : ConfigEntry} (hm : s.csM = false) (hc : s.csS = true)
    (h : ∀ d, SendsToIdle { s with dc := d, trace := s.trace ++ groupedEntryEvents e } p es) :
    SendsToIdle s (entryBytes e ++ p) (groupedEntryEvents e ++ es) := by
  have hbytes : (entryBytes e).foldl plainEmit s =
      { s with
        dc := if e.payload = [] then false else true,
        trace := s.trace ++ groupedEntryEvents e } := by
    rw [entryBytes, List.foldl_cons, plainEmit_cmd, foldl_plainEmit_data]
    simp [dataEvents, groupedEntryEvents, hm, hc]
  obtain ⟨d, hd⟩ := h (if e.payload = [] then false else true)
  refine ⟨d, ?_⟩
  rw [List.foldl_append, hbytes, hd]
  simp

end

/-- configure() from any point of the table, at the levels that stand there. -/
theorem sendsToIdle_configureFrom (inGroup : Bool) (table : List ConfigEntry) {s : State}
    (hm : s.csM = !inGroup) (hc : s.csS = true) :
    SendsToIdle s (configureFrom inGroup table) (configureEventsFrom inGroup table) := by
  fun_induction configureFrom inGroup table generalizing s with
  | case1 => exact .nil hm hc
  | case2 => exact .setCS (.nil rfl hc)
  | case3 e es hg ih =>
    rw [configureEventsFrom, configureEvents_cons_grouped hg]
    exact .setCS (.entry rfl hc fun _ => ih rfl hc)
  | case4 e es hg ih =>
    rw [configureEventsFrom, configureEvents_cons_ungrouped (Bool.eq_false_of_not_eq_true hg)]
    exact .frameBoth (ih rfl rfl)
  | case5 e es hg ih =>
    rw [configureEventsFrom_group_grouped hg]
    exact .entry hm hc fun _ => ih hm hc
  | case6 e es hg ih =>
    have hg := Bool.eq_false_of_not_eq_true hg
    rw [configureEventsFrom_group_ungrouped hg, configureEvents_cons_ungrouped hg]
    exact .setCS (.frameBoth (ih rfl rfl))

theorem all_isPlain_frameBoth (c : Byte) (bs : List Byte) :
    (frameBoth c bs).all isPlain = true := by
  simp [frameBoth, isPlain]

theorem all_isPlain_entryBytes (e : ConfigEntry) : (entryBytes e).all isPlain = true := by
  simp [entryBytes, isPlain]

theorem all_isPlain_configureFrom (inGroup : Bool) (table : List ConfigEntry) :
    (configureFrom inGroup table).all isPlain = true := by
  fun_induction configureFrom inGroup table <;>
    simp_all [all_isPlain_frameBoth, all_isPlain_entryBytes, isPlain]

/-- configure() from the idle levels, and the assignment of LIFE after it (R254, R255). -/
theorem Reaches.settleConfigure {s : State} (h : Moving s) (hm : s.csM = true) (hc : s.csS = true) :
    ∃ d, Reaches (s.settle (configureProg s ++ [.act (.setLife .initialized)]))
      { s with
        life := .initialized, dc := d, trace := s.trace ++ configureEvents s.cfg.configTable,
        run := false, seq := [] } := by
  obtain ⟨d, hd⟩ := sendsToIdle_configureFrom false s.cfg.configTable hm hc
  have hitems := RunsTo.settlePlain (configureProg s) h (all_isPlain_configureFrom _ _)
    [.act (.setLife .initialized)]
  have hend := Reaches.settleSetLife (h.foldl_plainEmit (configureProg s)) .initialized
  refine ⟨d, ?_⟩
  simpa [configureProg, hd, hm, hc, configureEventsFrom] using Reaches.trans ⟨_, hitems⟩ hend

/-! ### power_on() and refresh() (R258, R260) -/

/-- The state after power_on() with k busy answers, `rest` scripted beyond its wait. -/
def State.poweredOn (s : State) (k : Nat) (rest : List Bool) : State :=
  { s with
    busyIn := rest, busys := true, hcount := k, csM := true, csS := true, dc := false,
    trace := s.trace ++ powerOnEvents k }

/-- The state after refresh() with k busy answers, `rest` scripted beyond its wait. -/
def State.refreshed (s : State) (k : Nat) (rest : List Bool) : State :=
  { s with
    busyIn := rest, busys := true, hcount := k, csM := true, csS := true, dc := true,
    trace := s.trace ++ refreshEvents k }

theorem Moving.poweredOn {s : State} (h : Moving s) (k : Nat) (rest : List Bool) :
    Moving (s.poweredOn k rest) := ⟨h.run, h.turns⟩
theorem Moving.refreshed {s : State} (h : Moving s) (k : Nat) (rest : List Bool) :
    Moving (s.refreshed k rest) := ⟨h.run, h.turns⟩

section
variable {s : State} (h : Moving s)
include h

theorem Reaches.settlePowerOn {k : Nat} {rest : List Bool} (ha : answersAfter s k rest)
    (r : List Micro) : Reaches (s.settle (powerOnProg ++ r)) ((s.poweredOn k rest).settle r) := by
  have hstate : s.poweredOn k rest = (s.framed 0x04 []).polled rest true k (waitEvents k) := by
    simp [State.poweredOn, State.framed, State.polled, powerOnEvents]
  rw [hstate]
  exact (Reaches.settlePanel (b := 0x04) (i := .wirePowerOn) h rfl r).trans
    (Reaches.settleFrameWait h 0x04 [] ha r)

/-- refresh() up to its wait. -/
theorem Reaches.settleRefreshFrame (r : List Micro) :
    Reaches (s.settle (refreshProg ++ r))
      (((s.emit (.delay 50)).framed 0x12 [0x00]).settle (.waitReady :: .wire 0x02 :: r)) := by
  have hd := h.emit (.delay 50)
  exact (Reaches.settleEvent (m := .delay 50) h rfl _).trans
    ((Reaches.settlePanel (b := 0x12) (i := .wireDataRefresh) hd rfl _).trans
      (Reaches.settleFrame hd 0x12 [0x00] _))

theorem Reaches.settleRefresh {k : Nat} {rest : List Bool} (ha : answersAfter s k rest)
    (r : List Micro) : Reaches (s.settle (refreshProg ++ r)) ((s.refreshed k rest).settle r) := by
  have hf := (h.emit (.delay 50)).framed 0x12 [0x00]
  have hw := hf.polled rest true k (waitEvents k)
  have hrun := (Reaches.settleRefreshFrame h r).trans ((Reaches.settleWait hf ha _).trans
    ((Reaches.settlePanel (b := 0x02) (i := .wirePowerOff) hw rfl r).trans
      (Reaches.settleFrame hw 0x02 [0x00] r)))
  simpa [State.refreshed, State.framed, State.polled, State.emit, refreshEvents] using hrun

end

/-! ### The obligations -/

/-- Settles O33: each of the operations makes the checks, in their order. -/
theorem sequencerChecksInOrder : Obligations.SequencerChecksInOrder := by
  intro s i hi
  obtain ⟨ok, hexec⟩ := exec_eq_seqChecked s i hi
  rw [hexec]
  exact ⟨seqChecked_sessionOpen ok, seqChecked_csConflict ok⟩

/-- Settles O34: the assignment of LIFE is made before the first event, and then the ten events run
one step each. -/
theorem resetRunsThePulseTrain : Obligations.ResetRunsThePulseTrain := by
  intro s ⟨hrun, hturns⟩ hs hm hc
  have hload := RunsTo.loadPlain (s := s.applyAct (.setLife .resetting)) ⟨hrun, hturns⟩
    resetTrain rfl
  rw [foldl_plainEmit_resetTrain] at hload
  exact ⟨_, seqOp_ok hs hm hc, rfl, rfl, hload⟩

/-- Settles O35: the checks pass, and configure() runs from the idle levels. -/
theorem configureSendsTheTable : Obligations.ConfigureSendsTheTable := by
  intro s ⟨hrun, hturns⟩ hs hm hc
  obtain ⟨d, n, hn⟩ := Reaches.settleConfigure ⟨hrun, hturns⟩ hm hc
  exact ⟨_, seqOp_ok hs hm hc, n, d, hn⟩

/-- Settles O36: the power pin when there is one, the reset train, and then as CONFIGURE. -/
theorem initPowersResetsAndConfigures : Obligations.InitPowersResetsAndConfigures := by
  intro s ⟨hrun, hturns⟩ hs hm hc
  obtain ⟨d, hconfigure⟩ :=
    Reaches.settleConfigure (s := s.powered.afterReset) ⟨hrun, hturns⟩ hm hc
  obtain ⟨n, hn⟩ := (Reaches.settlePower ⟨hrun, hturns⟩ _).trans
    ((Reaches.settleReset (s := s.powered) ⟨hrun, hturns⟩ _).trans hconfigure)
  refine ⟨_, seqOp_ok hs hm hc, n, d, ?_⟩
  simpa [State.powered, State.afterReset, configureProg] using hn

/-- Settles O37: one panel command each, and the assignment of LIFE after the second. -/
theorem powerOffAndSleepComplete : Obligations.PowerOffAndSleepComplete := by
  intro s ⟨hrun, hturns⟩ hs hm hc
  have h : Moving s := ⟨hrun, hturns⟩
  have hframed := h.framed 0x07 [0xA5]
  obtain ⟨n, hoff⟩ := (Reaches.settlePanel (b := 0x02) (i := .wirePowerOff) h rfl []).trans
    ((Reaches.settleFrame h 0x02 [0x00] []).trans (Reaches.settleFin (h.framed 0x02 [0x00])))
  obtain ⟨m, hsleep⟩ := (Reaches.settlePanel (b := 0x07) (i := .wireDeepSleep) h rfl _).trans
    ((Reaches.settleFrame h 0x07 [0xA5] _).trans
      ((Reaches.settleEvent (m := .delay 100) hframed rfl _).trans
        (Reaches.settleSetLife (hframed.emit _) .sleeping)))
  refine ⟨⟨_, seqOp_ok hs hm hc, n, ?_⟩, ⟨_, seqOp_ok hs hm hc, m, ?_⟩⟩
  · simpa [State.framed, State.complete, hm, hc] using hoff
  · simpa [State.framed, State.emit, hm, hc] using hsleep

/-- Settles O38: power_on(), and then nothing is left but to complete. -/
theorem powerOnFramesAndWaits : Obligations.PowerOnFramesAndWaits := by
  intro s k rest ⟨hrun, hturns⟩ hs hm hc ha
  have h : Moving s := ⟨hrun, hturns⟩
  obtain ⟨n, hn⟩ := (Reaches.settlePowerOn h ha []).trans (Reaches.settleFin (h.poweredOn k rest))
  refine ⟨_, seqOp_ok hs hm hc, n, k, ?_⟩
  simpa [State.poweredOn, State.complete, hm, hc] using hn

/-- Settles O39: refresh(), and the assignment of LIFE after it. -/
theorem refreshWaitsOnceThenPowersOff : Obligations.RefreshWaitsOnceThenPowersOff := by
  intro s k rest ⟨hrun, hturns⟩ hs hm hc ha
  have h : Moving s := ⟨hrun, hturns⟩
  obtain ⟨n, hn⟩ := (Reaches.settleRefresh h ha _).trans
    (Reaches.settleSetLife (h.refreshed k rest) .displaying)
  refine ⟨_, seqOp_ok hs hm hc, n, k, ?_⟩
  simpa [State.refreshed, hm, hc] using hn

/-- Settles O40: the frame goes out, the wait times out, and the error entry discards the rest. -/
theorem refreshTimeoutSendsNoPowerOff : Obligations.RefreshTimeoutSendsNoPowerOff := by
  intro s n rest ⟨hrun, hturns⟩ hs hm hc hlim hb
  have h : Moving s := ⟨hrun, hturns⟩
  obtain ⟨m, hreach⟩ := (Reaches.settleRefreshFrame h _).trans
    (Reaches.settleTimeout ((h.emit (.delay 50)).framed 0x12 [0x00]) hlim hb _)
  refine ⟨_, seqOp_ok hs hm hc, m, n, ?_⟩
  rw [errorEntry_eq] at hreach
  simpa [State.polled, State.framed, State.emit, hs, hm, hc] using hreach

/-- Settles O41: power_on() and then refresh(), the second wait answered by what the first left. -/
theorem displayUpdatePowersOnThenRefreshes : Obligations.DisplayUpdatePowersOnThenRefreshes := by
  intro s k j rest ⟨hrun, hturns⟩ hs hm hc ha hj
  have h : Moving s := ⟨hrun, hturns⟩
  have hon := h.poweredOn k (List.replicate j false ++ true :: rest)
  obtain ⟨n, hn⟩ := (Reaches.settlePowerOn h ha _).trans
    ((Reaches.settleRefresh hon ⟨rfl, hj⟩ _).trans
      (Reaches.settleSetLife (hon.refreshed j rest) .displaying))
  refine ⟨_, seqOp_ok hs hm hc, n, j, ?_⟩
  simpa [State.poweredOn, State.refreshed, hm, hc] using hn

end Sys2Proof.Machine
end

section
/-! SUPPORT. The invariant of the machine, R302 (spec/43_streamer.md) among its clauses: the rules
of the wire along the position of a running operation, and why every move of the sequencer and of
the host keeps them. Then the obligation about it, settled from these. -/

namespace Sys2Proof.Machine

/-! ### The rules of the wire along a position (R302, R112, R54, R464) -/

section
variable {pwr : Bool} {ses : Option Half} {m c : Bool} {r : List Micro}

/-- In a session a chip-select is asserted (R302). -/
theorem asserted_of_sessionExclusive {h : Half} (hx : sessionExclusive (some h) m c = true) :
    (!m || !c) = true := by
  cases h with
  | master =>
    simp only [sessionExclusive, Bool.and_eq_true] at hx
    simp [hx.1]
  | slave =>
    simp only [sessionExclusive, Bool.and_eq_true] at hx
    simp [hx.2]

/-- R302 holds wherever the position rests: before every item but an assignment. -/
theorem sessionExclusive_of_seqKeepsRules {x : Micro} (hx : ∀ a, x ≠ .act a)
    (h : seqKeepsRules pwr ses m c (x :: r) = true) : sessionExclusive ses m c = true := by
  cases x with
  | act a => exact absurd rfl (hx a)
  | wire b =>
    rw [seqKeepsRules] at h
    split at h
    · cases ses with
      | none => rfl
      | some _ => cases h
    · simp only [Bool.and_eq_true] at h
      exact h.1.1
  | _ =>
    simp only [seqKeepsRules, Bool.and_eq_true] at h
    simp [h]

/-- Bytes keep the rules while a chip-select is asserted. -/
theorem seqKeepsRules_bytes {p : List Micro} (hp : ∀ x ∈ p, ∃ k b, x = .tx k b)
    (hx : sessionExclusive ses m c = true) (hsel : (!m || !c) = true)
    (hr : seqKeepsRules pwr ses m c r = true) : seqKeepsRules pwr ses m c (p ++ r) = true := by
  induction p with
  | nil => exact hr
  | cons x p ih =>
    obtain ⟨⟨k, b, rfl⟩, hrest⟩ := List.forall_mem_cons.1 hp
    simp [seqKeepsRules, hx, hsel, ih hrest]

/-- So do bytes after a select, outside a session. -/
theorem seqKeepsRules_select {l : Lines} {p : List Micro} (hp : ∀ x ∈ p, ∃ k b, x = .tx k b)
    (hr : ∀ m c, seqKeepsRules pwr none m c r = true) :
    seqKeepsRules pwr none m c (.setCS l false :: (p ++ r)) = true := by
  have hsel : (!(levelsAfter l false m c).1 || !(levelsAfter l false m c).2) = true := by
    cases l <;> simp [levelsAfter]
  exact seqKeepsRules_bytes hp rfl hsel (hr _ _)

/-- A frame to both halves selects them, and leaves them deselected (R271). -/
theorem seqKeepsRules_frameBoth (b : Byte) (bs : List Byte)
    (hr : seqKeepsRules pwr none true true r = true) :
    seqKeepsRules pwr none m c (frameBoth b bs ++ r) = true := by
  have hbytes := seqKeepsRules_select (pwr := pwr) (m := m) (c := c) (l := .ms)
    (p := .tx .cmd b :: bs.map (.tx .data)) (r := .setCS .ms true :: r) (by simp) fun _ _ => hr
  simpa [frameBoth] using hbytes

/-- configure() sends every byte in a frame or under the master-only assertion (R254). -/
theorem seqKeepsRules_configureFrom (inGroup : Bool) (table : List ConfigEntry)
    (hm : inGroup = true → m = false) (hr : ∀ m c, seqKeepsRules pwr none m c r = true) :
    seqKeepsRules pwr none m c (configureFrom inGroup table ++ r) = true := by
  have entry (e : ConfigEntry) : ∀ x ∈ entryBytes e, ∃ k b, x = .tx k b := by simp [entryBytes]
  fun_induction configureFrom inGroup table generalizing m c with
  | case1 => exact hr m c
  | case2 => exact hr true c
  | case3 e es _ ih =>
    rw [List.cons_append, List.append_assoc]
    exact seqKeepsRules_bytes (m := false) (entry e) rfl rfl (ih fun _ => rfl)
  | case4 e es _ ih =>
    rw [List.append_assoc]
    exact seqKeepsRules_frameBoth e.cmd e.payload (ih (by simp))
  | case5 e es _ ih =>
    rw [List.append_assoc, hm rfl]
    exact seqKeepsRules_bytes (entry e) rfl rfl (ih fun _ => rfl)
  | case6 e es _ ih =>
    rw [List.cons_append, List.append_assoc]
    exact seqKeepsRules_frameBoth (m := true) e.cmd e.payload (ih (by simp))

end

/-- The position p, begun in the state s, keeps the rules of the wire. -/
def KeepsRules (s : State) (p : List Micro) : Prop :=
  seqKeepsRules s.cfg.hasPwr s.session s.csM s.csS p = true

/-- R302 at the state s. -/
def SessionHeld (s : State) : Prop := sessionExclusive s.session s.csM s.csS = true

theorem sessionHeld_of_none {s : State} (h : s.session = none) : SessionHeld s := by
  rw [SessionHeld, h]
  rfl

section
variable {s : State} {r : List Micro}

theorem KeepsRules.sessionHeld {x : Micro} (h : KeepsRules s (x :: r)) (hx : ∀ a, x ≠ .act a) :
    SessionHeld s := sessionExclusive_of_seqKeepsRules hx h

/-- An item that emits an event allows the event, and the rest after it. -/
theorem KeepsRules.event {x : Micro} {e : Event} (h : KeepsRules s (x :: r))
    (he : eventOf? x s = some e) :
    eventKeepsRules s.cfg.hasPwr e = true ∧ KeepsRules (s.emit e) r := by
  cases x <;> simp only [eventOf?, Option.some.injEq, reduceCtorEq] at he <;> subst he <;>
    simp only [KeepsRules, seqKeepsRules, Bool.and_eq_true] at h
  case setCS l v => exact ⟨rfl, by cases l <;> exact h.2⟩
  case setRST v => exact ⟨rfl, h.2⟩
  all_goals obtain ⟨⟨-, hrule⟩, hrest⟩ := h
  case tx k b => exact ⟨hrule, by cases k <;> exact hrest⟩
  case setPWR v => exact ⟨hrule, hrest⟩
  case delay ms => exact ⟨hrule, hrest⟩

theorem keepsRules_act {a : Act} :
    KeepsRules s (.act a :: r) ↔ KeepsRules (s.applyAct a) r := by
  cases a <;> rfl

theorem keepsRules_delay {ms : Nat} : KeepsRules s (.delay ms :: r) ↔
    (SessionHeld s ∧ isTimingLiteral ms = true) ∧ KeepsRules s r := by
  simp only [KeepsRules, SessionHeld, seqKeepsRules, Bool.and_eq_true]

theorem keepsRules_waitReady :
    KeepsRules s (.waitReady :: r) ↔ SessionHeld s ∧ KeepsRules s r := by
  simp only [KeepsRules, SessionHeld, seqKeepsRules, Bool.and_eq_true]

theorem keepsRules_kick : KeepsRules s (.kick :: r) ↔ SessionHeld s ∧ KeepsRules s r := by
  simp only [KeepsRules, SessionHeld, seqKeepsRules, Bool.and_eq_true]

theorem keepsRules_poll : KeepsRules s (.poll :: r) ↔ SessionHeld s ∧ KeepsRules s r := by
  simp only [KeepsRules, SessionHeld, seqKeepsRules, Bool.and_eq_true]

theorem keepsRules_rows {pic : Picture} {hf : Half} {y : Nat} : KeepsRules s (.rows pic hf y :: r) ↔
    (SessionHeld s ∧ s.session = some hf) ∧ KeepsRules s r := by
  simp only [KeepsRules, SessionHeld, seqKeepsRules, Bool.and_eq_true, beq_iff_eq]

/-- A line keeps the rules in a session, where a chip-select is asserted. -/
theorem keepsRules_lineProg {t : State} (hx : SessionHeld s) (hses : s.session ≠ none)
    (hr : KeepsRules s r) : KeepsRules s (lineProg t ++ r) := by
  obtain ⟨hf, hhf⟩ := Option.ne_none_iff_exists'.1 hses
  unfold SessionHeld at hx
  rw [lineProg, List.append_assoc]
  exact seqKeepsRules_bytes (by simp) hx (asserted_of_sessionExclusive (hhf ▸ hx)) hr

end

/-- What a panel command puts before the rest keeps the rules with it: the line-write command goes
out under the chip-select that stands, the others frame their bytes and leave both lines high. -/
theorem KeepsRules.panelProg {s : State} {b : Byte} {i : Instr} {r : List Micro}
    (hp : KeepsRules s (.wire b :: r)) (hd : decodePanel b = .ok i) :
    KeepsRules s (panelProg i ++ r) := by
  have framed {bs : List Byte} {q : List Micro} (hb : b = 0x04 ∨ b = 0x12 ∨ b = 0x02 ∨ b = 0x07)
      (hq : ∀ pwr, seqKeepsRules pwr none true true (q ++ r) = seqKeepsRules pwr none true true r) :
      KeepsRules s (frameBoth b bs ++ q ++ r) := by
    obtain ⟨hs, hr⟩ : s.session = none ∧ seqKeepsRules s.cfg.hasPwr none true true r = true := by
      rwa [KeepsRules, seqKeepsRules, if_pos hb, Bool.and_eq_true, Option.isNone_iff_eq_none] at hp
    rw [KeepsRules, hs, List.append_assoc]
    exact seqKeepsRules_frameBoth b bs ((hq _).trans hr)
  have hcode := encode_of_decodePanel hd
  cases i with
  | wireLineWrite =>
    cases hcode
    exact hp
  | wirePowerOn =>
    cases hcode
    exact framed (q := [.waitReady]) (by decide) fun _ => rfl
  | wireDataRefresh =>
    cases hcode
    exact framed (q := [.waitReady]) (by decide) fun _ => rfl
  | wirePowerOff =>
    cases hcode
    exact framed (bs := [0x00]) (q := []) (by decide) fun _ => rfl
  | wireDeepSleep =>
    cases hcode
    exact framed (q := [.delay tSleep]) (by decide) fun _ => rfl
  | _ => cases hcode

/-- A command byte that is no panel command keeps the rules as the byte it is. -/
theorem KeepsRules.unlistedCommand {s : State} {b : Byte} {e : DecodeError} {r : List Micro}
    (hp : KeepsRules s (.wire b :: r)) (hd : decodePanel b = .error e) :
    KeepsRules s (.tx .cmd b :: r) := by
  have hb : ¬ (b = 0x04 ∨ b = 0x12 ∨ b = 0x02 ∨ b = 0x07) := by
    rintro (rfl | rfl | rfl | rfl) <;> cases hd
  rwa [KeepsRules, seqKeepsRules, if_neg hb] at hp

/-- A panel command is executed by putting its items before the rest of the position. -/
theorem exec_panel {b : Byte} {i : Instr} (hd : decodePanel b = .ok i) (s : State) :
    exec i s = .next (s.settle (panelProg i ++ s.seq)) := by
  unfold decodePanel at hd
  split at hd <;> cases hd <;> rfl

/-- An operation word never decodes to a panel command (R2). -/
theorem isOperation_of_decode {w : Word} {i : Instr} (hd : decode w = .ok i) :
    isOperation i = true := by
  have hcode := encode_of_decode hd
  cases i with
  | wireLineWrite => cases hcode
  | wirePowerOn => cases hcode
  | wireDataRefresh => cases hcode
  | wirePowerOff => cases hcode
  | wireDeepSleep => cases hcode
  | _ => rfl

/-- The event list of an operation whose checks pass keeps the rules of the wire. -/
theorem Loads.keepsRules {i : Instr} {s : State} {p : List Micro} (h : Loads i s p)
    (hx : SessionHeld s) (hs : s.session ≠ none → sessionAdmits i = true)
    (hi : checkedIdle i = true → s.session = none ∧ s.csM = true ∧ s.csS = true) :
    KeepsRules s p := by
  have closed (hadm : sessionAdmits i = false) : s.session = none := by
    by_contra hne
    simp [hs hne] at hadm
  have config (pwr m c : Bool) : seqKeepsRules pwr none m c
      (configureProg s ++ [.act (.setLife .initialized)]) = true :=
    seqKeepsRules_configureFrom false _ (by simp) fun _ _ => rfl
  unfold KeepsRules
  unfold SessionHeld at hx
  cases h with
  | endFrame ht hses =>
    rw [closeFrameProg, seqKeepsRules, hx]
    rfl
  | writeLine ht hses _ _ =>
    rw [← List.append_nil (lineProg s)]
    exact keepsRules_lineProg hx (by simp [hses]) hx
  | @beginFrame _ _ hf _ =>
    rw [closed rfl]
    cases hf with
    | master => rfl
    | slave => rfl
  | sendCmd hl _ =>
    rw [closed rfl]
    exact seqKeepsRules_select (p := [.tx .cmd _]) (r := []) (by simp) fun _ _ => rfl
  | sendData hl _ =>
    rw [closed rfl, ← List.append_nil (List.map _ _)]
    exact seqKeepsRules_select (by simp) fun _ _ => rfl
  | sendFramed hl _ =>
    rw [closed rfl, ← List.append_nil (List.map _ _), ← List.cons_append]
    exact seqKeepsRules_select (by simp) fun _ _ => rfl
  | configure => rw [closed rfl]; exact config _ _ _
  | init =>
    rw [closed rfl]
    split
    · next hpwr =>
      rw [hpwr]
      exact config true _ _
    · exact config _ _ _
  | splash _ =>
    obtain ⟨hses, hm, hc⟩ := hi rfl
    rw [hses, hm, hc]
    rfl
  | _ =>
    rw [closed rfl]
    rfl

/-! ### The invariant of the machine, clause by clause -/

/-- What the clauses of the invariant that do not speak of the position look at. -/
def State.record (s : State) : Params × Memory × Bool × Option ErrCode × Word × Bool × List Event :=
  (s.cfg, s.mem, s.err, s.errcode, s.errop, s.pwrl, s.trace)

theorem State.record_eq_iff {s t : State} : t.record = s.record ↔
    t.cfg = s.cfg ∧ t.mem = s.mem ∧ t.err = s.err ∧ t.errcode = s.errcode ∧ t.errop = s.errop ∧
      t.pwrl = s.pwrl ∧ t.trace = s.trace := by
  simp only [State.record, Prod.mk.injEq]

/-- The clauses of MachineInv that do not speak of the position. -/
structure RecordInv (s : State) : Prop where
  mem_wf : s.mem.wf
  err_code : s.err = s.errcode.isSome
  err_op : s.err = false → s.errop = 0
  never_transport : s.errcode ≠ some .transportFailure
  power : s.pwrl = true → s.cfg.hasPwr = true
  events : ∀ e ∈ s.trace, eventKeepsRules s.cfg.hasPwr e = true

theorem MachineInv.recordInv {s : State} (h : MachineInv s) : RecordInv s :=
  ⟨h.mem_wf, h.err_code, h.err_op, h.never_transport, h.power, h.events⟩

namespace RecordInv

theorem congr {s t : State} (h : RecordInv s) (ht : t.record = s.record) : RecordInv t := by
  obtain ⟨hcfg, hmem, herr, hcode, hop, hpwr, htrace⟩ := State.record_eq_iff.1 ht
  refine ⟨?_, ?_, ?_, ?_, ?_, ?_⟩
  · rw [hmem]; exact h.mem_wf
  · rw [herr, hcode]; exact h.err_code
  · rw [herr, hop]; exact h.err_op
  · rw [hcode]; exact h.never_transport
  · rw [hpwr, hcfg]; exact h.power
  · rw [htrace, hcfg]; exact h.events

/-- An event that keeps the rules of the wire. -/
theorem emit {s : State} (h : RecordInv s) {e : Event}
    (he : eventKeepsRules s.cfg.hasPwr e = true) : RecordInv (s.emit e) where
  mem_wf := by simpa using h.mem_wf
  err_code := by simpa using h.err_code
  err_op := by simpa using h.err_op
  never_transport := by simpa using h.never_transport
  power := by
    rw [State.emit_cfg]
    cases e with
    | setPWR v => exact fun _ => he
    | setCS l v => cases l <;> exact h.power
    | tx k b m c => cases k <;> exact h.power
    | _ => exact h.power
  events := by
    simp only [State.emit_trace, State.emit_cfg, List.mem_append, List.mem_singleton]
    rintro x (hx | rfl)
    · exact h.events x hx
    · exact he

theorem deselectAll {s : State} (h : RecordInv s) : RecordInv s.deselectAll := by
  unfold State.deselectAll
  split
  · exact h.emit rfl
  · exact h

theorem withMem {s : State} (h : RecordInv s) {m : Memory} (hm : m.wf) :
    RecordInv { s with mem := m } :=
  ⟨hm, h.err_code, h.err_op, h.never_transport, h.power, h.events⟩

theorem lineOnly {s t : State} (h : RecordInv s) (hl : LineOnly s t) : RecordInv t := by
  obtain ⟨m, rfl, hm, _⟩ := hl
  exact h.withMem (hm h.mem_wf)

/-- The clauses that speak of the position complete the invariant. -/
theorem machineInv {s : State} (h : RecordInv s) (hp : KeepsRules s s.seq) (hx : SessionHeld s)
    (hidle : s.run = false → s.seq = []) (herr : s.err = true → s.run = false) : MachineInv s :=
  ⟨h.mem_wf, hidle, hp, hx, herr, h.err_code, h.err_op, h.never_transport, h.power, h.events⟩

/-- Between operations they are about R302 alone. -/
theorem idle {s : State} (h : RecordInv s) (hx : SessionHeld s) (hrun : s.run = false)
    (hseq : s.seq = []) : MachineInv s :=
  h.machineInv (by rw [hseq]; exact hx) hx (fun _ => hseq) fun _ => hrun

theorem complete {s : State} (h : RecordInv s) (hx : SessionHeld s) : MachineInv s.complete :=
  idle (s := s.complete) (h.congr rfl) hx rfl rfl

theorem errorEntry {s : State} (h : RecordInv s) {c : ErrCode} (hc : c ≠ .transportFailure) :
    MachineInv (s.errorEntry c) := by
  have hd := h.deselectAll
  have hr : RecordInv (s.errorEntry c) :=
    ⟨hd.mem_wf, rfl, nofun, fun he => hc (Option.some.inj he), hd.power, hd.events⟩
  exact hr.idle (sessionHeld_of_none rfl) rfl rfl

end RecordInv

/-- An operation runs, and with it the clauses that do not speak of its position. -/
structure Operating (s : State) : Prop where
  record : RecordInv s
  run : s.run = true
  err : s.err = false

namespace Operating

theorem congr {s t : State} (h : Operating s) (ht : t.record = s.record) (hrun : t.run = s.run) :
    Operating t :=
  have ⟨_, _, herr, _⟩ := State.record_eq_iff.1 ht
  ⟨h.record.congr ht, hrun.trans h.run, herr.trans h.err⟩

theorem emit {s : State} (h : Operating s) {e : Event}
    (he : eventKeepsRules s.cfg.hasPwr e = true) : Operating (s.emit e) :=
  ⟨h.record.emit he, by simpa using h.run, by simpa using h.err⟩

theorem applyAct {s : State} (h : Operating s) (a : Act) : Operating (s.applyAct a) := by
  cases a <;> exact h.congr rfl rfl

theorem lineOnly {s t : State} (h : Operating s) (hl : LineOnly s t) : Operating t := by
  have hr := h.record.lineOnly hl
  obtain ⟨m, rfl, _⟩ := hl
  exact ⟨hr, h.run, h.err⟩

/-- A running operation whose position keeps the rules of the wire. -/
theorem machineInv {s : State} (h : Operating s) (hp : KeepsRules s s.seq) (hx : SessionHeld s) :
    MachineInv s :=
  h.record.machineInv hp hx (fun hr => by simp [h.run] at hr) fun he => by simp [h.err] at he

/-- The assignments before the next event lead to a state that meets the invariant. -/
theorem settle {s : State} (h : Operating s) {p : List Micro} (hp : KeepsRules s p) :
    MachineInv (s.settle p) := by
  have rest {s : State} (h : Operating s) {p : List Micro} (hp : KeepsRules s p)
      (hx : SessionHeld s) : MachineInv (s.withSeq p) :=
    Operating.machineInv (s := s.withSeq p) (h.congr rfl rfl) hp hx
  induction p generalizing s with
  | nil => exact rest h hp hp
  | cons m p ih =>
    cases m with
    | act a => exact ih (h.applyAct a) (keepsRules_act.1 hp)
    | _ => exact rest h hp (hp.sessionHeld (by simp))

/-! ### The moves of the sequencer -/

theorem transportFailure_not_mem_checkErrors (i : Instr) :
    ErrCode.transportFailure ∉ checkErrors i := by
  cases i <;> simp [checkErrors]

/-- The answer to a busy sample: the settle delay, the poll delay and the next iteration, or the
error entry. -/
theorem pollAnswer {s : State} (h : Operating s) (hx : SessionHeld s) (hp : KeepsRules s s.seq)
    (lvl : Bool) : MachineInv (pollAnswer lvl s) := by
  have hpoll := h.emit (e := .pollBusy lvl) rfl
  have hcount : Operating (s.emit (.pollBusy lvl)).countPoll := hpoll.congr rfl rfl
  have hready : KeepsRules s (.delay tSettle :: s.seq) := keepsRules_delay.2 ⟨⟨hx, rfl⟩, hp⟩
  have hround : KeepsRules s (.delay tPoll :: .kick :: s.seq) :=
    keepsRules_delay.2 ⟨⟨hx, rfl⟩, keepsRules_kick.2 ⟨hx, hp⟩⟩
  unfold Machine.pollAnswer
  simp only
  split
  · exact hpoll.settle hready
  · split
    · exact hcount.record.errorEntry (by decide)
    · exact hcount.settle hround

/-- A busy sample leaves the parameters, R302 and the position alone. -/
theorem pollStep {s : State} (h : Operating s) (hx : SessionHeld s) (hp : KeepsRules s s.seq) :
    MachineInv (pollStep s) := by
  obtain ⟨lvl, bi, d, hsample⟩ := sampleBusy_eq s
  rw [Machine.pollStep, hsample]
  exact pollAnswer (s := { s with busyIn := bi, draws := d }) (h.congr rfl rfl) hx hp lvl

/-- A scanline is sent before what is left of the position. -/
theorem line {s : State} (h : Operating s) (hx : SessionHeld s) (hses : s.session ≠ none)
    {q : List Micro} (hq : KeepsRules s q) : MachineInv (s.withSeq (lineProg s ++ q)) := by
  have hsettle : s.settle (lineProg s ++ q) = s.withSeq (lineProg s ++ q) := rfl
  exact hsettle ▸ h.settle (keepsRules_lineProg hx hses hq)

/-- Scanlines are sent in the session of their half. -/
theorem rowsStep {s : State} (h : Operating s) {pic : Picture} {hf : Half} {y : Nat}
    (hp : KeepsRules s (.rows pic hf y :: s.seq)) : MachineInv (rowsStep pic hf y s) := by
  obtain ⟨⟨hx, hses⟩, hq⟩ := keepsRules_rows.1 hp
  have hopen : s.session ≠ none := by simp [hses]
  unfold Machine.rowsStep
  split
  · cases pic with
    | flat => exact h.line hx hopen hp
    | splash =>
      obtain ⟨m, hm, -⟩ := lineOnly_renderLine hf y s
      have hr : Operating (renderLine hf y s) := h.lineOnly (lineOnly_renderLine hf y s)
      rw [hm] at hr ⊢
      exact hr.line hx hopen hp
  · exact h.settle hq

/-- Carrying out an item that runs no instruction. -/
theorem microStep {s : State} (h : Operating s) {x : Micro} (hp : KeepsRules s (x :: s.seq))
    (hstart : x ≠ .start) (hwire : ∀ b, x ≠ .wire b) : MachineInv (microStep x s) := by
  have event (e : Event) (he : eventOf? x s = some e) : MachineInv (Machine.emitStep e s) :=
    have ⟨hrules, hrest⟩ := hp.event he
    (h.emit hrules).settle hrest
  cases x with
  | start => exact absurd rfl hstart
  | wire b => exact absurd rfl (hwire b)
  | act a => exact (h.applyAct a).settle (keepsRules_act.1 hp)
  | waitReady =>
    obtain ⟨hx, hq⟩ := keepsRules_waitReady.1 hp
    exact settle (s := s.clearPolls) (h.congr rfl rfl) (keepsRules_kick.2 ⟨hx, hq⟩)
  | kick =>
    obtain ⟨hx, hq⟩ := keepsRules_kick.1 hp
    exact (h.emit (e := .wdtKick) rfl).settle (keepsRules_poll.2 ⟨hx, hq⟩)
  | poll =>
    obtain ⟨hx, hq⟩ := keepsRules_poll.1 hp
    exact h.pollStep hx hq
  | rows pic hf y => exact h.rowsStep hp
  | setCS l v => exact event _ rfl
  | tx k b => exact event _ rfl
  | setRST v => exact event _ rfl
  | setPWR v => exact event _ rfl
  | delay ms => exact event _ rfl

/-- Executing an operation from its start. -/
theorem operation {s t : State} {i : Instr} (h : Operating s) (hx : SessionHeld s)
    (hi : isOperation i = true) (ha : Answers i s t) : MachineInv t := by
  cases ha with
  | error hc =>
    exact h.record.errorEntry fun he => transportFailure_not_mem_checkErrors i (he ▸ hc)
  | done _ => exact h.record.complete hx
  | line hl _ =>
    have hr := h.record.lineOnly hl
    obtain ⟨m, rfl, -⟩ := hl
    exact hr.complete hx
  | result v _ => exact RecordInv.complete (s := { s with result := v }) (h.record.congr rfl) hx
  | loads hl hs hidle => exact h.settle (hl.keepsRules hx hs hidle)
  | @clear k c hi hk hs hm hc =>
    refine (h.lineOnly (lineOnly_fillLinebuf c s)).settle ?_
    show seqKeepsRules s.cfg.hasPwr s.session s.csM s.csS (composeProg .flat) = true
    rw [hs, hm, hc]
    rfl
  | panel hp => simp [hi] at hp

end Operating

/-- What the clauses of the invariant that speak of the position look at. -/
def State.place (s : State) : Bool × Option Half × Bool × Bool × List Micro :=
  (s.run, s.session, s.csM, s.csS, s.seq)

theorem MachineInv.sessionHeld {s : State} (h : MachineInv s) : SessionHeld s := h.session_exclusive

/-- While an operation runs no error stands. -/
theorem MachineInv.operating {s : State} (h : MachineInv s) (hrun : s.run = true) : Operating s :=
  ⟨h.recordInv, hrun, by
    by_contra he
    simp [h.err_idle (Bool.eq_true_of_not_eq_false he)] at hrun⟩

/-- A move of the sequencer, by the item at the head of the position. -/
theorem MachineInv.sequencerTurn {s t : State} (h : MachineInv s)
    (ht : sequencerTurn s = .next t) : MachineInv t := by
  have rest (r : List Micro) (hrun : s.run = true) : Operating (s.withSeq r) :=
    (h.operating hrun).congr rfl rfl
  have head {x : Micro} {r : List Micro} (hseq : s.seq = x :: r) :
      KeepsRules (s.withSeq r) (x :: r) := hseq ▸ h.position
  rcases sequencerTurn_cases ht with ⟨_, rfl⟩ | ⟨_, _, rfl⟩ | ⟨r, hrun, _, ⟨_, rfl⟩ | ⟨i, hd, he⟩⟩ |
    ⟨b, r, hrun, hseq, ⟨⟨e, hd⟩, rfl⟩ | ⟨i, hd, he⟩⟩ | ⟨x, r, hrun, hseq, hstart, hwire, rfl⟩
  · exact h
  · exact h.recordInv.complete h.sessionHeld
  · exact (rest r hrun).record.errorEntry (by decide)
  · exact (rest r hrun).operation h.sessionHeld (isOperation_of_decode hd) (answers_of_exec he)
  · exact (rest r hrun).microStep (x := .tx .cmd b) ((head hseq).unlistedCommand hd) (by simp)
      (by simp)
  · rw [exec_panel hd] at he
    cases he
    exact (rest r hrun).settle ((head hseq).panelProg hd)
  · exact (rest r hrun).microStep (head hseq) hstart hwire

/-! ### The host port and the resets -/

/-- An update of what the invariant does not look at. -/
theorem MachineInv.congr {s t : State} (h : MachineInv s) (hrec : t.record = s.record)
    (hplace : t.place = s.place) : MachineInv t := by
  obtain ⟨hcfg, -, herr, -⟩ := State.record_eq_iff.1 hrec
  simp only [State.place, Prod.mk.injEq] at hplace
  obtain ⟨hrun, hses, hm, hc, hseq⟩ := hplace
  refine (h.recordInv.congr hrec).machineInv ?_ ?_ ?_ ?_
  · rw [KeepsRules, hcfg, hses, hm, hc, hseq]; exact h.position
  · rw [SessionHeld, hses, hm, hc]; exact h.session_exclusive
  · rw [hrun, hseq]; exact h.idle_position
  · rw [herr, hrun]; exact h.err_idle

theorem machineInv_hardwareReset (s : State) : MachineInv (hardwareReset s) :=
  RecordInv.idle ⟨⟨.nil, nofun⟩, rfl, fun _ => rfl, nofun, nofun, nofun⟩ rfl rfl rfl

namespace RecordInv

/-- A soft reset emits chip-select and reset levels only, and leaves nothing to do. -/
theorem softReset {s : State} (h : RecordInv s) : MachineInv (softReset s) := by
  have he : RecordInv (if s.deselectAll.rstl then s.deselectAll
      else s.deselectAll.emit (.setRST true)) := by
    split
    · exact h.deselectAll
    · exact h.deselectAll.emit rfl
  have hr : RecordInv (Machine.softReset s) :=
    ⟨he.mem_wf, rfl, fun _ => rfl, nofun, he.power, he.events⟩
  exact hr.idle (sessionHeld_of_none rfl) rfl rfl

end RecordInv

theorem MachineInv.errClear {s : State} (h : MachineInv s) : MachineInv s.errClear :=
  ⟨h.mem_wf, h.idle_position, h.position, h.session_exclusive, nofun, rfl, fun _ => rfl, nofun,
    h.power, h.events⟩

theorem MachineInv.ctrlWrite {s : State} (h : MachineInv s) (w : Word) :
    MachineInv (ctrlWrite w s) := by
  have hclear : MachineInv (if w.getLsbD 1 then s.errClear else s) := by
    split
    · exact h.errClear
    · exact h
  unfold Machine.ctrlWrite
  simp only
  split
  · exact h.recordInv.softReset
  · split
    · exact hclear.congr rfl rfl
    · exact hclear

/-- An operation is started only while no error stands, and nothing but its start is left to do. -/
theorem MachineInv.opWrite {s : State} (h : MachineInv s) (w : Word) (he : s.err = false) :
    MachineInv (opWrite w s) := by
  have ho : Operating (Machine.opWrite w s) := ⟨h.recordInv.congr rfl, rfl, he⟩
  refine ho.machineInv ?_ h.sessionHeld
  show (sessionExclusive s.session s.csM s.csS && true) = true
  rw [Bool.and_true]
  exact h.session_exclusive

/-- A word of a RAM lies in it. -/
theorem isRam_of_mem_word {off x : Nat} (h : isRam off = true) (h4 : off % 4 = 0) (hlo : off ≤ x)
    (hhi : x < off + 4) : isRam x = true := by
  rw [isRam_iff] at *
  omega

/-- A host write, by the register it reaches. -/
theorem MachineInv.hostWrite {s : State} (h : MachineInv s) {off : Nat} (h4 : off % 4 = 0)
    (w : Word) : MachineInv (hostWrite off w s) := by
  rcases hostWrite_cases off w s with hw | ⟨_, hw⟩ | ⟨_, hw⟩ | ⟨hrun, ⟨_, hw⟩ | ⟨_, hw⟩ |
    ⟨_, herr, hw⟩ | ⟨b, hw⟩ | ⟨hram, hw⟩⟩ <;> rw [hw]
  · exact h
  · exact h.ctrlWrite w
  · exact h.congr rfl rfl
  · exact h.congr rfl rfl
  · exact h.congr rfl rfl
  · exact h.opWrite w herr
  · exact h.congr rfl rfl
  · have hwf := writeBytes_wf h.mem_wf off (wordBytes w) fun x hlo hhi =>
      isRam_of_mem_word hram h4 hlo hhi
    exact (h.recordInv.withMem hwf).idle h.sessionHeld hrun (h.idle_position hrun)

theorem MachineInv.withTurns {s : State} (h : MachineInv s) (ts : List Turn) :
    MachineInv (s.withTurns ts) := h.congr rfl rfl

/-! ### The obligation -/

/-- Settles O3, by the agent that moves. -/
theorem stepKeepsMachineInv : Obligations.StepKeepsMachineInv := by
  intro s s' h hstep
  rcases step_cases hstep with ⟨_, hturn⟩ | ⟨ts, _, hturn⟩ | ⟨ts, _, rfl⟩ | ⟨ts, _, _, rfl⟩ |
    ⟨off, ts, _, _, _, rfl⟩ | ⟨off, w, ts, _, h4, _, rfl⟩
  · exact h.sequencerTurn hturn
  · exact (h.withTurns ts).sequencerTurn hturn
  · exact machineInv_hardwareReset _
  · exact h.withTurns ts
  · obtain ⟨v, d, hread, -⟩ := hostRead_eq off (s.withTurns ts)
    rw [hread]
    exact h.congr rfl rfl
  · exact (h.withTurns ts).hostWrite h4 w

end Sys2Proof.Machine
end

section
/-! SUPPORT. The dual-half line streamer (spec/43_streamer.md): each check as an equation, the bytes
and pixels of LINEBUF, the runs of its event lists, and which operations a session admits. Then the
obligations about them, settled from these. -/

namespace Sys2Proof.Machine

/-! ### The checks (R301, R304, R308) -/

theorem otherHalf_ne (h : Half) : otherHalf h ≠ h := by cases h <;> decide

section
variable {t : Tgt} {h : Half} {s : State} (ht : halfOf? t = some h)
include ht

theorem execBeginFrame_sessionOpen (hs : s.session ≠ none) :
    execBeginFrame t s = .next (s.errorEntry .sessionOpen) := by
  simp [execBeginFrame, raiseError, ht, Option.isSome_iff_ne_none.2 hs]

theorem execBeginFrame_ok (hs : s.session = none) :
    execBeginFrame t s = .next (s.load (openFrameProg h)) := by
  simp [execBeginFrame, ht, hs]

theorem execEndFrame_noSession (hs : s.session = none) :
    execEndFrame t s = .next (s.errorEntry .noSession) := by
  simp [execEndFrame, raiseError, ht, hs]

theorem execEndFrame_wrongHalf (hs : s.session = some (otherHalf h)) :
    execEndFrame t s = .next (s.errorEntry .wrongHalf) := by
  simp [execEndFrame, raiseError, ht, hs, otherHalf_ne]

theorem execEndFrame_ok (hs : s.session = some h) :
    execEndFrame t s = .next (s.load (closeFrameProg h)) := by
  simp [execEndFrame, ht, hs]

theorem execWriteLine_zero (hn : lineLen? s.arg0 = some 0) :
    execWriteLine t s = .next s.complete := by
  simp [execWriteLine, ht, hn]

theorem execWriteLine_badOperand (hn : lineLen? s.arg0 = none) :
    execWriteLine t s = .next (s.errorEntry .badOperand) := by
  simp [execWriteLine, raiseError, ht, hn]

variable {n : Nat} (hn : lineLen? s.arg0 = some n) (h0 : n ≠ 0)
include hn h0

theorem execWriteLine_noSession (hs : s.session = none) :
    execWriteLine t s = .next (s.errorEntry .noSession) := by
  simp [execWriteLine, raiseError, ht, hn, h0, hs]

theorem execWriteLine_wrongHalf (hs : s.session = some (otherHalf h)) :
    execWriteLine t s = .next (s.errorEntry .wrongHalf) := by
  simp [execWriteLine, raiseError, ht, hn, h0, hs, otherHalf_ne]

theorem execWriteLine_wrongLength (hs : s.session = some h) (h300 : n ≠ 300) :
    execWriteLine t s = .next (s.errorEntry .wrongLength) := by
  simp [execWriteLine, raiseError, ht, hn, h0, hs, h300, lineBytes]

end

section
variable {t : Tgt} {h : Half} {s : State} (ht : halfOf? t = some h) (hs : s.session = some h)
  (hn : lineLen? s.arg0 = some 300)
include ht hs hn

theorem execWriteLine_badPixel (hv : linebufValid s = false) :
    execWriteLine t s = .next (s.errorEntry .badPixel) := by
  simp [execWriteLine, raiseError, ht, hn, hs, lineBytes, hv]

theorem execWriteLine_ok (hv : linebufValid s = true) :
    execWriteLine t s = .next (s.load (lineProg s)) := by
  simp [execWriteLine, ht, hn, hs, lineBytes, hv]

end

theorem lineLen?_eq_none {w : Word} (h : w.extractLsb' 16 16 ≠ 0) : lineLen? w = none := if_neg h

theorem lineLen?_eq_some {w : Word} (h : w.extractLsb' 16 16 = 0) :
    lineLen? w = some (w.extractLsb' 0 16).toNat := if_pos h

/-! ### LINEBUF as bytes and as pixels (R61, R305) -/

theorem linebuf_eq_map (s : State) :
    s.linebuf = (List.range 300).map fun i => s.ram (0x200 + i) := by
  refine List.ext_getElem? fun i => ?_
  rw [State.linebuf, State.ramBytes_get]
  by_cases hi : i < 300 <;> simp [hi, lineBytes, linebufBase]

/-- The bytes of LINEBUF sent in order, at the levels that stand. -/
theorem foldl_plainEmit_linebuf (s : State) : (s.linebuf.map (Micro.tx .data)).foldl plainEmit s =
    { s with
      dc := true, trace := s.trace ++ (List.range 300).map fun i =>
        .tx .data (s.ram (0x200 + i)) s.csM s.csS } := by
  have hne : s.linebuf ≠ [] := by simp [linebuf_eq_map]
  rw [foldl_plainEmit_data, if_neg hne, dataEvents, linebuf_eq_map, List.map_map]
  rfl

theorem isColorNibble_iff {k : BitVec 4} :
    isColorNibble k = true ↔ k ∈ ([0, 1, 2, 3, 5, 6] : List (BitVec 4)) := by
  simp [isColorNibble, or_assoc]

/-- The check of the pixels looks at both nibbles of every byte, and so at all 600 pixels. -/
theorem linebufValid_iff {s : State} : linebufValid s = true ↔
    ∀ x, x < 600 → linePixel s x ∈ ([0, 1, 2, 3, 5, 6] : List (BitVec 4)) := by
  have hbytes : linebufValid s = true ↔ ∀ i < 300,
      isColorNibble (linePixel s (2 * i)) = true ∧
        isColorNibble (linePixel s (2 * i + 1)) = true := by
    have hodd (i : Nat) : (2 * i + 1) / 2 = i := by omega
    simp [linebufValid, linebuf_eq_map, validPixelPair, linePixel, linebufBase, hodd]
  simp only [hbytes, ← isColorNibble_iff]
  constructor
  · intro h x hx
    rcases Nat.even_or_odd' x with ⟨i, rfl | rfl⟩
    · exact (h i (by omega)).1
    · exact (h i (by omega)).2
  · exact fun h i hi => ⟨h _ (by omega), h _ (by omega)⟩

/-! ### Event lists that end in an assignment -/

/-- Plain items take one step each, the assignment none, and the end of the operation one. -/
theorem RunsTo.loadPlainAct {s : State} (h : Moving s) (p : List Micro)
    (hp : p.all isPlain = true) (a : Act) :
    RunsTo (p.length + 1) (s.load (p ++ [.act a])) ((p.foldl plainEmit s).applyAct a).complete := by
  have hend := (h.foldl_plainEmit p).applyAct a
  exact (RunsTo.settlePlain p h hp [.act a]).trans (RunsTo.done hend.turns hend.run rfl)

/-- The opening of a frame session: its three events and its assignment (R301). -/
theorem Reaches.openFrame {s : State} (h : Moving s) (hf : Half) :
    Reaches (s.load (openFrameProg hf))
      (([.setCS (halfLines (otherHalf hf)) true, .setCS (halfLines hf) false, .tx .cmd 0x10].foldl
        plainEmit s).applyAct (.openSession hf)).complete := by
  have hsel := RunsTo.settlePlain [.setCS (halfLines (otherHalf hf)) true,
    .setCS (halfLines hf) false] h rfl [.wire 0x10, .act (.openSession hf)]
  have hmov := h.foldl_plainEmit [.setCS (halfLines (otherHalf hf)) true,
    .setCS (halfLines hf) false]
  exact Reaches.trans ⟨_, hsel⟩ ((Reaches.settlePanel hmov (i := .wireLineWrite) rfl _).trans
    ⟨_, RunsTo.loadPlainAct hmov [.tx .cmd 0x10] rfl (.openSession hf)⟩)

/-! ### What a session admits (R300) -/

/-- An admitted operation answers an error of its checks or keeps the session while it begins. -/
theorem Answers.error_or_session_eq {i : Instr} {s t : State} (h : Answers i s t)
    (hi : sessionAdmits i = true) :
    (∃ c ∈ checkErrors i, t = s.errorEntry c) ∨ t.session = s.session := by
  cases h with
  | error hc => exact .inl ⟨_, hc, rfl⟩
  | done _ => exact .inr rfl
  | line hl _ =>
    obtain ⟨m, rfl, -⟩ := hl
    exact .inr rfl
  | result v _ => exact .inr rfl
  | loads hl _ _ =>
    cases hl with
    | endFrame _ _ => exact .inr rfl
    | writeLine _ _ _ _ => exact .inr rfl
    | _ => cases hi
  | clear hk _ _ _ _ => cases hk; cases hi
  | panel _ => exact .inr rfl

theorem sessionOpen_not_mem_checkErrors {i : Instr} (hi : sessionAdmits i = true) :
    ErrCode.sessionOpen ∉ checkErrors i := by
  cases i <;> simp_all [checkErrors, sessionAdmits]

theorem colorOf?_of_isColorCode {k : Byte} (h : isColorCode k = true) :
    ∃ c, colorOf? k = some c := by
  simp only [isColorCode, Bool.or_eq_true, beq_iff_eq] at h
  rcases h with ((((rfl | rfl) | rfl) | rfl) | rfl) | rfl <;> exact ⟨_, rfl⟩

theorem linesOf?_of_isTarget {t : Tgt} (h : t.isTarget = true) : ∃ l, linesOf? t = some l :=
  linesOf?_eq_some_of_ne (by rintro rfl; cases h)

theorem halfOf?_of_isHalf {t : Tgt} (h : t.isHalf = true) : ∃ hf, halfOf? t = some hf := by
  cases t with
  | master => exact ⟨.master, rfl⟩
  | slave => exact ⟨.slave, rfl⟩
  | none => cases h
  | both => cases h

theorem textlensOk_of_le {s : State} (h : ∀ b : Fin 6, (s.textlen[b.val]).toNat ≤ 64) :
    textlensOk s = true := by
  simp only [textlensOk, List.all_eq_true, Vector.mem_toList_iff, Vector.mem_iff_getElem,
    decide_eq_true_eq]
  rintro _ ⟨b, hb, rfl⟩
  exact h ⟨b, hb⟩

/-! ### The obligations -/

/-- Settles O42: the events of the opening and of the closing, and then the operation completes. -/
theorem beginFrameEndFrameComplete : Obligations.BeginFrameEndFrameComplete := by
  intro s ⟨hrun, hturns⟩
  have h : Moving s := ⟨hrun, hturns⟩
  refine ⟨fun hs => ⟨⟨_, execBeginFrame_ok (t := .master) rfl hs, ?_⟩,
      ⟨_, execBeginFrame_ok (t := .slave) rfl hs, ?_⟩⟩,
    fun hs => ⟨_, execEndFrame_ok (t := .master) rfl hs, ?_⟩,
    fun hs => ⟨_, execEndFrame_ok (t := .slave) rfl hs, ?_⟩⟩
  · simpa [Reaches, plainEmit_setCS, plainEmit_cmd, halfLines, otherHalf, Lines.has, State.applyAct,
      State.complete] using Reaches.openFrame h .master
  · simpa [Reaches, plainEmit_setCS, plainEmit_cmd, halfLines, otherHalf, Lines.has, State.applyAct,
      State.complete] using Reaches.openFrame h .slave
  · exact RunsTo.loadPlainAct h [.setCS .m true] rfl .closeSession
  · exact RunsTo.loadPlainAct h [.setCS .s true] rfl .closeSession

/-- Settles O43: the checks pass, the 300 bytes and the count run to the end; of length 0 the checks
end before the session is looked at. -/
theorem writeLineSendsTheLine : Obligations.WriteLineSendsTheLine := by
  intro s t hf ht
  refine ⟨fun ⟨hrun, hturns⟩ hs harg hpix => ?_,
    fun harg => execWriteLine_zero ht (by rw [harg]; rfl)⟩
  have h : Moving s := ⟨hrun, hturns⟩
  have hlen : lineLen? s.arg0 = some 300 := by rw [harg]; rfl
  refine ⟨_, execWriteLine_ok ht hs hlen (linebufValid_iff.2 hpix), ?_⟩
  have hline := RunsTo.loadPlainAct h (s.linebuf.map (.tx .data)) (all_isPlain_data _) .countLine
  rw [foldl_plainEmit_linebuf, List.length_map, State.linebuf_length] at hline
  exact hline

/-- Settles O44: one check after another. -/
theorem streamerChecksInOrder : Obligations.StreamerChecksInOrder := by
  intro s t n
  refine ⟨fun ht => ?_, fun hres => ?_, fun h ht => ⟨execBeginFrame_sessionOpen ht,
    execEndFrame_noSession ht, execEndFrame_wrongHalf ht, fun hres h0 => ?_⟩⟩
  · simp [exec, execWriteLine, execEndFrame, execBeginFrame, raiseError, ht]
  · show execWriteLine t s = _
    cases ht : halfOf? t with
    | none => simp [execWriteLine, raiseError, ht]
    | some h => exact execWriteLine_badOperand ht (lineLen?_eq_none hres)
  · have hn : lineLen? s.arg0 = some n := lineLen?_eq_some hres
    refine ⟨execWriteLine_noSession ht hn h0, execWriteLine_wrongHalf ht hn h0,
      execWriteLine_wrongLength ht hn h0, fun hs h300 ⟨x, hx, hpix⟩ => ?_⟩
    refine execWriteLine_badPixel ht hs (h300 ▸ hn) (Bool.eq_false_of_not_eq_true fun hv => ?_)
    exact hpix (linebufValid_iff.1 hv x hx)

/-- Settles O45: an operation that is not admitted meets the session check next when its operands
pass; one that is admitted has no such check, and but for its own errors it keeps the session. -/
theorem sessionAdmitsOnlyItsOperations : Obligations.SessionAdmitsOnlyItsOperations := by
  intro s i hs hop
  refine ⟨fun hadm hwf hdata hframed htext => ?_, fun hadm he => ?_⟩
  · cases i with
    | select t =>
      obtain ⟨l, hl⟩ := linesOf?_of_isTarget hwf
      exact framerOp_sessionOpen hl rfl hs
    | sendCmd t c =>
      obtain ⟨l, hl⟩ := linesOf?_of_isTarget hwf
      exact framerOp_sessionOpen hl rfl hs
    | sendData t =>
      obtain ⟨l, hl⟩ := linesOf?_of_isTarget hwf
      obtain ⟨n, hn⟩ := Option.ne_none_iff_exists'.1 (hdata t rfl)
      exact framerOp_sessionOpen hl hn hs
    | sendFramed t c =>
      obtain ⟨l, hl⟩ := linesOf?_of_isTarget hwf
      obtain ⟨n, hn⟩ := Option.ne_none_iff_exists'.1 (hframed t c rfl)
      exact framerOp_sessionOpen hl hn hs
    | deselect t =>
      obtain ⟨l, hl⟩ := linesOf?_of_isTarget hwf
      exact execDeselect_sessionOpen hl hs
    | waitReady => exact if_pos (Option.isSome_iff_ne_none.2 hs)
    | reset => exact seqChecked_sessionOpen _ hs
    | configure => exact seqChecked_sessionOpen _ hs
    | init => exact seqChecked_sessionOpen _ hs
    | powerOn => exact seqChecked_sessionOpen _ hs
    | refresh => exact seqChecked_sessionOpen _ hs
    | powerOff => exact seqChecked_sessionOpen _ hs
    | sleep => exact seqChecked_sessionOpen _ hs
    | displayUpdate => exact seqChecked_sessionOpen _ hs
    | beginFrame t =>
      obtain ⟨h, hh⟩ := halfOf?_of_isHalf hwf
      exact execBeginFrame_sessionOpen hh hs
    | clear k =>
      obtain ⟨c, hc⟩ := colorOf?_of_isColorCode hwf
      simp [exec, execClear, hc, seqChecked_sessionOpen _ hs]
    | splash => simp [exec, execSplash, textlensOk_of_le (htext rfl), seqChecked_sessionOpen _ hs]
    | nop => cases hadm
    | writeLine t => cases hadm
    | endFrame t => cases hadm
    | fillLine k => cases hadm
    | glyphIndex ch => cases hadm
    | glyphRow => cases hadm
    | stampGlyph => cases hadm
    | _ => cases hop
  · rcases (answers_of_exec he).error_or_session_eq hadm with ⟨c, hc, heq⟩ | hses
    · have hcode := congrArg State.errcode heq
      simp only [State.errorEntry_errcode, Option.some.injEq] at hcode
      exact sessionOpen_not_mem_checkErrors hadm (hcode ▸ hc)
    · exact hs hses.symm

end Sys2Proof.Machine
end

section
/-! SUPPORT. The glyph rasterizer (spec/44_raster.md): the operands of its operations and what each
of them answers, the glyph table, and which pixels a stamp covers. Then the obligations about them,
settled from these. -/

namespace Sys2Proof.Machine

/-! ### The color operand (R152) -/

theorem colorOf?_of_mem {k : Byte} (h : k ∈ ([0, 1, 2, 3, 5, 6] : List Byte)) :
    ∃ c, colorOf? k = some c ∧ k = 0#4 ++ colorNibble c := by
  simp only [List.mem_cons, List.not_mem_nil, or_false] at h
  rcases h with rfl | rfl | rfl | rfl | rfl | rfl <;> exact ⟨_, rfl, rfl⟩

theorem colorOf?_eq_none {k : Byte} (h : k ∉ ([0, 1, 2, 3, 5, 6] : List Byte)) :
    colorOf? k = none := by
  simp only [List.mem_cons, List.not_mem_nil, or_false, ← BitVec.toNat_inj, BitVec.ofNat_eq_ofNat,
    BitVec.toNat_ofNat] at h
  unfold colorOf?
  split <;> [omega; omega; omega; omega; omega; omega; rfl]

theorem fillByte_eq_shift_or (c : Color) :
    fillByte c = ((0#4 ++ colorNibble c) <<< 4) ||| (0#4 ++ colorNibble c) := by
  cases c <;> decide

/-! ### LINEBUF when an operation completes (R14) -/

@[simp] theorem ram_complete (s : State) (a : Nat) : s.complete.ram a = s.ram a := rfl

@[simp] theorem linePixel_complete (s : State) (x : Nat) :
    linePixel s.complete x = linePixel s x := rfl

/-! ### The operands of GLYPH_ROW and STAMP_GLYPH (R143, R338, R340) -/

/-- The fields of a word put together from them (R143). -/
theorem extract_bytes (h : BitVec 16) (a b : Byte) :
    (h ++ a ++ b).extractLsb' 0 8 = b ∧ (h ++ a ++ b).extractLsb' 8 8 = a ∧
      (h ++ a ++ b).extractLsb' 16 16 = h := by
  refine ⟨BitVec.extractLsb'_append_eq_right, ?_, ?_⟩
  · exact (BitVec.extractLsb'_append_eq_of_le (by decide)).trans BitVec.extractLsb'_append_eq_right
  · exact (BitVec.extractLsb'_append_eq_of_le (by decide)).trans BitVec.extractLsb'_append_eq_left

theorem glyphRowOperands?_append (g : Fin 41) (r : Fin 8) :
    glyphRowOperands? (0#16 ++ BitVec.ofNat 8 r.val ++ BitVec.ofNat 8 g.val) = some (g, r) := by
  have hg : (BitVec.ofNat 8 g.val).toNat = g.val := Nat.mod_eq_of_lt (by omega)
  have hr : (BitVec.ofNat 8 r.val).toNat = r.val := Nat.mod_eq_of_lt (by omega)
  obtain ⟨hlow, hmid, hres⟩ := extract_bytes 0#16 (BitVec.ofNat 8 r.val) (BitVec.ofNat 8 g.val)
  simp only [glyphRowOperands?, hlow, hmid, hres, hg, hr, g.isLt, r.isLt]
  rfl

theorem glyphRowOperands?_eq_none {w : Word}
    (h : 40 < (w.extractLsb' 0 8).toNat ∨ 7 < (w.extractLsb' 8 8).toNat ∨
      w.extractLsb' 16 16 ≠ 0) : glyphRowOperands? w = none := by
  unfold glyphRowOperands?
  rcases h with h | h | h
  · rw [dif_neg (show ¬ (w.extractLsb' 0 8).toNat < 41 by omega), ite_self]
  · simp only [dif_neg (show ¬ (w.extractLsb' 8 8).toNat < 8 by omega), dite_eq_ite, ite_self]
  · rw [if_neg h]

theorem stampOperands?_eq_some {v w : Word} {c : Color} (hwl : (v.extractLsb' 16 16).toNat ≤ 600)
    (hc : colorOf? (w.extractLsb' 8 8) = some c) (hres : w.extractLsb' 16 16 = 0) :
    stampOperands? v w = some
      { ox := (v.extractLsb' 0 16).toInt, wl := (v.extractLsb' 16 16).toNat,
        bits := w.extractLsb' 0 8, color := c } := by
  rw [stampOperands?, if_pos ⟨hwl, hres⟩, hc]

theorem stampOperands?_eq_none {v w : Word}
    (h : 600 < (v.extractLsb' 16 16).toNat ∨
      w.extractLsb' 8 8 ∉ ([0, 1, 2, 3, 5, 6] : List Byte) ∨ w.extractLsb' 16 16 ≠ 0) :
    stampOperands? v w = none := by
  unfold stampOperands?
  rcases h with h | h | h
  · rw [if_neg fun hok => Nat.not_le.2 h hok.1]
  · rw [colorOf?_eq_none h, ite_self]
  · rw [if_neg fun hok => h hok.2]

/-! ### What the operations answer (R332, R338, R340) -/

theorem execFillLine_ok {k : Byte} {c : Color} (s : State) (hk : colorOf? k = some c) :
    execFillLine k s = .next (fillLinebuf c s).complete := by
  simp [execFillLine, hk]

theorem execFillLine_badOperand {k : Byte} (s : State) (hk : colorOf? k = none) :
    execFillLine k s = .next (s.errorEntry .badOperand) := by
  simp [execFillLine, raiseError, hk]

theorem execGlyphRow_ok {s : State} {g : Fin 41} {r : Fin 8}
    (h : glyphRowOperands? s.arg1 = some (g, r)) :
    execGlyphRow s = .next (State.complete { s with result := (glyphByte s g r).setWidth 32 }) := by
  simp [execGlyphRow, h]

theorem execGlyphRow_badOperand {s : State} (h : glyphRowOperands? s.arg1 = none) :
    execGlyphRow s = .next (s.errorEntry .badOperand) := by
  simp [execGlyphRow, raiseError, h]

theorem execStampGlyph_ok {s : State} {o : StampOperands}
    (h : stampOperands? s.arg0 s.arg1 = some o) :
    execStampGlyph s = .next (stamp o.ox o.wl o.bits o.color s).complete := by
  simp [execStampGlyph, h]

theorem execStampGlyph_badOperand {s : State} (h : stampOperands? s.arg0 s.arg1 = none) :
    execStampGlyph s = .next (s.errorEntry .badOperand) := by
  simp [execStampGlyph, raiseError, h]

/-! ### The glyph table (R333) -/

section
variable {ch : Byte}

theorem glyphIndexOf_digit (h : 0x30 ≤ ch.toNat ∧ ch.toNat ≤ 0x39) :
    (glyphIndexOf ch).val = ch.toNat - 0x30 := by
  rw [glyphIndexOf, dif_pos h]

theorem glyphIndexOf_upper (h : 0x41 ≤ ch.toNat ∧ ch.toNat ≤ 0x5A) :
    (glyphIndexOf ch).val = ch.toNat - 0x41 + 10 := by
  rw [glyphIndexOf, dif_neg (by omega), dif_pos h]

theorem glyphIndexOf_lower (h : 0x61 ≤ ch.toNat ∧ ch.toNat ≤ 0x7A) :
    (glyphIndexOf ch).val = ch.toNat - 0x61 + 10 := by
  rw [glyphIndexOf, dif_neg (by omega), dif_neg (by omega), dif_pos h]

theorem glyphIndexOf_other (hd : ¬ (0x30 ≤ ch.toNat ∧ ch.toNat ≤ 0x39))
    (hu : ¬ (0x41 ≤ ch.toNat ∧ ch.toNat ≤ 0x5A)) (hl : ¬ (0x61 ≤ ch.toNat ∧ ch.toNat ≤ 0x7A))
    (hs : ch ∉ ([0x20, 0x2E, 0x3A, 0x2D, 0x25] : List Byte)) : (glyphIndexOf ch).val = 36 := by
  simp only [List.mem_cons, List.not_mem_nil, or_false, ← BitVec.toNat_inj, BitVec.ofNat_eq_ofNat,
    BitVec.toNat_ofNat] at hs
  rw [glyphIndexOf, dif_neg hd, dif_neg hu, dif_neg hl, if_neg (by omega), if_neg (by omega),
    if_neg (by omega), if_neg (by omega)]
  rfl

end

/-! ### The columns of a stamp (R339, R341) -/

/-- A pixel belongs to one column of a stamp only, the one its distance from the origin gives. -/
theorem stampCovers_iff {ox : Int} {wl : Nat} {bits : Byte} {x : Nat} :
    stampCovers ox wl bits x ↔ x < wl ∧ ox ≤ x ∧ (x : Int) < ox + 32 ∧
      bits.getLsbD (((x : Int) - ox) / 4).toNat = true := by
  refine and_congr_right fun _ => ⟨?_, ?_⟩
  · rintro ⟨c, hc, hbit, hlow, hhigh⟩
    have hcol : (((x : Int) - ox) / 4).toNat = c := by omega
    exact ⟨by omega, by omega, hcol ▸ hbit⟩
  · rintro ⟨hlow, hhigh, hbit⟩
    exact ⟨_, by omega, hbit, by omega, by omega⟩

/-- The width limit only cuts a stamp off: below two limits it covers the same pixels (R344). -/
theorem stampCovers_widthLimit {ox : Int} {wl wl' : Nat} {bits : Byte} {x : Nat} (h : x < wl)
    (h' : x < wl') : stampCovers ox wl bits x ↔ stampCovers ox wl' bits x :=
  and_congr_left' (iff_of_true h h')

/-- A stamp moved with its line by d pixels covers the moved pixels (R345). -/
theorem stampCovers_add_right (ox : Int) (wl : Nat) (bits : Byte) (x d : Nat) :
    stampCovers ox (wl + d) bits (x + d) ↔ stampCovers (ox - d) wl bits x := by
  refine and_congr (by omega) (exists_congr fun c => ?_)
  refine and_congr_right fun _ => and_congr_right fun _ => and_congr ?_ ?_ <;> omega

/-! ### The obligations -/

/-- Settles O46: the check passes for a color, and the fill gives every byte. -/
theorem fillLineFillsTheLine : Obligations.FillLineFillsTheLine := by
  refine fun s k => ⟨fun hk => ?_, fun hk => execFillLine_badOperand s (colorOf?_eq_none hk)⟩
  obtain ⟨c, hc, rfl⟩ := colorOf?_of_mem hk
  refine ⟨_, execFillLine_ok s hc, fun a => ?_⟩
  rw [← fillByte_eq_shift_or]
  exact ram_fillLinebuf c s a

/-- Settles O47, one range or symbol of the table after another. -/
theorem glyphIndexFollowsTheTable : Obligations.GlyphIndexFollowsTheTable := by
  refine fun s ch => ⟨(glyphIndexOf ch).val, (glyphIndexOf ch).isLt, rfl, glyphIndexOf_digit,
    glyphIndexOf_upper, glyphIndexOf_lower, ?_, ?_, ?_, ?_, ?_, glyphIndexOf_other⟩ <;>
  · rintro rfl
    rfl

/-- Settles O49: the checks pass, the stamp colors the pixels it covers, and it writes inside
LINEBUF alone. -/
theorem stampGlyphPaintsExactlyItsPixels : Obligations.StampGlyphPaintsExactlyItsPixels := by
  intro s ox wl bits k
  refine ⟨fun hwl hk hres => ?_,
    fun hbad => execStampGlyph_badOperand (stampOperands?_eq_none hbad)⟩
  obtain ⟨c, hc, hkc⟩ := colorOf?_of_mem hk
  have hexec := execStampGlyph_ok (stampOperands?_eq_some hwl hc hres)
  obtain ⟨m, hm, -, hram⟩ := lineOnly_stamp ox wl bits c s hwl
  have hdone : { s with mem := m, run := false, seq := [] } = (stamp ox wl bits c s).complete := by
    rw [hm]; rfl
  refine ⟨m, hdone ▸ hexec, fun x _ => ⟨fun hx => ?_, fun hx => ?_⟩, fun a ha => ?_⟩
  · rw [hdone, linePixel_complete, linePixel_stamp_pos c s hx, hkc, extract_low]
  · rw [hdone, linePixel_complete, linePixel_stamp_neg c s hx]
  · rw [hdone, ram_complete, hram a ha]

/-- Settles O50: a column left of the boundary lies below both width limits, and one right of it is
covered by the Slave stamp exactly when the undivided stamp covers it, 600 pixels on. -/
theorem splitStampIsLossless : Obligations.SplitStampIsLossless := by
  intro X0 bits X hX
  have hwhole : stampCovers X0 1200 bits X ↔ X0 ≤ X ∧ (X : Int) < X0 + 32 ∧
      bits.getLsbD (((X : Int) - X0) / 4).toNat = true :=
    stampCovers_iff.trans (and_iff_right hX)
  rw [← hwhole, mem_stampPixels, mem_stampPixels]
  by_cases h : X < 600
  · simp only [h, Nat.not_le.2 h, true_and, false_and, or_false]
    exact stampCovers_widthLimit h hX
  · obtain ⟨x, rfl⟩ := Nat.exists_eq_add_of_le' (Nat.not_lt.1 h)
    simp only [h, Nat.le_add_left, Nat.add_sub_cancel, true_and, false_and, false_or]
    exact (stampCovers_add_right X0 600 bits x 600).symm

/-- Settles O48: the operands pass, or one of them is out of range. -/
theorem glyphRowReadsTheRom : Obligations.GlyphRowReadsTheRom := by
  refine fun s => ⟨fun g r harg => ?_, fun hbad =>
    execGlyphRow_badOperand (glyphRowOperands?_eq_none hbad)⟩
  exact execGlyphRow_ok (harg ▸ glyphRowOperands?_append g r)

end Sys2Proof.Machine
end

section
/-! SUPPORT. The clear and boot-splash composer (spec/45_composer.md): its checks, the pixels of a
rendered scanline and what they depend on, the runs of its event lists, and the image that the panel
receives from them. Then the obligations about it, settled from these. -/

namespace Sys2Proof.Machine

/-! ### The checks (R370, R384) -/

theorem textlensOk_eq_false {s : State} (h : ∃ b : Fin 6, 64 < (s.textlen[b.val]).toNat) :
    textlensOk s = false := by
  obtain ⟨b, hb⟩ := h
  refine List.all_eq_false.2 ⟨s.textlen[b.val], by simp, ?_⟩
  exact fun hle => Nat.not_le.2 hb (of_decide_eq_true hle)

theorem execClear_badOperand {c : Byte} (s : State) (hc : colorOf? c = none) :
    execClear c s = .next (s.errorEntry .badOperand) := by
  simp [execClear, raiseError, hc]

/-- A color that is a code leaves the checks of R250. -/
theorem execClear_eq_seqChecked {c : Byte} {k : Color} (s : State) (hc : colorOf? c = some k) :
    execClear c s = seqChecked s (.next ((fillLinebuf k s).load (composeProg .flat))) := by
  simp [execClear, hc]

theorem execSplash_badOperand {s : State} (h : textlensOk s = false) :
    execSplash s = .next (s.errorEntry .badOperand) := by
  simp [execSplash, raiseError, h]

/-- Lengths within bounds leave the checks of R250. -/
theorem execSplash_eq_seqChecked {s : State} (h : textlensOk s = true) :
    execSplash s = seqChecked s (.next (s.load (composeProg .splash))) := by
  simp [execSplash, h]

/-! ### Bands (R373) -/

theorem bandOf_val (y : Nat) : (bandOf y).val = min (y / 266) 5 := rfl

theorem bandStart_eq (b : Fin 6) : bandStart b = 266 * b.val := rfl

theorem bandRows_eq (b : Fin 6) : bandRows b = if b.val = 5 then 270 else 266 := rfl

/-- Every scanline lies in its band; the four rows beyond 6 × 266 belong to the last one. -/
theorem mem_bandOf {y : Nat} (hy : y < 1600) :
    bandStart (bandOf y) ≤ y ∧ y < bandStart (bandOf y) + bandRows (bandOf y) := by
  rw [bandStart_eq, bandRows_eq, bandOf_val]
  split <;> omega

/-! ### The pixels of a rendered scanline (R386) -/

/-- A text depends on the lengths and on the RAM bytes outside LINEBUF (R102). -/
theorem text_congr {s t : State} (hlen : t.textlen = s.textlen)
    (hram : ∀ a, ¬ (0x200 ≤ a ∧ a < 0x32C) → t.ram a = s.ram a) (b : Fin 6) :
    t.text b = s.text b := by
  rw [State.text, State.text, hlen]
  exact State.ramBytes_congr _ _ fun a hlow _ => hram a (by unfold textBase at hlow; omega)

open Classical in
/-- The color code that R387 gives absolute pixel (y, X): the text color where a character of the
band's text covers it, the background elsewhere. -/
noncomputable def bandPixel (s : State) (y X : Nat) : BitVec 4 :=
  if textCovers s y X then colorNibble (textColor (bandColorOf s (bandOf y)))
  else colorNibble (bandColorOf s (bandOf y))

theorem bandPixel_pos {s : State} {y X : Nat} (h : textCovers s y X) :
    bandPixel s y X = colorNibble (textColor (bandColorOf s (bandOf y))) := if_pos h

theorem bandPixel_neg {s : State} {y X : Nat} (h : ¬ textCovers s y X) :
    bandPixel s y X = colorNibble (bandColorOf s (bandOf y)) := if_neg h

/-- Scanline y shows text where it lies on a glyph row (R375) and a character's stamp, shifted by
the offset of the half, covers the column. -/
theorem textCovers_iff_stampCovers {s : State} {h : Half} {y x : Nat} (hx : x < 600) :
    textCovers s y (halfOffset h + x) ↔ ∃ r, textRowOf y = some r ∧
      ∃ k ch, (s.text (bandOf y))[k]? = some ch ∧
        stampCovers ((charOrigin s k : Int) - halfOffset h) 600
          (glyphByte s (glyphIndexOf ch) r) x := by
  have hcol (k : Nat) (bits : Byte) :
      stampCovers ((charOrigin s k : Int) - halfOffset h) 600 bits x ↔
        charOrigin s k ≤ halfOffset h + x ∧ halfOffset h + x < charOrigin s k + 32 ∧
          bits.getLsbD ((halfOffset h + x - charOrigin s k) / 4) = true := by
    rw [stampCovers_iff, and_iff_right hx]
    generalize charOrigin s k = o
    generalize halfOffset h = d
    have hc (hlow : o ≤ d + x) : (((x : Int) - ((o : Int) - d)) / 4).toNat = (d + x - o) / 4 := by
      omega
    constructor
    · rintro ⟨hlow, hhigh, hbit⟩
      exact ⟨by omega, by omega, hc (by omega) ▸ hbit⟩
    · rintro ⟨hlow, hhigh, hbit⟩
      exact ⟨by omega, by omega, (hc hlow).symm ▸ hbit⟩
  simp only [textCovers, textRowOf_eq_some, hcol, and_assoc, exists_and_left]

/-- A rendered scanline has the pixels of its band: the fill, and the stamps over it (R386). -/
theorem linePixel_renderLine (s : State) (h : Half) (y : Nat) {x : Nat} (hx : x < 600) :
    linePixel (renderLine h y s) x = bandPixel s y (halfOffset h + x) := by
  have hfill := linePixel_fillLinebuf (bandColorOf s (bandOf y)) s hx
  have hkeep := (lineOnly_fillLinebuf (bandColorOf s (bandOf y)) s).keeps
  unfold renderLine
  cases hrow : textRowOf y with
  | none =>
    rw [bandPixel_neg, hfill]
    simp [textCovers_iff_stampCovers hx, hrow]
  | some r =>
    have hstamp := linePixel_stampText h (bandOf y) r (textColor (bandColorOf s (bandOf y)))
      (fillLinebuf (bandColorOf s (bandOf y)) s) x
    rw [text_congr hkeep.textlen hkeep.ram] at hstamp
    rcases hstamp with ⟨hc, hp⟩ | ⟨hc, hp⟩
    · exact hp.trans (bandPixel_pos ((textCovers_iff_stampCovers hx).2 ⟨r, hrow, hc⟩)).symm
    · refine (hp.trans hfill).trans (bandPixel_neg fun hcov => ?_).symm
      obtain ⟨r', hr', k, ch, hch, hst⟩ := (textCovers_iff_stampCovers hx).1 hcov
      cases hrow.symm.trans hr'
      exact hc k ch hch hst

/-! ### What a scanline depends on -/

/-- LINEBUF depends on the RAMs alone. -/
theorem linebuf_congr {s t : State} (hmem : t.mem = s.mem) (hboot : t.boot = s.boot) :
    t.linebuf = s.linebuf :=
  State.ramBytes_congr _ _ fun a _ _ => by rw [State.ram, State.ram, hmem, hboot]

@[simp] theorem lineProg_withSeq (s : State) (q : List Micro) :
    lineProg (s.withSeq q) = lineProg s := by
  rw [lineProg, lineProg, linebuf_congr (s := s) (t := s.withSeq q) rfl rfl]

theorem ram_eq_linePixel (s : State) (i : Nat) :
    s.ram (0x200 + i) = linePixel s (2 * i) ++ linePixel s (2 * i + 1) := by
  have hodd : (2 * i + 1) / 2 = i := by omega
  have hodd' : (2 * i + 1) % 2 ≠ 0 := by omega
  rw [linePixel, linePixel, if_pos (Nat.mul_mod_right 2 i), if_neg hodd', hodd,
    Nat.mul_div_cancel_left i Nat.two_pos, show linebufBase = 0x200 from rfl]
  have hjoin (b : Byte) : b.extractLsb' 4 4 ++ b.extractLsb' 0 4 = b :=
    BitVec.extractLsb'_append_extractLsb'
  exact (hjoin _).symm

/-- The 600 pixels give the bytes of LINEBUF (R61). -/
theorem linebuf_eq_of_linePixel_eq {s t : State}
    (h : ∀ x, x < 600 → linePixel t x = linePixel s x) : t.linebuf = s.linebuf := by
  rw [linebuf_eq_map, linebuf_eq_map]
  refine List.map_congr_left fun i hi => ?_
  have hi : i < 300 := List.mem_range.1 hi
  rw [ram_eq_linePixel, ram_eq_linePixel, h _ (by omega), h _ (by omega)]

theorem bandPixel_congr {s t : State} (hcfg : t.cfg = s.cfg) (htext : ∀ b, t.text b = s.text b)
    (y X : Nat) : bandPixel t y X = bandPixel s y X := by
  have hcov : textCovers t y X ↔ textCovers s y X := by
    simp only [textCovers, charOrigin, glyphByte, hcfg, htext]
  by_cases h : textCovers s y X
  · rw [bandPixel_pos h, bandPixel_pos (hcov.2 h), bandColorOf, bandColorOf, hcfg]
  · rw [bandPixel_neg h, bandPixel_neg (mt hcov.1 h), bandColorOf, bandColorOf, hcfg]

/-- A rendered scanline does not depend on what LINEBUF held. -/
theorem linebuf_renderLine_congr {s t : State} (hcfg : t.cfg = s.cfg)
    (hlen : t.textlen = s.textlen) (hram : ∀ a, ¬ (0x200 ≤ a ∧ a < 0x32C) → t.ram a = s.ram a)
    (h : Half) (y : Nat) : (renderLine h y t).linebuf = (renderLine h y s).linebuf := by
  refine linebuf_eq_of_linePixel_eq fun x hx => ?_
  rw [linePixel_renderLine t h y hx, linePixel_renderLine s h y hx]
  exact bandPixel_congr hcfg (text_congr hlen hram) _ _

/-- The state whose LINEBUF is scanline y of half h of a picture (R370, R384). -/
def pictured (pic : Picture) (h : Half) (y : Nat) (s : State) : State :=
  match pic with
  | .flat => s
  | .splash => renderLine h y s

/-- t holds what the picture is drawn from as s does: for the flat picture every RAM byte, for the
splash those outside LINEBUF. -/
structure SamePicture (pic : Picture) (s t : State) : Prop where
  cfg : t.cfg = s.cfg
  textlen : t.textlen = s.textlen
  ram : ∀ a, pic = .flat ∨ ¬ (0x200 ≤ a ∧ a < 0x32C) → t.ram a = s.ram a

namespace SamePicture

theorem trans {pic : Picture} {s t u : State} (h : SamePicture pic s t)
    (k : SamePicture pic t u) : SamePicture pic s u :=
  ⟨k.cfg.trans h.cfg, k.textlen.trans h.textlen, fun a ha => (k.ram a ha).trans (h.ram a ha)⟩

theorem linebuf_pictured {pic : Picture} {s t : State} (h : SamePicture pic s t) (hf : Half)
    (y : Nat) : (pictured pic hf y t).linebuf = (pictured pic hf y s).linebuf := by
  cases pic with
  | flat => exact State.ramBytes_congr _ _ fun a _ _ => h.ram a (.inl rfl)
  | splash => exact linebuf_renderLine_congr h.cfg h.textlen (fun a ha => h.ram a (.inr ha)) hf y

end SamePicture

theorem lineOnly_pictured (pic : Picture) (h : Half) (y : Nat) (s : State) :
    LineOnly s (pictured pic h y s) := by
  cases pic with
  | flat => exact .refl s
  | splash => exact lineOnly_renderLine h y s

theorem samePicture_pictured (pic : Picture) (h : Half) (y : Nat) (s : State) :
    SamePicture pic s (pictured pic h y s) := by
  cases pic with
  | flat => exact ⟨rfl, rfl, fun _ _ => rfl⟩
  | splash =>
    have hkeep := (lineOnly_renderLine h y s).keeps
    exact ⟨hkeep.cfg, hkeep.textlen, fun a ha => hkeep.ram a (ha.resolve_left (by decide))⟩

/-- u holds the picture of s still, and scanline y of half h of it in LINEBUF. -/
structure Shows (pic : Picture) (h : Half) (y : Nat) (s u : State) : Prop
    extends SamePicture pic s u where
  line : u.linebuf = (pictured pic h y s).linebuf

theorem shows_pictured (pic : Picture) (h : Half) (y : Nat) (s : State) :
    Shows pic h y s (pictured pic h y s) := ⟨samePicture_pictured pic h y s, rfl⟩

theorem SamePicture.shows {pic : Picture} {h : Half} {y : Nat} {s t u : State}
    (hst : SamePicture pic s t) (htu : Shows pic h y t u) : Shows pic h y s u :=
  ⟨hst.trans htu.toSamePicture, htu.line.trans (hst.linebuf_pictured h y)⟩

/-- Whether u shows a scanline depends on its RAMs, its parameters and the lengths of its texts. -/
theorem Shows.congr {pic : Picture} {h : Half} {y : Nat} {s u v : State} (hu : Shows pic h y s u)
    (hcfg : v.cfg = u.cfg) (hlen : v.textlen = u.textlen) (hmem : v.mem = u.mem)
    (hboot : v.boot = u.boot) : Shows pic h y s v :=
  ⟨⟨hcfg.trans hu.cfg, hlen.trans hu.textlen, fun a ha => by
    rw [State.ram, hmem, hboot]; exact hu.ram a ha⟩, (linebuf_congr hmem hboot).trans hu.line⟩

/-- The bytes of scanlines 0 to n - 1 of half h of the picture. -/
def pictureBytes (pic : Picture) (h : Half) (n : Nat) (s : State) : List Byte :=
  (List.range n).flatMap fun y => (pictured pic h y s).linebuf

theorem pictureBytes_succ (pic : Picture) (h : Half) (n : Nat) (s : State) :
    pictureBytes pic h (n + 1) s = pictureBytes pic h n s ++ (pictured pic h n s).linebuf := by
  simp [pictureBytes, List.range_succ]

theorem SamePicture.pictureBytes_eq {pic : Picture} {s t : State} (hst : SamePicture pic s t)
    (h : Half) (n : Nat) : pictureBytes pic h n t = pictureBytes pic h n s := by
  simp only [pictureBytes, hst.linebuf_pictured]

/-- The rendered scanlines are the bytes of the splash (R384). -/
theorem pictureBytes_splash (h : Half) (s : State) :
    pictureBytes .splash h 1600 s = splashBytes s h := rfl

/-- The flat picture of a filled LINEBUF is one byte throughout (R370, R331). -/
theorem pictureBytes_flat_fillLinebuf (h : Half) (c : Color) (s : State) :
    pictureBytes .flat h 1600 (fillLinebuf c s) = List.replicate 480000 (fillByte c) := by
  have hline : (fillLinebuf c s).linebuf = List.replicate 300 (fillByte c) := by
    rw [linebuf_eq_map, List.eq_replicate_iff]
    refine ⟨by rw [List.length_map, List.length_range], fun b hb => ?_⟩
    obtain ⟨i, hi, rfl⟩ := List.mem_map.1 hb
    have hi : i < 300 := List.mem_range.1 hi
    rw [ram_fillLinebuf, if_pos (by omega)]
  simp only [pictureBytes, pictured, hline]
  rw [List.flatMap_def, List.map_const', List.length_range, List.flatten_replicate_replicate]

/-! ### Streaming the scanlines of a half (R303, R306) -/

/-- The state after n lines with the bytes bs, the RAMs at m. -/
def State.linesSent (s : State) (m : Memory) (n : Nat) (bs : List Byte) : State :=
  { s with
    mem := m, dc := true, linecnt := s.linecnt + BitVec.ofNat 16 n,
    trace := s.trace ++ dataEvents s bs }

theorem Moving.linesSent {s : State} (h : Moving s) (m : Memory) (n : Nat) (bs : List Byte) :
    Moving (s.linesSent m n bs) := ⟨h.run, h.turns⟩

theorem linesSent_linesSent (s : State) (m m' : Memory) (n n' : Nat) (bs bs' : List Byte) :
    (s.linesSent m n bs).linesSent m' n' bs' = s.linesSent m' (n + n') (bs ++ bs') := by
  simp [State.linesSent, dataEvents, BitVec.ofNat_add, BitVec.add_assoc]

theorem rowsStep_of_lt (pic : Picture) (h : Half) {y : Nat} (hy : y < 1600) (s : State) :
    rowsStep pic h y s = (pictured pic h y s).withSeq
      (lineProg (pictured pic h y s) ++ .rows pic h (y + 1) :: s.seq) := by
  unfold rowsStep
  rw [if_pos (show y < panelHeight from hy)]
  cases pic <;> rfl

theorem linebuf_ne_nil (s : State) : s.linebuf ≠ [] := by simp [linebuf_eq_map]

/-- A line begins with its first byte. -/
theorem settle_lineProg (s : State) (r : List Micro) :
    s.settle (lineProg s ++ r) = s.withSeq (lineProg s ++ r) := by
  obtain ⟨b, bs, hb⟩ := List.exists_cons_of_ne_nil (linebuf_ne_nil s)
  rw [lineProg, hb]
  rfl

section
variable {s : State} (h : Moving s) (pic : Picture) (hf : Half)
include h

theorem Reaches.settleLineProg (r : List Micro) :
    Reaches (s.settle (lineProg s ++ r)) ((s.linesSent s.mem 1 s.linebuf).settle r) := by
  rw [lineProg, List.append_assoc]
  exact Reaches.settleData h s.linebuf (linebuf_ne_nil s) _

/-- One scanline: it is drawn, sent and counted. -/
theorem Reaches.settleRow {y : Nat} (hy : y < 1600) (r : List Micro) :
    ∃ m, Shows pic hf y s { s with mem := m } ∧
      Reaches (s.settle (.rows pic hf y :: r))
        ((s.linesSent m 1 (pictured pic hf y s).linebuf).settle (.rows pic hf (y + 1) :: r)) := by
  obtain ⟨m, hm, -⟩ := lineOnly_pictured pic hf y (s.withSeq r)
  replace hm : pictured pic hf y (s.withSeq r) = State.withSeq { s with mem := m } r := hm
  have hshows : Shows pic hf y s { s with mem := m } := by
    have hdrawn := shows_pictured pic hf y (s.withSeq r)
    rw [hm] at hdrawn
    have hsame : SamePicture pic s (s.withSeq r) := ⟨rfl, rfl, fun _ _ => rfl⟩
    exact (hsame.shows hdrawn).congr rfl rfl rfl rfl
  refine ⟨m, hshows, ?_⟩
  have hstep := Reaches.one (s := s.withSeq (.rows pic hf y :: r)) h.turns
    (sequencerTurn_rows h.run rfl)
  have hsend := Reaches.settleLineProg (s := { s with mem := m }) ⟨h.run, h.turns⟩
    (.rows pic hf (y + 1) :: r)
  rw [State.withSeq_withSeq, rowsStep_of_lt pic hf hy, hm, lineProg_withSeq,
    State.withSeq_withSeq] at hstep
  rw [settle_lineProg, hshows.line] at hsend
  exact hstep.trans hsend

/-- Scanlines 0 to n. -/
theorem Reaches.settleRows {n : Nat} (hn : n < 1600) (r : List Micro) :
    ∃ m, Shows pic hf n s { s with mem := m } ∧
      Reaches (s.settle (.rows pic hf 0 :: r))
        ((s.linesSent m (n + 1) (pictureBytes pic hf (n + 1) s)).settle
          (.rows pic hf (n + 1) :: r)) := by
  induction n with
  | zero =>
    obtain ⟨m, hshows, hrow⟩ := Reaches.settleRow h pic hf hn r
    exact ⟨m, hshows, by simpa [pictureBytes] using hrow⟩
  | succ n ih =>
    obtain ⟨m, hshows, hrows⟩ := ih (by omega)
    have hsame : SamePicture pic s (s.linesSent m (n + 1) (pictureBytes pic hf (n + 1) s)) :=
      (hshows.congr (v := s.linesSent m (n + 1) _) rfl rfl rfl rfl).toSamePicture
    obtain ⟨m', hshows', hrow⟩ := Reaches.settleRow
      (h.linesSent m (n + 1) (pictureBytes pic hf (n + 1) s)) pic hf hn r
    rw [linesSent_linesSent, hsame.linebuf_pictured, ← pictureBytes_succ] at hrow
    exact ⟨m', (hsame.shows hshows').congr rfl rfl rfl rfl, hrows.trans hrow⟩

/-- After the last scanline the session goes on. -/
theorem Reaches.settleRowsEnd (r : List Micro) :
    Reaches (s.settle (.rows pic hf 1600 :: r)) (s.settle r) := by
  have hstep := Reaches.one (s := s.withSeq (.rows pic hf 1600 :: r)) h.turns
    (sequencerTurn_rows h.run rfl)
  have hend : rowsStep pic hf 1600 (s.withSeq r) = (s.withSeq r).settle r :=
    if_neg (by decide)
  rw [State.withSeq_withSeq, hend, State.settle_withSeq] at hstep
  exact hstep

end

/-! ### A session of a half, and the whole operation (R371, R372) -/

/-- The state in the session of a half, its line-write command sent (R301). -/
def State.opened (s : State) : Half → State
  | .master =>
    { s with
      csM := false, csS := true, dc := false, session := some .master, linecnt := 0,
      trace := s.trace ++ [.setCS .s true, .setCS .m false, .tx .cmd 0x10 false true] }
  | .slave =>
    { s with
      csM := true, csS := false, dc := false, session := some .slave, linecnt := 0,
      trace := s.trace ++ [.setCS .m true, .setCS .s false, .tx .cmd 0x10 true false] }

theorem Moving.opened {s : State} (h : Moving s) (hf : Half) : Moving (s.opened hf) := by
  cases hf <;> exact ⟨h.run, h.turns⟩

/-- The state after a session of half hf with the 1600 lines bs, the RAMs at m. -/
def State.sessionSent (s : State) (m : Memory) (hf : Half) (bs : List Byte) : State :=
  { s with
    mem := m, csM := true, csS := true, dc := true, session := none, linecnt := 1600,
    trace := s.trace ++ sessionEvents hf bs }

theorem Moving.sessionSent {s : State} (h : Moving s) (m : Memory) (hf : Half) (bs : List Byte) :
    Moving (s.sessionSent m hf bs) := ⟨h.run, h.turns⟩

theorem samePicture_opened (pic : Picture) (s : State) (hf : Half) :
    SamePicture pic s (s.opened hf) := by
  cases hf <;> exact ⟨rfl, rfl, fun _ _ => rfl⟩

theorem closeSession_linesSent_opened (s : State) (m : Memory) (hf : Half) (bs : List Byte) :
    (plainEmit ((s.opened hf).linesSent m 1600 bs) (.setCS (halfLines hf) true)).applyAct
      .closeSession = s.sessionSent m hf bs := by
  cases hf <;>
    simp [plainEmit_setCS, State.opened, State.linesSent, State.sessionSent, State.applyAct,
      halfLines, Lines.has, sessionEvents, dataEvents]

section
variable {s : State} (h : Moving s)
include h

theorem Reaches.settleOpenFrame (hf : Half) (r : List Micro) :
    Reaches (s.settle (openFrameProg hf ++ r)) ((s.opened hf).settle r) := by
  have hselect := RunsTo.settlePlain [.setCS (halfLines (otherHalf hf)) true,
    .setCS (halfLines hf) false] h rfl (.wire 0x10 :: .act (.openSession hf) :: r)
  have hmoving := h.foldl_plainEmit [.setCS (halfLines (otherHalf hf)) true,
    .setCS (halfLines hf) false]
  have hcommand := (Reaches.settlePanel hmoving (b := 0x10) (i := .wireLineWrite) rfl _).trans
    ⟨_, RunsTo.settlePlain [.tx .cmd 0x10] hmoving rfl (.act (.openSession hf) :: r)⟩
  have hrun := Reaches.trans ⟨_, hselect⟩ hcommand
  cases hf <;>
    simpa [plainEmit_setCS, plainEmit_cmd, openFrameProg, State.opened, State.applyAct, halfLines,
      otherHalf, Lines.has] using hrun

theorem Reaches.settleCloseFrame (hf : Half) (r : List Micro) :
    Reaches (s.settle (closeFrameProg hf ++ r))
      (((plainEmit s (.setCS (halfLines hf) true)).applyAct .closeSession).settle r) :=
  ⟨_, RunsTo.settlePlain [.setCS (halfLines hf) true] h rfl (.act .closeSession :: r)⟩

/-- One session: the opening, the 1600 scanlines and the closing. -/
theorem Reaches.settleSession (pic : Picture) (hf : Half) (r : List Micro) :
    ∃ m, Shows pic hf 1599 s { s with mem := m } ∧
      Reaches (s.settle (frameProg pic hf ++ r))
        ((s.sessionSent m hf (pictureBytes pic hf 1600 s)).settle r) := by
  have hsame := samePicture_opened pic s hf
  have hopened := h.opened hf
  obtain ⟨m, hshows, hrows⟩ :=
    Reaches.settleRows hopened pic hf (by decide : 1599 < 1600) (closeFrameProg hf ++ r)
  have hsent := hopened.linesSent m 1600 (pictureBytes pic hf 1600 s)
  have hclose := Reaches.settleCloseFrame hsent hf r
  rw [closeSession_linesSent_opened] at hclose
  simp only [hsame.pictureBytes_eq, Nat.reduceAdd] at hrows
  refine ⟨m, ?_, ?_⟩
  · cases hf <;> exact (hsame.shows hshows).congr rfl rfl rfl rfl
  · have hopen := Reaches.settleOpenFrame h hf (.rows pic hf 0 :: (closeFrameProg hf ++ r))
    have hend := Reaches.settleRowsEnd hsent pic hf (closeFrameProg hf ++ r)
    have hrun := hopen.trans (hrows.trans (hend.trans hclose))
    rwa [frameProg, List.append_assoc, List.cons_append]

/-- A composer operation from the idle levels: both sessions, Master first, and then the display
update. -/
theorem Reaches.compose (pic : Picture) {k j : Nat} {rest : List Bool}
    (hs : s.session = none) (hm : s.csM = true) (hc : s.csS = true)
    (ha : answersAfter s k (List.replicate j false ++ true :: rest))
    (hj : ∀ n : ℕ+, s.cfg.busyPollLimit = some n → j < n) :
    ∃ m, Shows pic .slave 1599 s { s with mem := m } ∧
      Reaches (s.load (composeProg pic))
        { s with
          life := .displaying, linecnt := 1600, busyIn := rest, busys := true, hcount := j,
          dc := true, mem := m,
          trace := s.trace ++ sessionEvents .master (pictureBytes pic .master 1600 s) ++
            sessionEvents .slave (pictureBytes pic .slave 1600 s) ++ powerOnEvents k ++
            refreshEvents j,
          run := false, seq := [] } := by
  obtain ⟨m, hshows, hmaster⟩ := Reaches.settleSession h pic .master
    (frameProg pic .slave ++ (powerOnProg ++ (refreshProg ++ [.act (.setLife .displaying)])))
  generalize pictureBytes pic .master 1600 s = bs at hmaster ⊢
  have hsame : SamePicture pic s (s.sessionSent m .master bs) :=
    (hshows.congr (v := s.sessionSent m .master bs) rfl rfl rfl rfl).toSamePicture
  have hsent := h.sessionSent m .master bs
  obtain ⟨m', hshows', hslave⟩ := Reaches.settleSession hsent pic .slave
    (powerOnProg ++ (refreshProg ++ [.act (.setLife .displaying)]))
  rw [hsame.pictureBytes_eq] at hslave
  generalize pictureBytes pic .slave 1600 s = bs' at hslave ⊢
  have hboth := hsent.sessionSent m' .slave bs'
  have hon := hboth.poweredOn k (List.replicate j false ++ true :: rest)
  have hrun := hmaster.trans (hslave.trans ((Reaches.settlePowerOn hboth ha _).trans
    ((Reaches.settleRefresh hon ⟨rfl, hj⟩ _).trans
      (Reaches.settleSetLife (hon.refreshed j rest) .displaying))))
  refine ⟨m', (hsame.shows hshows').congr rfl rfl rfl rfl, ?_⟩
  simpa [composeProg, State.load, State.sessionSent, State.poweredOn, State.refreshed, hs, hm, hc]
    using hrun

end

/-! ### The received image (R126, R387) -/

section
variable (h : Half) (acc : Collected)

/-- Events that are no bytes are none to the image (R126). -/
theorem foldl_collect_noBytes {es : List Event}
    (hes : ∀ e ∈ es, ∀ k b csm css, e ≠ .tx k b csm css) : es.foldl (collect h) acc = acc := by
  induction es with
  | nil => rfl
  | cons e es ih =>
    have he : collect h acc e = acc := by
      cases e with
      | tx k b csm css => exact absurd rfl (hes _ List.mem_cons_self k b csm css)
      | _ => rfl
    rw [List.foldl_cons, he]
    exact ih fun e he' => hes e (List.mem_cons_of_mem _ he')

/-- Data bytes sent while the half is deselected (R117, G4), or after another command than the
line-write command, are ignored. -/
theorem foldl_collect_data_ignored {csm css : Bool}
    (hign : csDuring h csm css = true ∨ acc.more = false) (bs : List Byte) :
    (bs.map fun b => Event.tx .data b csm css).foldl (collect h) acc = acc := by
  induction bs with
  | nil => rfl
  | cons b bs ih =>
    have hb : collect h acc (.tx .data b csm css) = acc := by
      rcases hign with hcs | hmore
      · simp [collect, hcs]
      · simp [collect, hmore]
    rw [List.map_cons, List.foldl_cons, hb, ih]

/-- Data bytes after a line-write command are collected. -/
theorem foldl_collect_data_selected {csm css : Bool} (hcs : csDuring h csm css = false)
    (bs ds : List Byte) : (bs.map fun b => Event.tx .data b csm css).foldl (collect h)
      ⟨some ds, true⟩ = ⟨some (bs.reverse ++ ds), true⟩ := by
  induction bs generalizing ds with
  | nil => rfl
  | cons b bs ih => simpa [collect, hcs] using ih (b :: ds)

/-- A session of the half begins its image anew, whatever came before. -/
theorem foldl_collect_ownSession (bs : List Byte) :
    (sessionEvents h bs).foldl (collect h) acc = ⟨some bs.reverse, true⟩ := by
  cases h with
  | master =>
    simpa [sessionEvents, collect, csDuring, otherHalf] using
      foldl_collect_data_selected .master (csm := false) (css := true) rfl bs []
  | slave =>
    simpa [sessionEvents, collect, csDuring, otherHalf] using
      foldl_collect_data_selected .slave (csm := true) (css := false) rfl bs []

/-- A session of the other half is ignored. -/
theorem foldl_collect_otherSession (bs : List Byte) :
    (sessionEvents (otherHalf h) bs).foldl (collect h) acc = acc := by
  cases h with
  | master =>
    simpa [sessionEvents, collect, csDuring, otherHalf] using
      foldl_collect_data_ignored .master acc (csm := true) (css := false) (.inl rfl) bs
  | slave =>
    simpa [sessionEvents, collect, csDuring, otherHalf] using
      foldl_collect_data_ignored .slave acc (csm := false) (css := true) (.inl rfl) bs

/-- A command to both halves is no line-write command, and its data bytes are no pixels. -/
theorem foldl_collect_frameBoth (c : Byte) (bs : List Byte) :
    (frameBothEvents c bs).foldl (collect h) acc = ⟨acc.bytes, false⟩ := by
  have hcs (hf : Half) : csDuring hf false false = false := by cases hf <;> rfl
  simpa [frameBothEvents, collect, hcs] using
    foldl_collect_data_ignored h ⟨acc.bytes, false⟩ (csm := false) (css := false) (.inr rfl) bs

theorem foldl_collect_wait (k : Nat) : (waitEvents k).foldl (collect h) acc = acc := by
  refine foldl_collect_noBytes h acc fun e he => ?_
  simp only [waitEvents, List.mem_append, List.mem_flatten, List.mem_replicate] at he
  rcases he with ⟨_, ⟨-, rfl⟩, he⟩ | he <;>
  · simp only [List.mem_cons, List.not_mem_nil, or_false] at he
    rcases he with rfl | rfl | rfl <;> simp

/-- The display update leaves the bytes received as they are. -/
theorem foldl_collect_displayUpdate (k j : Nat) :
    ((powerOnEvents k ++ refreshEvents j).foldl (collect h) acc).bytes = acc.bytes := by
  simp [powerOnEvents, refreshEvents, foldl_collect_frameBoth, foldl_collect_wait, collect]

end

/-- After a session of each half and the display update, either half holds the bytes of its own
session. -/
theorem receivedBytes_sessions (tr : List Event) (bytes : Half → List Byte) (k j : Nat) (h : Half) :
    receivedBytes h (tr ++ sessionEvents .master (bytes .master) ++
      sessionEvents .slave (bytes .slave) ++ powerOnEvents k ++ refreshEvents j) =
      some (bytes h) := by
  rw [receivedBytes, List.append_assoc, List.foldl_append, foldl_collect_displayUpdate,
    List.foldl_append, List.foldl_append]
  cases h with
  | master =>
    rw [foldl_collect_ownSession, show Half.slave = otherHalf .master from rfl,
      foldl_collect_otherSession]
    simp
  | slave =>
    rw [foldl_collect_ownSession]
    simp

theorem linebuf_getElem? (s : State) {i : Nat} (hi : i < 300) :
    s.linebuf[i]? = some (s.ram (0x200 + i)) := by
  simp [linebuf_eq_map, hi]

theorem pictureBytes_length (pic : Picture) (h : Half) (n : Nat) (s : State) :
    (pictureBytes pic h n s).length = 300 * n := by
  induction n with
  | zero => rfl
  | succ n ih =>
    rw [pictureBytes_succ, List.length_append, ih, State.linebuf_length, Nat.mul_succ]
    rfl

/-- Byte i of scanline y stands at 300 y + i. -/
theorem pictureBytes_getElem? (pic : Picture) (h : Half) {n y i : Nat} (s : State) (hy : y < n)
    (hi : i < 300) :
    (pictureBytes pic h n s)[300 * y + i]? = (pictured pic h y s).linebuf[i]? := by
  induction n with
  | zero => omega
  | succ n ih =>
    have hlen := pictureBytes_length pic h n s
    rw [pictureBytes_succ]
    by_cases hlast : y = n
    · subst hlast
      rw [List.getElem?_append_right (by omega), hlen, Nat.add_sub_cancel_left]
    · rw [List.getElem?_append_left (by omega), ih (by omega)]

/-- A half that has received the bytes of the splash shows the pixels of the rendered scanlines. -/
theorem receivedPixel_eq_linePixel {h : Half} {tr : List Event} {s : State} {y x : Nat}
    (htr : receivedBytes h tr = some (splashBytes s h)) (hy : y < 1600) (hx : x < 600) :
    receivedPixel h tr y x = some (linePixel (renderLine h y s) x) := by
  have hlen : (splashBytes s h).length = panelHeight * lineBytes :=
    pictureBytes_length .splash h 1600 s
  have hbyte : (splashBytes s h)[lineBytes * y + x / 2]? =
      some ((renderLine h y s).ram (0x200 + x / 2)) :=
    (pictureBytes_getElem? .splash h s hy (by omega)).trans (linebuf_getElem? _ (by omega))
  unfold receivedPixel
  simp only [htr, hbyte, if_pos (show _ ∧ y < panelHeight ∧ x < halfWidth from ⟨hlen, hy, hx⟩)]
  rfl

/-- Either half shows its columns of the panel (R126). -/
theorem panelPixel_eq_bandPixel {tr : List Event} {s : State} {y X : Nat}
    (htr : ∀ h, receivedBytes h tr = some (splashBytes s h)) (hy : y < 1600) (hX : X < 1200) :
    panelPixel tr y X = some (bandPixel s y X) := by
  by_cases h : X < 600
  · rw [panelPixel, if_pos (show X < halfWidth from h), receivedPixel_eq_linePixel (htr _) hy h,
      linePixel_renderLine s .master y h, show halfOffset .master = 0 from rfl, Nat.zero_add]
  · rw [panelPixel, if_neg (show ¬ X < halfWidth from h), show halfOffset .slave = 600 from rfl,
      receivedPixel_eq_linePixel (htr _) hy (by omega), linePixel_renderLine s .slave y (by omega),
      show halfOffset .slave = 600 from rfl, Nat.add_sub_cancel' (by omega)]

/-! ### The obligations -/

/-- Settles O51: the bands by arithmetic, the windows and colors one by one. -/
theorem bandsWindowsAndTextColors : Obligations.BandsWindowsAndTextColors := by
  refine ⟨fun y hy => mem_bandOf hy, fun b => ⟨bandStart_eq b, bandRows_eq b⟩,
    rfl, rfl, rfl, rfl, rfl, rfl, fun bg => ?_⟩
  cases bg <;> decide

/-- Settles O55: the operand first, and then the checks of R250. -/
theorem composerChecksInOrder : Obligations.ComposerChecksInOrder := by
  refine fun s c => ⟨fun hc => execClear_badOperand s (colorOf?_eq_none hc),
    fun hlen => execSplash_badOperand (textlensOk_eq_false hlen), fun hc => ?_, fun hlen => ?_⟩
  · obtain ⟨k, hk, -⟩ := colorOf?_of_mem hc
    simp only [exec, execClear_eq_seqChecked s hk]
    exact ⟨seqChecked_sessionOpen _, seqChecked_csConflict _⟩
  · simp only [exec, execSplash_eq_seqChecked (textlensOk_of_le hlen)]
    exact ⟨seqChecked_sessionOpen _, seqChecked_csConflict _⟩

/-- Settles O52: a rendered scanline has the pixels of its band, and writes LINEBUF alone. -/
theorem renderedLineShowsBandAndText : Obligations.RenderedLineShowsBandAndText := by
  refine fun s h y _ => ⟨fun x hx => ?_, (lineOnly_renderLine h y s).keeps.ram⟩
  rw [linePixel_renderLine s h y hx]
  exact ⟨bandPixel_pos, bandPixel_neg⟩

/-- Settles O53: LINEBUF is filled, and both sessions send it 1600 times. -/
theorem clearStreamsBothHalves : Obligations.ClearStreamsBothHalves := by
  intro s c k j rest ⟨hrun, hturns⟩ hs hm hc hcode ha hj
  obtain ⟨col, hcol, rfl⟩ := colorOf?_of_mem hcode
  obtain ⟨m, hshows, n, hn⟩ :=
    Reaches.compose (s := fillLinebuf col s) ⟨hrun, hturns⟩ .flat hs hm hc ha hj
  rw [pictureBytes_flat_fillLinebuf, pictureBytes_flat_fillLinebuf] at hn
  rw [← fillByte_eq_shift_or]
  refine ⟨_, (execClear_eq_seqChecked s hcol).trans (seqChecked_ok hs hm hc), n, m, j, hn,
    fun a => ?_⟩
  exact (hshows.ram a (.inl rfl)).trans (ram_fillLinebuf col s a)

/-- Settles O54: every scanline is rendered anew, from what no rendering changes. -/
theorem splashStreamsRenderedHalves : Obligations.SplashStreamsRenderedHalves := by
  intro s k j rest ⟨hrun, hturns⟩ hs hm hc hlen ha hj
  obtain ⟨m, hshows, n, hn⟩ := Reaches.compose ⟨hrun, hturns⟩ .splash hs hm hc ha hj
  rw [pictureBytes_splash, pictureBytes_splash] at hn
  exact ⟨_, (execSplash_eq_seqChecked (textlensOk_of_le hlen)).trans (seqChecked_ok hs hm hc),
    n, m, j, hn, hshows.line, fun a ha => hshows.ram a (.inr ha)⟩

/-- Settles O56: each half holds the bytes of its own session, and these are its scanlines. -/
theorem splashImageIsReceived : Obligations.SplashImageIsReceived := by
  intro s tr k j y X hy hX image
  rw [panelPixel_eq_bandPixel (receivedBytes_sessions tr (splashBytes s) k j) hy hX]
  exact ⟨fun h => congrArg some (bandPixel_pos h), fun h => congrArg some (bandPixel_neg h)⟩

end Sys2Proof.Machine
end

section
/-! SUPPORT. Errors and recovery (spec/60_exceptions.md): what an instruction that raises no error
leaves alone, and each cause for which a move of the sequencer records an error. Then the obligations
about errors, settled from these. -/

namespace Sys2Proof.Machine

/-! ### Instructions that raise no error (R411, R422) -/

/-- The driven levels, the last busy sample, the error record and the trace. -/
def State.signals (s : State) : Pins × Bool × Bool × Option ErrCode × Word × List Event :=
  (s.pins, s.busys, s.err, s.errcode, s.errop, s.trace)

theorem State.signals_eq_iff {s t : State} : t.signals = s.signals ↔
    (t.csM = s.csM ∧ t.csS = s.csS ∧ t.rstl = s.rstl ∧ t.pwrl = s.pwrl) ∧ t.busys = s.busys ∧
      t.err = s.err ∧ t.errcode = s.errcode ∧ t.errop = s.errop ∧ t.trace = s.trace := by
  simp only [State.signals, State.pins, Prod.mk.injEq, Pins.mk.injEq]

theorem LineOnly.signals_eq {s t : State} (h : LineOnly s t) : t.signals = s.signals := by
  obtain ⟨m, rfl, -⟩ := h
  rfl

theorem signals_settle (s : State) (p : List Micro) : (s.settle p).signals = s.signals := by
  simp [State.signals, pins_settle]

/-- An instruction raises an error of its checks, or it emits nothing yet and records nothing. -/
theorem Answers.error_or_signals_eq {i : Instr} {s t : State} (h : Answers i s t) :
    (∃ c ∈ checkErrors i, t = s.errorEntry c) ∨ t.signals = s.signals := by
  cases h with
  | error hc => exact .inl ⟨_, hc, rfl⟩
  | done _ => exact .inr rfl
  | line hl _ => exact .inr hl.signals_eq
  | result _ _ => exact .inr rfl
  | loads _ _ _ => exact .inr (signals_settle s _)
  | clear _ _ _ _ _ =>
    exact .inr ((signals_settle _ _).trans (lineOnly_fillLinebuf _ s).signals_eq)
  | panel _ => exact .inr rfl

theorem Answers.error_or_errcode_eq {i : Instr} {s t : State} (h : Answers i s t) :
    (∃ c ∈ checkErrors i, t = s.errorEntry c) ∨ t.errcode = s.errcode :=
  h.error_or_signals_eq.imp_right fun hsig => by
    obtain ⟨-, -, -, hcode, -⟩ := State.signals_eq_iff.1 hsig
    exact hcode

/-! ### The causes of an error (R410, R411) -/

/-- Why a move of the sequencer that begins in s raises an error, u being the state in which it is
raised. -/
inductive ErrorCause (s u : State) : ErrCode → Prop
  | illegal {e : DecodeError} (hs : s.seq.head? = some .start) (hd : decode s.op = .error e) :
    ErrorCause s u .illegalOp
  | check {i : Instr} {c : ErrCode} (hs : s.seq.head? = some .start) (hd : decode s.op = .ok i)
    (hc : c ∈ checkErrors i) : ErrorCause s u c
  | timeout (hs : s.seq.head? = some .poll) (hb : u.busys = false) :
    ErrorCause s u .handshakeTimeout

/-- t is the error entry of an error that a move of the sequencer beginning in s raises. -/
def Raised (s t : State) : Prop :=
  ∃ u c, t = u.errorEntry c ∧ u.op = s.op ∧ ErrorCause s u c

/-- A busy sample times out on a 0, or records no error (R231). -/
theorem pollStep_timeout_or_errcode_eq (s : State) :
    (∃ u : State, pollStep s = u.errorEntry .handshakeTimeout ∧ u.op = s.op ∧ u.busys = false) ∨
      (pollStep s).errcode = s.errcode := by
  obtain ⟨lvl, bi, d, hsample⟩ := sampleBusy_eq s
  unfold pollStep pollAnswer
  simp only [hsample]
  cases lvl with
  | true => exact .inr rfl
  | false =>
    simp only [Bool.false_eq_true, if_false]
    split
    · exact .inl ⟨_, rfl, rfl, rfl⟩
    · exact .inr rfl

theorem emitStep_errcode (e : Event) (s : State) : (emitStep e s).errcode = s.errcode := by
  simp [emitStep]

theorem rowsStep_errcode (p : Picture) (h : Half) (y : Nat) (s : State) :
    (rowsStep p h y s).errcode = s.errcode := by
  unfold rowsStep
  split
  · cases p with
    | flat => rfl
    | splash =>
      obtain ⟨m, hm, -⟩ := lineOnly_renderLine h y s
      simp [hm]
  · exact State.settle_errcode _ _

/-- Of the items that run no instruction, only a busy sample can record an error. -/
theorem microStep_errcode {m : Micro} (hm : m ≠ .poll) (s : State) :
    (microStep m s).errcode = s.errcode := by
  cases m with
  | start => rfl
  | wire b => rfl
  | waitReady => rfl
  | poll => exact absurd rfl hm
  | kick => exact State.emit_errcode s .wdtKick
  | rows p h y => exact rowsStep_errcode p h y s
  | act a =>
    refine (State.settle_errcode _ _).trans ?_
    cases a <;> rfl
  | _ => exact emitStep_errcode _ s

/-- A move of the sequencer records an error for one of the causes, or records none. -/
theorem sequencerTurn_raised_or_errcode_eq {s t : State} (h : sequencerTurn s = .next t) :
    Raised s t ∨ t.errcode = s.errcode := by
  rcases sequencerTurn_cases h with ⟨_, rfl⟩ | ⟨_, _, rfl⟩ |
    ⟨r, _, hs, ⟨⟨e, hd⟩, rfl⟩ | ⟨i, hd, he⟩⟩ |
    ⟨b, r, _, _, ⟨_, rfl⟩ | ⟨i, hd, he⟩⟩ | ⟨m, r, _, hs, _, _, rfl⟩
  · exact .inr rfl
  · exact .inr rfl
  · exact .inl ⟨_, _, rfl, rfl, .illegal (by rw [hs]; rfl) hd⟩
  · rcases (answers_of_exec he).error_or_errcode_eq with ⟨c, hc, rfl⟩ | hcode
    · exact .inl ⟨_, c, rfl, rfl, .check (by rw [hs]; rfl) hd hc⟩
    · exact .inr hcode
  · exact .inr (emitStep_errcode _ _)
  · rw [exec_panel hd] at he
    cases he
    exact .inr (State.settle_errcode _ _)
  · by_cases hm : m = .poll
    · subst hm
      rcases pollStep_timeout_or_errcode_eq (s.withSeq r) with ⟨u, hu, hop, hb⟩ | hcode
      · exact .inl ⟨u, _, hu, hop, .timeout (by rw [hs]; rfl) hb⟩
      · exact .inr hcode
    · exact .inr (microStep_errcode hm _)

/-! ### The host records no error (R423, R425) -/

theorem ctrlWrite_errcode (w : Word) (s : State) : (ctrlWrite w s).errcode =
    if w.getLsbD 0 || w.getLsbD 1 then none else s.errcode := by
  cases h : w.getLsbD 0 with
  | true => rw [ctrlWrite_soft h]; rfl
  | false => rw [ctrlWrite_eq h]; simp

/-- A host write keeps the error code, unless it is a write to CTRL that clears it. -/
theorem hostWrite_errcode_eq_or_none (off : Nat) (w : Word) (s : State) :
    (hostWrite off w s).errcode = s.errcode ∨ (hostWrite off w s).errcode = none := by
  rcases hostWrite_cases off w s with h | ⟨_, h⟩ | ⟨_, h⟩ |
    ⟨_, ⟨_, h⟩ | ⟨_, h⟩ | ⟨_, _, h⟩ | ⟨_, h⟩ | ⟨_, h⟩⟩ <;> rw [h]
  case inr.inl =>
    rw [ctrlWrite_errcode]
    split
    · exact .inr rfl
    · exact .inl rfl
  all_goals exact .inl rfl

/-- A step that records an error code where none stood is a move of the sequencer. -/
theorem step_raised {s s' : State} {c : ErrCode} (h : step s = .next s') (hnone : s.errcode = none)
    (hc : s'.errcode = some c) : ∃ ts, Raised (s.withTurns ts) s' := by
  have recorded : s'.errcode ≠ s.errcode := by simp [hc, hnone]
  obtain ⟨ts, h | ⟨_, rfl⟩ | ⟨off, _, rfl⟩ | ⟨off, w, _, rfl⟩⟩ := step_agents h
  · exact ⟨ts, (sequencerTurn_raised_or_errcode_eq h).resolve_right recorded⟩
  · exact absurd hnone.symm recorded
  · obtain ⟨v, d, hread, -⟩ := hostRead_eq off (s.withTurns ts)
    exact absurd (by rw [hread]; rfl) recorded
  · rcases hostWrite_errcode_eq_or_none off w (s.withTurns ts) with hw | hw
    · exact absurd hw recorded
    · exact absurd (hw.trans hnone.symm) recorded

/-! ### The obligations -/

/-- Settles O14: by the answers of exec, of which only an error entry touches the pins, the error
record or the trace. -/
theorem execAnswersWithAllowedErrorsOnly : Obligations.ExecAnswersWithAllowedErrorsOnly := by
  intro i s
  obtain ⟨t, ht, ha⟩ := exec_answers i s
  refine ⟨t, ht, ha.error_or_signals_eq.imp_right fun hsig => ?_⟩
  obtain ⟨⟨hm, hc, hrst, hpwr⟩, hbusy, herr, hcode, herrop, htrace⟩ := State.signals_eq_iff.1 hsig
  have hk := ha.keeps
  exact ⟨herr, hcode, herrop, htrace, hm, hc, hrst, hpwr, hbusy, hk.op, hk.arg0, hk.arg1,
    hk.textlen, hk.ovr⟩

/-- Settles O15: the error entry leaves the registers as it does from any state, and each cause is
one of the three. -/
theorem stepRecordsOnlyTheOperationsErrors : Obligations.StepRecordsOnlyTheOperationsErrors := by
  intro s s' c h hnone hc
  obtain ⟨ts, u, d, rfl, hop, hcause⟩ := step_raised h hnone hc
  obtain rfl : d = c := by simpa using hc
  refine ⟨by simpa using hop, by simp, by simp, by simp, by simp, by simp, ?_⟩
  cases hcause with
  | illegal hs hd => exact .inl ⟨rfl, hs, _, hd⟩
  | check hs hd hmem => exact .inr (.inl ⟨hs, _, hd, hmem⟩)
  | timeout hs hb => exact .inr (.inr ⟨rfl, hs, by simpa using hb⟩)

/-- Settles O13, field by field. -/
theorem errorEntryDeselectsAndRecords : Obligations.ErrorEntryDeselectsAndRecords := fun code s =>
  congrArg Host.Outcome.next (errorEntry_eq s code)

/-- Settles O16: a CTRL write is never dropped, and each bit clears its own registers. -/
theorem ctrlWriteClearsErrorAndOverrun : Obligations.CtrlWriteClearsErrorAndOverrun := by
  intro s w ts ht h0
  rw [step_write ht rfl (by decide), hostWrite_ctrl, ctrlWrite_eq h0]
  rfl

end Sys2Proof.Machine
end

section
/-! SUPPORT. The two resets (spec/70_reset_and_hazards.md): the state a soft reset leaves, field by
field, and the step that a hardware reset makes. Then the obligations about them, settled from
these. -/

namespace Sys2Proof.Machine

/-! ### The soft reset (R451) -/

/-- Both chip-selects stand high afterwards, and the event is in the trace only if one was low. -/
theorem deselectAll_eq (s : State) : s.deselectAll =
    { s with
      csM := true, csS := true,
      trace := s.trace ++ (if s.csM = false ∨ s.csS = false then [.setCS .ms true] else []) } := by
  match s with
  | { csM := true, csS := true, .. } => simp [State.deselectAll, State.anySelected]
  | { csM := true, csS := false, .. } => rfl
  | { csM := false, .. } => rfl

/-- RST_N is released by an event only if it was driven low. -/
theorem releaseReset_eq (s : State) : (if s.rstl then s else s.emit (.setRST true)) =
    { s with
      rstl := true,
      trace := s.trace ++ (if s.rstl = false then [.setRST true] else []) } := by
  match s with
  | { rstl := true, .. } => simp
  | { rstl := false, .. } => rfl

/-- The soft reset, field by field. -/
theorem softReset_eq (s : State) : softReset s =
    { s with
      csM := true, csS := true, rstl := true,
      trace := s.trace ++ (if s.csM = false ∨ s.csS = false then [.setCS .ms true] else []) ++
        (if s.rstl = false then [.setRST true] else []),
      session := none, op := 0, arg0 := 0, arg1 := 0, result := 0, linecnt := 0,
      errcode := none, errop := 0, textlen := Vector.replicate 6 0, run := false, err := false,
      ovr := false, busys := false, dc := true, hcount := 0, seq := [] } := by
  simp only [softReset, releaseReset_eq]
  simp only [deselectAll_eq]

/-! ### The hardware reset (R450) -/

/-- A hardware reset that comes next is the whole step, whatever the sequencer is doing. -/
theorem step_hardwareReset {s : State} {ts : List Turn} (h : s.turns = .hardwareReset :: ts) :
    step s = .next (hardwareReset (s.withTurns ts)) := by
  simp only [step, takeTurn, h]

/-- STATUS is made of the reset values alone, so it is the same from every state (R62). -/
theorem statusWord_hardwareReset (s : State) : statusWord (hardwareReset s) = 0x00007000 := by
  have sameFields : statusWord (hardwareReset s) = statusWord State.reset := rfl
  rw [sameFields]
  rfl

/-! ### The obligations -/

/-- Settles O17: a CTRL write with bit 0 set is the soft reset, whatever its other bits. -/
theorem softResetAbandonsAndClears : Obligations.SoftResetAbandonsAndClears := by
  intro s w ts ht h0
  refine ⟨0, ?_⟩
  rw [step_write ht rfl (by decide), hostWrite_ctrl, ctrlWrite_soft h0, softReset_eq]
  rfl

/-- Settles O18: nothing is written, sent or running after it, and the new count of power-ups selects
the RAM contents. -/
theorem hardwareResetRestoresTheResetState : Obligations.HardwareResetRestoresTheResetState := by
  intro s ts ht
  exact ⟨hardwareReset (s.withTurns ts), 0, step_hardwareReset ht, rfl, rfl, rfl,
    statusWord_hardwareReset _, fun _ => rfl⟩

end Sys2Proof.Machine
end
